-- ==== Sys2Proof/Word.lean ====
section
/-! DEFINITION. The words of the core (00_scope.md R6, R8): bytes, 16-bit addresses, the 64-bit cycle count. -/

namespace Sys2Proof

/-- `u8` (R8): a register, a latch or a memory cell. -/
abbrev Byte := BitVec 8

/-- `u16` (R8): an address, `pc` or `addr_bus`. -/
abbrev Addr := BitVec 16

/-- `u64` (R6): the cycle counter `cyc`. -/
abbrev Count := BitVec 64

end Sys2Proof
end

