-- ==== Sys2Proof/Config.lean ====
section
/-! DEFINITION. What the implementation fixes (00_scope.md R6) and the parameters it leaves to its builder. -/

namespace Sys2Proof

/-- The parameters of the core that a model takes as an argument (92_eei_decisions.md, rows marked OPEN).
Nothing in the machine writes them (47_undocumented.md R380). -/
structure Params where
  /-- `UNDOC_SUPPORT` (R6, R380): whether the 80 undocumented opcodes of R105 execute. -/
  undocSupport : Bool
  deriving DecidableEq, Repr

namespace Config

/-- The spec's default parameters: `UNDOC_SUPPORT = true` (R6). -/
def defaultParams : Params := { undocSupport := true }

/-- Reset vector, low byte's address (R6). -/
def resetVectorLo : Addr := 0xFFFC#16

/-- Reset vector, high byte's address (R6). -/
def resetVectorHi : Addr := 0xFFFD#16

/-- BRK vector, low byte's address (R6). -/
def brkVectorLo : Addr := 0xFFFE#16

/-- BRK vector, high byte's address (R6). -/
def brkVectorHi : Addr := 0xFFFF#16

/-- The longest chain of one instruction, in pulses (40_sequencer.md R131). -/
def maxPulses : Nat := 8

/-- What a cell of the plain RAM holds until something is written there: the spec's own default memory is
"a flat 64 KiB RAM, all cells 0 unless given" (92 D10). DESIGN CHOICE, unsafe: log 4. -/
def unlistedByte : Byte := 0x00#8

end Config

end Sys2Proof
end

