-- ==== Sys2Proof/Syntax.lean ====
section
/-! DEFINITION. The instructions: every row of spec/opcode_table.json is a constructor of `Instr` with its mode.

A constructor carries what the decoder reads from the opcode byte (30_encoding.md R96): the operation and the
addressing mode, and, where several bytes encode one instruction, which of them. The operand bytes are not part
of it: the micro-op chain fetches them, one bus cycle each (40_sequencer.md R135; log 8). -/

namespace Sys2Proof

/-- The data addressing modes that form an effective address (30_encoding.md R92, 41_addressing.md R181). -/
inductive DataMode where
  /-- zero page, `$nn` -/
  | zp
  /-- zero page,X, `$nn,X` -/
  | zpX
  /-- zero page,Y, `$nn,Y` -/
  | zpY
  /-- absolute, `$hhll` -/
  | abs
  /-- absolute,X, `$hhll,X` -/
  | absX
  /-- absolute,Y, `$hhll,Y` -/
  | absY
  /-- (indirect,X), `($nn,X)` -/
  | indX
  /-- (indirect),Y, `($nn),Y` -/
  | indY
  deriving DecidableEq, Repr

/-- The operand of a read-kind instruction: the byte itself, or a byte in memory (R92). -/
inductive ReadMode where
  | imm
  | mem (m : DataMode)
  deriving DecidableEq, Repr

/-- The operand of a shift or rotate: the accumulator, or a byte in memory (44 §5). -/
inductive ShiftMode where
  | acc
  | mem (m : DataMode)
  deriving DecidableEq, Repr

/-- The instructions. `k` counts the opcode bytes of one instruction in the order R104 and R105 list them. -/
inductive Instr where
  -- loads and stores (43_load_store_transfer.md)
  | lda (m : ReadMode)
  | ldx (m : ReadMode)
  | ldy (m : ReadMode)
  | sta (m : DataMode)
  | stx (m : DataMode)
  | sty (m : DataMode)
  -- transfers
  | tax
  | tay
  | txa
  | tya
  | tsx
  | txs
  -- logic, arithmetic, comparison (44_arith_logic_shift.md)
  | ora (m : ReadMode)
  | and (m : ReadMode)
  | eor (m : ReadMode)
  | adc (m : ReadMode)
  | sbc (m : ReadMode)
  | cmp (m : ReadMode)
  | cpx (m : ReadMode)
  | cpy (m : ReadMode)
  | bit (m : DataMode)
  -- increments, decrements, shifts, rotates
  | inc (m : DataMode)
  | dec (m : DataMode)
  | inx
  | iny
  | dex
  | dey
  | asl (m : ShiftMode)
  | lsr (m : ShiftMode)
  | rol (m : ShiftMode)
  | ror (m : ShiftMode)
  -- branches (45_control_flow.md)
  | bpl
  | bmi
  | bvc
  | bvs
  | bcc
  | bcs
  | bne
  | beq
  -- jumps, subroutines, the trap and its return
  | jmpAbs
  | jmpInd
  | jsr
  | rts
  | brk
  | rti
  -- stack, flags, no operation (46_stack_flag_nop.md)
  | pha
  | php
  | pla
  | plp
  | clc
  | sec
  | cli
  | sei
  | clv
  | cld
  | sed
  | nop
  -- undocumented (47_undocumented.md)
  | lax (m : DataMode)
  | sax (m : DataMode)
  | slo (m : DataMode)
  | rla (m : DataMode)
  | sre (m : DataMode)
  | rra (m : DataMode)
  | dcp (m : DataMode)
  | isb (m : DataMode)
  /-- `$1A $3A $5A $7A $DA $FA` -/
  | nopImplied (k : Fin 6)
  /-- `$80 $82 $89 $C2 $E2` -/
  | nopImm (k : Fin 5)
  /-- `$04 $44 $64` -/
  | nopZp (k : Fin 3)
  /-- `$14 $34 $54 $74 $D4 $F4` -/
  | nopZpX (k : Fin 6)
  /-- `$0C` -/
  | nopAbs
  /-- `$1C $3C $5C $7C $DC $FC` -/
  | nopAbsX (k : Fin 6)
  /-- `$EB` -/
  | sbcDup
  -- unimplemented (30_encoding.md R104)
  /-- `$02 $12 $22 $32 $42 $52 $62 $72 $92 $B2 $D2 $F2` -/
  | jam (k : Fin 12)
  /-- `$0B $2B` -/
  | anc (k : Fin 2)
  | alr
  | arr
  | xaa
  | lxa
  | axs
  | sha (m : DataMode)
  | tas
  | shy
  | shx
  | las
  deriving DecidableEq, Repr

/-- The three classes of opcode (30_encoding.md R96, R103 to R105). -/
inductive OpClass where
  | documented
  | undocumented
  | unimplemented
  deriving DecidableEq, Repr

end Sys2Proof
end

