-- ==== Sys2Proof/WellFormed.lean ====
section
/-! DEFINITION. Which modes each instruction has: the **Encoding** lines of the instruction rules (files 43 to 47). -/

namespace Sys2Proof

/-- The eight modes of the ALU column (30_encoding.md R97). -/
def ReadMode.isAlu : ReadMode → Bool
  | .imm => true
  | .mem m => m != .zpY

/-- The seven memory modes of the ALU column, those of STA and of the combined undocumented operations. -/
def DataMode.isAluMem (m : DataMode) : Bool := m != .zpY

/-- zero page, zero page,X, absolute, absolute,X (R98). -/
def DataMode.isShiftMem (m : DataMode) : Bool := [.zp, .zpX, .abs, .absX].contains m

/-- An instruction has the modes its rule lists; an instruction with no mode is always well formed. -/
def Instr.wellFormed : Instr → Bool
  -- R240 to R242
  | .lda m => m.isAlu
  | .ldx m => [.imm, .mem .zp, .mem .zpY, .mem .abs, .mem .absY].contains m
  | .ldy m => [.imm, .mem .zp, .mem .zpX, .mem .abs, .mem .absX].contains m
  -- R243 to R245
  | .sta m => m.isAluMem
  | .stx m => [.zp, .zpY, .abs].contains m
  | .sty m => [.zp, .zpX, .abs].contains m
  -- R246 to R251
  | .tax | .tay | .txa | .tya | .tsx | .txs => true
  -- R270 to R278
  | .ora m => m.isAlu
  | .and m => m.isAlu
  | .eor m => m.isAlu
  | .adc m => m.isAlu
  | .sbc m => m.isAlu
  | .cmp m => m.isAlu
  | .cpx m => [.imm, .mem .zp, .mem .abs].contains m
  | .cpy m => [.imm, .mem .zp, .mem .abs].contains m
  | .bit m => [.zp, .abs].contains m
  -- R279 to R288
  | .inc m => m.isShiftMem
  | .dec m => m.isShiftMem
  | .inx | .iny | .dex | .dey => true
  | .asl .acc | .lsr .acc | .rol .acc | .ror .acc => true
  | .asl (.mem m) => m.isShiftMem
  | .lsr (.mem m) => m.isShiftMem
  | .rol (.mem m) => m.isShiftMem
  | .ror (.mem m) => m.isShiftMem
  -- R309 to R354
  | .bpl | .bmi | .bvc | .bvs | .bcc | .bcs | .bne | .beq => true
  | .jmpAbs | .jmpInd | .jsr | .rts | .brk | .rti => true
  -- R365 to R376
  | .pha | .php | .pla | .plp => true
  | .clc | .sec | .cli | .sei | .clv | .cld | .sed | .nop => true
  -- R381 to R390
  | .lax m => [.zp, .zpY, .abs, .absY, .indX, .indY].contains m
  | .sax m => [.zp, .zpY, .abs, .indX].contains m
  | .slo m => m.isAluMem
  | .rla m => m.isAluMem
  | .sre m => m.isAluMem
  | .rra m => m.isAluMem
  | .dcp m => m.isAluMem
  | .isb m => m.isAluMem
  | .nopImplied _ | .nopImm _ | .nopZp _ | .nopZpX _ | .nopAbs | .nopAbsX _ | .sbcDup => true
  -- R104
  | .jam _ | .anc _ | .alr | .arr | .xaa | .lxa | .axs => true
  | .sha m => [.indY, .absY].contains m
  | .tas | .shy | .shx | .las => true

end Sys2Proof
end

