-- ==== Sys2Proof/Decode.lean ====
section
/-! DEFINITION. The decoder (30_encoding.md R91, R96 to R107), written as the spec's nested switches on three
fields of the opcode byte, and after it the encoder, written from the same tables. -/

namespace Sys2Proof

/-- `group_a = ir[7:5]` (R91), "operation within column". -/
def groupA (ir : Byte) : Nat := (ir >>> 5 &&& 7#8).toNat

/-- `group_b = ir[4:2]` (R91), "addressing-mode column". -/
def groupB (ir : Byte) : Nat := (ir >>> 2 &&& 7#8).toNat

/-- `group_c = ir[1:0]` (R91), "instruction class". -/
def groupC (ir : Byte) : Nat := (ir &&& 3#8).toNat

/-- The modes of the ALU column by `group_b` (R97). -/
def aluMode : Nat → ReadMode
  | 0 => .mem .indX
  | 1 => .mem .zp
  | 2 => .imm
  | 3 => .mem .abs
  | 4 => .mem .indY
  | 5 => .mem .zpX
  | 6 => .mem .absY
  | _ => .mem .absX

/-- `group_c = 1` (R97): the ALU column; `$89` is an undocumented two-byte NOP. -/
def decodeAlu (a b : Nat) : Instr :=
  match a with
  | 0 => .ora (aluMode b)
  | 1 => .and (aluMode b)
  | 2 => .eor (aluMode b)
  | 3 => .adc (aluMode b)
  | 4 =>
    match aluMode b with
    | .imm => .nopImm 2
    | .mem m => .sta m
  | 5 => .lda (aluMode b)
  | 6 => .cmp (aluMode b)
  | _ => .sbc (aluMode b)

/-- The memory modes of columns 1, 3, 5, 7 of `group_c = 2` and `0` (R98, R99). -/
def shiftMode : Nat → DataMode
  | 1 => .zp
  | 3 => .abs
  | 5 => .zpX
  | _ => .absX

/-- The same columns for the X-register operations, which index by Y (R98; 90_conflicts.md C4). -/
def xRegMode : Nat → DataMode
  | 1 => .zp
  | 3 => .abs
  | 5 => .zpY
  | _ => .absY

/-- `group_c = 2`, columns 1, 3, 5, 7 (R98); `$9E` is the unimplemented SHX. -/
def decodeShiftMem (a b : Nat) : Instr :=
  match a with
  | 0 => .asl (.mem (shiftMode b))
  | 1 => .rol (.mem (shiftMode b))
  | 2 => .lsr (.mem (shiftMode b))
  | 3 => .ror (.mem (shiftMode b))
  | 4 =>
    match b with
    | 7 => .shx
    | _ => .stx (xRegMode b)
  | 5 => .ldx (.mem (xRegMode b))
  | 6 => .dec (shiftMode b)
  | _ => .inc (shiftMode b)

/-- `group_c = 2` (R98): shifts, X-register operations, transfers. -/
def decodeShift (a b : Nat) : Instr :=
  match b with
  | 0 =>
    match a with
    | 0 => .jam 0
    | 1 => .jam 2
    | 2 => .jam 4
    | 3 => .jam 6
    | 4 => .nopImm 1
    | 5 => .ldx .imm
    | 6 => .nopImm 3
    | _ => .nopImm 4
  | 2 =>
    match a with
    | 0 => .asl .acc
    | 1 => .rol .acc
    | 2 => .lsr .acc
    | 3 => .ror .acc
    | 4 => .txa
    | 5 => .tax
    | 6 => .dex
    | _ => .nop
  | 4 =>
    match a with
    | 0 => .jam 1
    | 1 => .jam 3
    | 2 => .jam 5
    | 3 => .jam 7
    | 4 => .jam 8
    | 5 => .jam 9
    | 6 => .jam 10
    | _ => .jam 11
  | 6 =>
    match a with
    | 0 => .nopImplied 0
    | 1 => .nopImplied 1
    | 2 => .nopImplied 2
    | 3 => .nopImplied 3
    | 4 => .txs
    | 5 => .tsx
    | 6 => .nopImplied 4
    | _ => .nopImplied 5
  | _ => decodeShiftMem a b

/-- `group_c = 0` (R99): control, branches, stack, Y-register and flag operations. -/
def decodeControl (a b : Nat) : Instr :=
  match b with
  | 0 =>
    match a with
    | 0 => .brk
    | 1 => .jsr
    | 2 => .rti
    | 3 => .rts
    | 4 => .nopImm 0
    | 5 => .ldy .imm
    | 6 => .cpy .imm
    | _ => .cpx .imm
  | 1 =>
    match a with
    | 0 => .nopZp 0
    | 1 => .bit .zp
    | 2 => .nopZp 1
    | 3 => .nopZp 2
    | 4 => .sty .zp
    | 5 => .ldy (.mem .zp)
    | 6 => .cpy (.mem .zp)
    | _ => .cpx (.mem .zp)
  | 2 =>
    match a with
    | 0 => .php
    | 1 => .plp
    | 2 => .pha
    | 3 => .pla
    | 4 => .dey
    | 5 => .tay
    | 6 => .iny
    | _ => .inx
  | 3 =>
    match a with
    | 0 => .nopAbs
    | 1 => .bit .abs
    | 2 => .jmpAbs
    | 3 => .jmpInd
    | 4 => .sty .abs
    | 5 => .ldy (.mem .abs)
    | 6 => .cpy (.mem .abs)
    | _ => .cpx (.mem .abs)
  | 4 =>
    match a with
    | 0 => .bpl
    | 1 => .bmi
    | 2 => .bvc
    | 3 => .bvs
    | 4 => .bcc
    | 5 => .bcs
    | 6 => .bne
    | _ => .beq
  | 5 =>
    match a with
    | 0 => .nopZpX 0
    | 1 => .nopZpX 1
    | 2 => .nopZpX 2
    | 3 => .nopZpX 3
    | 4 => .sty .zpX
    | 5 => .ldy (.mem .zpX)
    | 6 => .nopZpX 4
    | _ => .nopZpX 5
  | 6 =>
    match a with
    | 0 => .clc
    | 1 => .sec
    | 2 => .cli
    | 3 => .sei
    | 4 => .tya
    | 5 => .clv
    | 6 => .cld
    | _ => .sed
  | _ =>
    match a with
    | 0 => .nopAbsX 0
    | 1 => .nopAbsX 1
    | 2 => .nopAbsX 2
    | 3 => .nopAbsX 3
    | 4 => .shy
    | 5 => .ldy (.mem .absX)
    | 6 => .nopAbsX 4
    | _ => .nopAbsX 5

/-- The memory modes of `group_c = 3` by `group_b` (R100), X-indexed; column 2 has none. -/
def undocMode : Nat → DataMode
  | 0 => .indX
  | 1 => .zp
  | 3 => .abs
  | 4 => .indY
  | 5 => .zpX
  | 6 => .absY
  | _ => .absX

/-- The same for `group_a = 4, 5` (SAX, LAX), "with Y replacing X in columns 5 and 7" (R100). -/
def undocModeY : Nat → DataMode
  | 0 => .indX
  | 1 => .zp
  | 3 => .abs
  | 4 => .indY
  | 5 => .zpY
  | _ => .absY

/-- `group_c = 3` (R100): only undocumented and unimplemented opcodes. -/
def decodeUndoc (a b : Nat) : Instr :=
  match b with
  | 2 =>
    match a with
    | 0 => .anc 0
    | 1 => .anc 1
    | 2 => .alr
    | 3 => .arr
    | 4 => .xaa
    | 5 => .lxa
    | 6 => .axs
    | _ => .sbcDup
  | _ =>
    match a with
    | 0 => .slo (undocMode b)
    | 1 => .rla (undocMode b)
    | 2 => .sre (undocMode b)
    | 3 => .rra (undocMode b)
    | 4 =>
      match b with
      | 4 => .sha .indY
      | 6 => .tas
      | 7 => .sha .absY
      | _ => .sax (undocModeY b)
    | 5 =>
      match b with
      | 6 => .las
      | _ => .lax (undocModeY b)
    | 6 => .dcp (undocMode b)
    | _ => .isb (undocMode b)

/-- `decode(ir)` (R96): total on the 256 byte values; no state changes how a byte decodes (R106). -/
def decodeOpcode (ir : Byte) : Instr :=
  match groupC ir with
  | 0 => decodeControl (groupA ir) (groupB ir)
  | 1 => decodeAlu (groupA ir) (groupB ir)
  | 2 => decodeShift (groupA ir) (groupB ir)
  | _ => decodeUndoc (groupA ir) (groupB ir)

/-- The class of an instruction (R103 to R105). -/
def Instr.opClass : Instr → OpClass
  | .lax _ | .sax _ | .slo _ | .rla _ | .sre _ | .rra _ | .dcp _ | .isb _ => .undocumented
  | .nopImplied _ | .nopImm _ | .nopZp _ | .nopZpX _ | .nopAbs | .nopAbsX _ | .sbcDup => .undocumented
  | .jam _ | .anc _ | .alr | .arr | .xaa | .lxa | .axs | .sha _ | .tas | .shy | .shx | .las => .unimplemented
  | .lda _ | .ldx _ | .ldy _ | .sta _ | .stx _ | .sty _ => .documented
  | .tax | .tay | .txa | .tya | .tsx | .txs => .documented
  | .ora _ | .and _ | .eor _ | .adc _ | .sbc _ | .cmp _ | .cpx _ | .cpy _ | .bit _ => .documented
  | .inc _ | .dec _ | .inx | .iny | .dex | .dey => .documented
  | .asl _ | .lsr _ | .rol _ | .ror _ => .documented
  | .bpl | .bmi | .bvc | .bvs | .bcc | .bcs | .bne | .beq => .documented
  | .jmpAbs | .jmpInd | .jsr | .rts | .brk | .rti => .documented
  | .pha | .php | .pla | .plp => .documented
  | .clc | .sec | .cli | .sei | .clv | .cld | .sed | .nop => .documented

/-- Operand bytes of a data mode (R92, R102). -/
def DataMode.operandCount : DataMode → Nat
  | .zp | .zpX | .zpY | .indX | .indY => 1
  | .abs | .absX | .absY => 2

/-- Operand bytes of a read operand (R92, R102). -/
def ReadMode.operandCount : ReadMode → Nat
  | .imm => 1
  | .mem m => m.operandCount

/-- Operand bytes of a shift operand (R92, R102). -/
def ShiftMode.operandCount : ShiftMode → Nat
  | .acc => 0
  | .mem m => m.operandCount

/-- The operand bytes of an instruction (R102). An unimplemented opcode's table row has no length and the core
never reads past it (47_undocumented.md R391), so it has none (log 11). -/
def Instr.operandCount : Instr → Nat
  | .lda m | .ldx m | .ldy m | .ora m | .and m | .eor m | .adc m | .sbc m | .cmp m | .cpx m | .cpy m => m.operandCount
  | .sta m | .stx m | .sty m | .bit m | .inc m | .dec m => m.operandCount
  | .lax m | .sax m | .slo m | .rla m | .sre m | .rra m | .dcp m | .isb m => m.operandCount
  | .asl m | .lsr m | .rol m | .ror m => m.operandCount
  | .bpl | .bmi | .bvc | .bvs | .bcc | .bcs | .bne | .beq => 1
  | .jmpAbs | .jmpInd | .jsr => 2
  | .nopImm _ | .nopZp _ | .nopZpX _ | .sbcDup => 1
  | .nopAbs | .nopAbsX _ => 2
  | .tax | .tay | .txa | .tya | .tsx | .txs | .inx | .iny | .dex | .dey => 0
  | .rts | .brk | .rti | .pha | .php | .pla | .plp => 0
  | .clc | .sec | .cli | .sei | .clv | .cld | .sed | .nop | .nopImplied _ => 0
  | .jam _ | .anc _ | .alr | .arr | .xaa | .lxa | .axs | .sha _ | .tas | .shy | .shx | .las => 0

/-- The encoded length in bytes, "1–3 bytes" (R90, R102). -/
def Instr.length (i : Instr) : Nat := 1 + i.operandCount

/-- Why a list of bytes is no instruction. -/
inductive DecodeError where
  /-- There is no opcode byte. -/
  | noOpcode
  /-- The operand bytes of this instruction are not all there. -/
  | truncated (i : Instr)
  deriving DecidableEq, Repr

/-- An instruction as it stands in memory (R90): what it is, its operand bytes in the order they are fetched,
and the bytes after it. -/
structure Decoded where
  instr : Instr
  operands : List Byte
  rest : List Byte
  deriving DecidableEq, Repr

/-- Decode the instruction at the head of a list of bytes (R90, R102). -/
def decode : List Byte → Except DecodeError Decoded
  | [] => .error .noOpcode
  | op :: tail =>
    let i := decodeOpcode op
    if tail.length < i.operandCount then .error (.truncated i)
    else .ok ⟨i, tail.take i.operandCount, tail.drop i.operandCount⟩

/-! The encoder. -/

/-- The opcode byte with these three fields (R91). -/
def opcodeOf (a b c : Nat) : Byte := BitVec.ofNat 8 (a * 32 + b * 4 + c)

/-- The column of an ALU-column mode (R97). -/
def aluColumn : ReadMode → Option Nat
  | .mem .indX => some 0
  | .mem .zp => some 1
  | .imm => some 2
  | .mem .abs => some 3
  | .mem .indY => some 4
  | .mem .zpX => some 5
  | .mem .absY => some 6
  | .mem .absX => some 7
  | .mem .zpY => none

/-- The column of a shift-column memory mode (R98). -/
def shiftColumn : DataMode → Option Nat
  | .zp => some 1
  | .abs => some 3
  | .zpX => some 5
  | .absX => some 7
  | .zpY | .absY | .indX | .indY => none

/-- The column of an X-register memory mode (R98). -/
def xRegColumn : DataMode → Option Nat
  | .zp => some 1
  | .abs => some 3
  | .zpY => some 5
  | .absY => some 7
  | .zpX | .absX | .indX | .indY => none

/-- The column of a SAX or LAX mode (R100). -/
def undocColumnY : DataMode → Option Nat
  | .indX => some 0
  | .zp => some 1
  | .abs => some 3
  | .indY => some 4
  | .zpY => some 5
  | .absY => some 7
  | .zpX | .absX => none

/-- The column of CPX, CPY (R99): immediate, zero page, absolute. -/
def compareColumn : ReadMode → Option Nat
  | .imm => some 0
  | .mem .zp => some 1
  | .mem .abs => some 3
  | .mem _ => none

/-- The opcode byte of an instruction (R97 to R100); none for a mode the instruction does not have. -/
def encodeOpcode : Instr → Option Byte
  | .ora m => (aluColumn m).map (opcodeOf 0 · 1)
  | .and m => (aluColumn m).map (opcodeOf 1 · 1)
  | .eor m => (aluColumn m).map (opcodeOf 2 · 1)
  | .adc m => (aluColumn m).map (opcodeOf 3 · 1)
  | .sta m => (aluColumn (.mem m)).map (opcodeOf 4 · 1)
  | .lda m => (aluColumn m).map (opcodeOf 5 · 1)
  | .cmp m => (aluColumn m).map (opcodeOf 6 · 1)
  | .sbc m => (aluColumn m).map (opcodeOf 7 · 1)
  | .asl .acc => some 0x0A#8
  | .rol .acc => some 0x2A#8
  | .lsr .acc => some 0x4A#8
  | .ror .acc => some 0x6A#8
  | .asl (.mem m) => (shiftColumn m).map (opcodeOf 0 · 2)
  | .rol (.mem m) => (shiftColumn m).map (opcodeOf 1 · 2)
  | .lsr (.mem m) => (shiftColumn m).map (opcodeOf 2 · 2)
  | .ror (.mem m) => (shiftColumn m).map (opcodeOf 3 · 2)
  | .stx .absY => none
  | .stx m => (xRegColumn m).map (opcodeOf 4 · 2)
  | .ldx .imm => some 0xA2#8
  | .ldx (.mem m) => (xRegColumn m).map (opcodeOf 5 · 2)
  | .dec m => (shiftColumn m).map (opcodeOf 6 · 2)
  | .inc m => (shiftColumn m).map (opcodeOf 7 · 2)
  | .txa => some 0x8A#8
  | .tax => some 0xAA#8
  | .dex => some 0xCA#8
  | .nop => some 0xEA#8
  | .txs => some 0x9A#8
  | .tsx => some 0xBA#8
  | .brk => some 0x00#8
  | .jsr => some 0x20#8
  | .rti => some 0x40#8
  | .rts => some 0x60#8
  | .ldy .imm => some 0xA0#8
  | .ldy (.mem m) => (shiftColumn m).map (opcodeOf 5 · 0)
  | .cpy m => (compareColumn m).map (opcodeOf 6 · 0)
  | .cpx m => (compareColumn m).map (opcodeOf 7 · 0)
  | .sty .absX => none
  | .sty m => (shiftColumn m).map (opcodeOf 4 · 0)
  | .bit .zp => some 0x24#8
  | .bit .abs => some 0x2C#8
  | .bit _ => none
  | .php => some 0x08#8
  | .plp => some 0x28#8
  | .pha => some 0x48#8
  | .pla => some 0x68#8
  | .dey => some 0x88#8
  | .tay => some 0xA8#8
  | .iny => some 0xC8#8
  | .inx => some 0xE8#8
  | .jmpAbs => some 0x4C#8
  | .jmpInd => some 0x6C#8
  | .bpl => some 0x10#8
  | .bmi => some 0x30#8
  | .bvc => some 0x50#8
  | .bvs => some 0x70#8
  | .bcc => some 0x90#8
  | .bcs => some 0xB0#8
  | .bne => some 0xD0#8
  | .beq => some 0xF0#8
  | .clc => some 0x18#8
  | .sec => some 0x38#8
  | .cli => some 0x58#8
  | .sei => some 0x78#8
  | .tya => some 0x98#8
  | .clv => some 0xB8#8
  | .cld => some 0xD8#8
  | .sed => some 0xF8#8
  | .slo m => (aluColumn (.mem m)).map (opcodeOf 0 · 3)
  | .rla m => (aluColumn (.mem m)).map (opcodeOf 1 · 3)
  | .sre m => (aluColumn (.mem m)).map (opcodeOf 2 · 3)
  | .rra m => (aluColumn (.mem m)).map (opcodeOf 3 · 3)
  | .sax .indY => none
  | .sax .absY => none
  | .sax m => (undocColumnY m).map (opcodeOf 4 · 3)
  | .lax m => (undocColumnY m).map (opcodeOf 5 · 3)
  | .dcp m => (aluColumn (.mem m)).map (opcodeOf 6 · 3)
  | .isb m => (aluColumn (.mem m)).map (opcodeOf 7 · 3)
  -- the duplicates, in the order of R105 and R104
  | .nopImplied k => [0x1A#8, 0x3A#8, 0x5A#8, 0x7A#8, 0xDA#8, 0xFA#8][k.val]?
  | .nopImm k => [0x80#8, 0x82#8, 0x89#8, 0xC2#8, 0xE2#8][k.val]?
  | .nopZp k => [0x04#8, 0x44#8, 0x64#8][k.val]?
  | .nopZpX k => [0x14#8, 0x34#8, 0x54#8, 0x74#8, 0xD4#8, 0xF4#8][k.val]?
  | .nopAbs => some 0x0C#8
  | .nopAbsX k => [0x1C#8, 0x3C#8, 0x5C#8, 0x7C#8, 0xDC#8, 0xFC#8][k.val]?
  | .sbcDup => some 0xEB#8
  | .jam k => [0x02#8, 0x12#8, 0x22#8, 0x32#8, 0x42#8, 0x52#8, 0x62#8, 0x72#8, 0x92#8, 0xB2#8, 0xD2#8, 0xF2#8][k.val]?
  | .anc k => [0x0B#8, 0x2B#8][k.val]?
  | .alr => some 0x4B#8
  | .arr => some 0x6B#8
  | .xaa => some 0x8B#8
  | .lxa => some 0xAB#8
  | .axs => some 0xCB#8
  | .sha .indY => some 0x93#8
  | .sha .absY => some 0x9F#8
  | .sha _ => none
  | .tas => some 0x9B#8
  | .shy => some 0x9C#8
  | .shx => some 0x9E#8
  | .las => some 0xBB#8

/-- The bytes of an instruction with these operand bytes (R90, R95): opcode first, then `b1`, then `b2`. -/
def encode (i : Instr) (operands : List Byte) : Option (List Byte) :=
  if operands.length = i.operandCount then (encodeOpcode i).map (· :: operands) else none

/-- Byte `k` of an instruction word numbered as spec/opcode_table.json numbers it: bit 0 is the least
significant bit of the first byte; bits at and above `nbits` are 0. -/
def tableByte (nbits w k : Nat) : Byte := BitVec.ofNat 8 ((w % 2 ^ nbits) / 256 ^ k)

/-- The three bytes such a word has in memory, the first at the lowest address (R90). -/
def tableBytes (nbits w : Nat) : List Byte := [tableByte nbits w 0, tableByte nbits w 1, tableByte nbits w 2]

/-- The instruction the decoder reads from a table word. -/
def decodeTableWord (nbits w : Nat) : Option Instr :=
  match decode (tableBytes nbits w) with
  | .ok d => some d.instr
  | .error _ => none

end Sys2Proof
end

