-- ==== Sys2Proof/Machine/Bits.lean ====
section
/-! DEFINITION. The spec's operators on bytes and addresses (00_scope.md R9). -/

namespace Sys2Proof.Machine

/-- `zext16(v)` (R9). -/
def zext16 (v : Byte) : Addr := v.zeroExtend 16

/-- `sext16(v)` (R9): `v + 0xFF00` when `v[7] = 1`, else `v`. -/
def sext16 (v : Byte) : Addr := v.signExtend 16

/-- `cat(hi, lo)` (R9): `hi * 256 + lo`. -/
def cat (hi lo : Byte) : Addr := hi ++ lo

/-- `v[15:8]` (R7), the page of an address (R15). -/
def hiByte (v : Addr) : Byte := v.extractLsb' 8 8

/-- `v[7:0]` (R7). -/
def loByte (v : Addr) : Byte := v.extractLsb' 0 8

/-- `stack(s) = 0x0100 | zext16(s)` (R9, 10_state.md R24). -/
def stackAddr (s : Byte) : Addr := 0x0100#16 ||| zext16 s

/-- Adding an index carries out of bit 7 of the base's low byte (41_addressing.md R161): bit 8 of the 9-bit sum. -/
def carriesOut (lo i : Byte) : Bool := (lo.zeroExtend 9 + i.zeroExtend 9).msb

/-- An indexed address crosses a page (R161). -/
def pageCrossed (base : Addr) (i : Byte) : Bool := carriesOut (loByte base) i

end Sys2Proof.Machine
end

