-- ==== Sys2Proof/Machine/MicroOp.lean ====
section
/-! DEFINITION. The continuation of the core: the enumeration of 40_sequencer.md R147.

Its payloads are typed by the operation kind of 41_addressing.md R160, so that almost no combination that the
rules never produce can be written (log 9). -/

namespace Sys2Proof.Machine

/-- The index registers of the indexed modes (41_addressing.md R184). -/
inductive IndexReg where
  | x
  | y
  deriving DecidableEq, Repr

/-- Kind R (R160): the operations of `read_exec` (42_alu_flags.md R222). -/
inductive ReadOp where
  | lda | ldx | ldy | lax | ora | and | eor | adc | sbc | cmp | cpx | cpy | bit | nop
  deriving DecidableEq, Repr

/-- Kind W (R160): the operations of `store_value` (R224). -/
inductive WriteOp where
  | sta | stx | sty | sax
  deriving DecidableEq, Repr

/-- Kind M (R160): the operations of `rmw_exec` (R223). -/
inductive RmwOp where
  | asl | lsr | rol | ror | inc | dec | slo | rla | sre | rra | dcp | isb
  deriving DecidableEq, Repr

/-- An operation with its kind (R160). -/
inductive MemOp where
  | read (op : ReadOp)
  | write (op : WriteOp)
  | rmw (op : RmwOp)
  deriving DecidableEq, Repr

/-- The operations of `implied_exec` (R225); the shifts are the accumulator forms. -/
inductive ImpliedOp where
  | asl | lsr | rol | ror | tax | tay | txa | tya | tsx | txs | inx | iny | dex | dey
  | clc | sec | cli | sei | clv | cld | sed | nop
  deriving DecidableEq, Repr

/-- `PushOp` (R147). -/
inductive PushOp where
  | pha | php
  deriving DecidableEq, Repr

/-- `PullOp` (R147). -/
inductive PullOp where
  | pla | plp
  deriving DecidableEq, Repr

/-- The eight branches (45_control_flow.md R310). -/
inductive BranchOp where
  | bpl | bmi | bvc | bvs | bcc | bcs | bne | beq
  deriving DecidableEq, Repr

/-- `MicroOp` (R147), one variant per row of its table. -/
inductive MicroOp where
  | fetchOpcode
  | implied (op : ImpliedOp)
  | imm (op : ReadOp)
  | zpAddr (op : MemOp)
  | zpIdxBase (op : MemOp) (idx : IndexReg)
  | zpIdxAdd (op : MemOp) (idx : IndexReg)
  | absLo (op : MemOp) (idx : Option IndexReg)
  | absHi (op : MemOp) (idx : Option IndexReg)
  | idxFix (op : MemOp) (crossed : Bool)
  | izxPtr (op : MemOp)
  | izxAdd (op : MemOp)
  | izxLo (op : MemOp)
  | izxHi (op : MemOp)
  | izyPtr (op : MemOp)
  | izyLo (op : MemOp)
  | izyHi (op : MemOp)
  | execRead (op : ReadOp)
  | storeDone
  | rmwRead (op : RmwOp)
  | rmwModify (op : RmwOp)
  | branch (op : BranchOp)
  | branchTaken
  | branchFix
  | jmpLo
  | jmpHi
  | jmpIndLo
  | jmpIndHi
  | jmpIndTgtLo
  | jmpIndTgtHi
  | jsrLo
  | jsrStack
  | jsrPushHi
  | jsrPushLo
  | jsrHi
  | rtsDummy
  | rtsStack
  | rtsPullLo
  | rtsPullHi
  | rtsInc
  | rtiDummy
  | rtiStack
  | rtiPullP
  | rtiPullLo
  | rtiPullHi
  | brkSig
  | brkPushHi
  | brkPushLo
  | brkPushP
  | brkVecLo
  | brkVecHi
  | pushDummy (op : PushOp)
  | pushDone
  | pullDummy (op : PullOp)
  | pullStack (op : PullOp)
  | pullDone (op : PullOp)
  | unimplemented (opcode : Byte)
  deriving DecidableEq, Repr

end Sys2Proof.Machine
end

