-- ==== Sys2Proof/Machine/State.lean ====
section
/-! DEFINITION. The state of the machine as plain data: the core's one aggregate (10_state.md R20), the plain RAM
it is connected to, and the parameters; the reasons a step stops; the state after reset. -/

namespace Sys2Proof.Machine

/-- The `register_file` unit (R2, R20). -/
structure Regs where
  /-- program counter (R21) -/
  pc : Addr
  /-- accumulator (R22) -/
  a : Byte
  /-- index register X (R22) -/
  x : Byte
  /-- index register Y (R22) -/
  y : Byte
  /-- stack pointer, the low byte of the stack address (R24) -/
  sp : Byte
  /-- processor status N V _ B D I Z C (R26) -/
  p : Byte
  deriving DecidableEq, Repr

/-- The core's whole state (R20): the register file, the latches, the counters and the continuation. -/
structure Cpu where
  regs : Regs
  /-- latched opcode (R34) -/
  ir : Byte
  /-- the previous cycle's `data_bus` (R35) -/
  pd : Byte
  /-- address of the next bus transaction (R36) -/
  addrBus : Addr
  /-- byte of the last read, or byte to write next (R36) -/
  dataBus : Byte
  /-- the next transaction is a read (R37) -/
  readIntent : Bool
  /-- steps elapsed in the current instruction (R38) -/
  tcu : Byte
  /-- total bus cycles (R39) -/
  cyc : Count
  /-- the continuation (R40) -/
  nextMicroOp : MicroOp
  /-- JSR scratch: the target's low byte (R41) -/
  jsrLo : Byte
  deriving DecidableEq, Repr

/-- A plain RAM (20_memory.md R64): address and byte, addresses strictly rising, and no entry equal to what an
unlisted address reads as (`Memory.wf` in Machine/Ops.lean). -/
abbrev Memory := List Host.Cell

/-- The machine: the core, its memory, its parameters. -/
structure State where
  cpu : Cpu
  mem : Memory
  params : Params
  deriving DecidableEq, Repr

/-- The one fault of the core. -/
inductive Fault where
  /-- `UnimplementedOpcode(op)` (60_exceptions.md R411), raised by the pulse after the opcode read of one of the 25
  opcodes of 30_encoding.md R104, or of the 80 of R105 while `undocSupport` is false. It is the spec's own outcome;
  against the real chip it is safe, since the model stops where the chip goes on or halts. -/
  | unimplementedOpcode (op : Byte)
  deriving DecidableEq, Repr

/-- What the model turns away. -/
inductive Refusal where
  /-- An instruction without a meaning yet; raised by an arm of `exec` only. Safe. No arm raises it now. -/
  | notModelled (mnemonic : String)
  /-- The host poked a field at a time that is no instruction boundary (40_sequencer.md R145); raised by `hostStep`
  only. Safe: the spec refuses it. -/
  | pokeOffBoundary
  /-- The host poked a field other than `pc`, `a`, `x`, `y`, `sp`, `p`, `cyc` (R145); raised by `hostStep` only.
  Safe: the spec refuses it. -/
  | pokeOfInternalField
  deriving DecidableEq, Repr

/-- `POWER_ON`, the construction state before the first reset, at the spec's default: "every numeric field 0,
read_intent = false, next_micro_op = FetchOpcode" (10_state.md R45). DESIGN CHOICE, unsafe: log 5. -/
def State.powerOn : State where
  cpu :=
    { regs := { pc := 0, a := 0, x := 0, y := 0, sp := 0, p := 0 }
      ir := 0, pd := 0, addrBus := 0, dataBus := 0, readIntent := false, tcu := 0, cyc := 0
      nextMicroOp := .fetchOpcode, jsrLo := 0 }
  mem := []
  params := Config.defaultParams

/-- The machine right after reset (70_reset_and_hazards.md R443, vector G1): `reset(POWER_ON)` with nothing listed in
memory, so the vector reads `$0000`. That it is `State.powerOn.resetAction` is the statement `ResetStateInv`. -/
def State.reset : State where
  cpu :=
    { regs := { pc := 0, a := 0, x := 0, y := 0, sp := 0, p := 0x24 }
      ir := 0, pd := 0, addrBus := 0, dataBus := 0, readIntent := true, tcu := 0, cyc := 0
      nextMicroOp := .fetchOpcode, jsrLo := 0 }
  mem := []
  params := Config.defaultParams

end Sys2Proof.Machine
end

