-- ==== Sys2Proof/Machine/Flags.lean ====
section
/-! DEFINITION. The ALU and flag helpers (42_alu_flags.md) and the four execution tables R222 to R225, as pure
functions of the register file. A flag or register that a helper does not name is unchanged. -/

namespace Sys2Proof.Machine

/-- The eight bits of `p` (10_state.md R26). -/
inductive Flag where
  | n | v | u | b | d | i | z | c
  deriving DecidableEq, Repr

/-- The masks of R26. -/
def Flag.mask : Flag → Byte
  | .n => 0x80#8
  | .v => 0x40#8
  | .u => 0x20#8
  | .b => 0x10#8
  | .d => 0x08#8
  | .i => 0x04#8
  | .z => 0x02#8
  | .c => 0x01#8

/-- `get_flag(m) = (p & m) != 0` (R31). -/
def Regs.getFlag (r : Regs) (f : Flag) : Bool := (r.p &&& f.mask) != 0#8

/-- `set_flag(m, b)` (R31): `p | m` when `b`, `p & ~m` otherwise. -/
def Regs.setFlag (r : Regs) (f : Flag) (b : Bool) : Regs :=
  { r with p := if b then r.p ||| f.mask else r.p &&& ~~~f.mask }

/-- `update_nz(v)` (R32). -/
def Regs.updateNz (r : Regs) (v : Byte) : Regs := (r.setFlag .n v.msb).setFlag .z (v == 0#8)

/-! Addition, subtraction, comparison, bit test, logic. -/

/-- `adc(m)` (R210). D is not read (R213). -/
def Regs.adc (r : Regs) (m : Byte) : Regs :=
  let sum := r.a.toNat + m.toNat + (r.getFlag .c).toNat
  let res := BitVec.ofNat 8 sum
  let r' := (r.setFlag .c (decide (0xFF < sum))).setFlag .v (r.a.msb == m.msb && res.msb != r.a.msb)
  ({ r' with a := res }).updateNz res

/-- `sbc(m)` is `adc(~m)` (R211; 90_conflicts.md C8). -/
def Regs.sbc (r : Regs) (m : Byte) : Regs := r.adc (~~~m)

/-- `compare(reg, m)` (R214). -/
def Regs.compare (r : Regs) (reg m : Byte) : Regs :=
  (r.setFlag .c (decide (m.toNat ≤ reg.toNat))).updateNz (reg - m)

/-- `bit_test(m)` (R220). -/
def Regs.bitTest (r : Regs) (m : Byte) : Regs :=
  ((r.setFlag .z ((r.a &&& m) == 0#8)).setFlag .n (m.getLsbD 7)).setFlag .v (m.getLsbD 6)

/-- `ora(m)` (R221). -/
def Regs.ora (r : Regs) (m : Byte) : Regs := ({ r with a := r.a ||| m }).updateNz (r.a ||| m)

/-- `and(m)` (R221). -/
def Regs.and (r : Regs) (m : Byte) : Regs := ({ r with a := r.a &&& m }).updateNz (r.a &&& m)

/-- `eor(m)` (R221). -/
def Regs.eor (r : Regs) (m : Byte) : Regs := ({ r with a := r.a ^^^ m }).updateNz (r.a ^^^ m)

/-! Shifts, rotates, increments: the result and the register file with its flags. -/

/-- `asl(v)` (R215). -/
def Regs.asl (r : Regs) (v : Byte) : Byte × Regs :=
  (v <<< 1, (r.setFlag .c (v.getLsbD 7)).updateNz (v <<< 1))

/-- `lsr(v)` (R216). -/
def Regs.lsr (r : Regs) (v : Byte) : Byte × Regs :=
  (v >>> 1, (r.setFlag .c (v.getLsbD 0)).updateNz (v >>> 1))

/-- The carry as a byte, 0 or 1. -/
def Regs.carryByte (r : Regs) : Byte := if r.getFlag .c then 1#8 else 0#8

/-- `rol(v)` (R217): the old carry enters bit 0. -/
def Regs.rol (r : Regs) (v : Byte) : Byte × Regs :=
  let res := (v <<< 1) ||| r.carryByte
  (res, (r.setFlag .c (v.getLsbD 7)).updateNz res)

/-- `ror(v)` (R218): the old carry enters bit 7. -/
def Regs.ror (r : Regs) (v : Byte) : Byte × Regs :=
  let res := (v >>> 1) ||| (r.carryByte <<< 7)
  (res, (r.setFlag .c (v.getLsbD 0)).updateNz res)

/-- `inc8(v)` (R219), which writes no flag. -/
def inc8 (v : Byte) : Byte := v + 1#8

/-- `dec8(v)` (R219), which writes no flag. -/
def dec8 (v : Byte) : Byte := v - 1#8

/-! Loads and transfers. -/

/-- `a <- v; update_nz(a)`. -/
def Regs.loadA (r : Regs) (v : Byte) : Regs := ({ r with a := v }).updateNz v

/-- `x <- v; update_nz(x)`. -/
def Regs.loadX (r : Regs) (v : Byte) : Regs := ({ r with x := v }).updateNz v

/-- `y <- v; update_nz(y)`. -/
def Regs.loadY (r : Regs) (v : Byte) : Regs := ({ r with y := v }).updateNz v

/-- `a <- v; x <- v; update_nz(v)` (LAX, R222). -/
def Regs.loadAX (r : Regs) (v : Byte) : Regs := ({ r with a := v, x := v }).updateNz v

/-- What PLP and RTI load: `(m & 0xCF) | (p & 0x30)`, bits 4 and 5 of `p` kept (10_state.md R28). -/
def Regs.pullP (r : Regs) (m : Byte) : Regs := { r with p := (m &&& 0xCF#8) ||| (r.p &&& 0x30#8) }

/-- The status byte that BRK and PHP push: `p | 0x30` (R28). -/
def Regs.pushedP (r : Regs) : Byte := r.p ||| 0x30#8

/-! The execution tables. -/

/-- `read_exec(op, v)` (R222). -/
def readExec : ReadOp → Byte → Regs → Regs
  | .lda, v, r => r.loadA v
  | .ldx, v, r => r.loadX v
  | .ldy, v, r => r.loadY v
  | .lax, v, r => r.loadAX v
  | .ora, v, r => r.ora v
  | .and, v, r => r.and v
  | .eor, v, r => r.eor v
  | .adc, v, r => r.adc v
  | .sbc, v, r => r.sbc v
  | .cmp, v, r => r.compare r.a v
  | .cpx, v, r => r.compare r.x v
  | .cpy, v, r => r.compare r.y v
  | .bit, v, r => r.bitTest v
  | .nop, _, r => r

/-- `rmw_exec(op, v)` (R223): the byte the final write stores, and the register file. -/
def rmwExec : RmwOp → Byte → Regs → Byte × Regs
  | .asl, v, r => r.asl v
  | .lsr, v, r => r.lsr v
  | .rol, v, r => r.rol v
  | .ror, v, r => r.ror v
  | .inc, v, r => (inc8 v, r.updateNz (inc8 v))
  | .dec, v, r => (dec8 v, r.updateNz (dec8 v))
  | .slo, v, r => ((r.asl v).1, (r.asl v).2.ora (r.asl v).1)
  | .rla, v, r => ((r.rol v).1, (r.rol v).2.and (r.rol v).1)
  | .sre, v, r => ((r.lsr v).1, (r.lsr v).2.eor (r.lsr v).1)
  | .rra, v, r => ((r.ror v).1, (r.ror v).2.adc (r.ror v).1)
  | .dcp, v, r => (dec8 v, r.compare r.a (dec8 v))
  | .isb, v, r => (inc8 v, r.sbc (inc8 v))

/-- `store_value(op)` (R224). -/
def storeValue : WriteOp → Regs → Byte
  | .sta, r => r.a
  | .stx, r => r.x
  | .sty, r => r.y
  | .sax, r => r.a &&& r.x

/-- The accumulator form of a shift: `a <- op(a)` (R225). -/
def Regs.shiftA (r : Regs) (f : Regs → Byte → Byte × Regs) : Regs := { (f r r.a).2 with a := (f r r.a).1 }

/-- `implied_exec(op)` (R225). -/
def impliedExec : ImpliedOp → Regs → Regs
  | .asl, r => r.shiftA Regs.asl
  | .lsr, r => r.shiftA Regs.lsr
  | .rol, r => r.shiftA Regs.rol
  | .ror, r => r.shiftA Regs.ror
  | .tax, r => r.loadX r.a
  | .tay, r => r.loadY r.a
  | .txa, r => r.loadA r.x
  | .tya, r => r.loadA r.y
  | .tsx, r => r.loadX r.sp
  | .txs, r => { r with sp := r.x }
  | .inx, r => r.loadX (inc8 r.x)
  | .iny, r => r.loadY (inc8 r.y)
  | .dex, r => r.loadX (dec8 r.x)
  | .dey, r => r.loadY (dec8 r.y)
  | .clc, r => r.setFlag .c false
  | .sec, r => r.setFlag .c true
  | .cli, r => r.setFlag .i false
  | .sei, r => r.setFlag .i true
  | .clv, r => r.setFlag .v false
  | .cld, r => r.setFlag .d false
  | .sed, r => r.setFlag .d true
  | .nop, r => r

/-- The flag a branch tests and the value that takes it (45_control_flow.md R310). -/
def branchTest : BranchOp → Flag × Bool
  | .bpl => (.n, false)
  | .bmi => (.n, true)
  | .bvc => (.v, false)
  | .bvs => (.v, true)
  | .bcc => (.c, false)
  | .bcs => (.c, true)
  | .bne => (.z, false)
  | .beq => (.z, true)

/-- `taken(op)` (R310, R311). -/
def Regs.taken (r : Regs) (op : BranchOp) : Bool := r.getFlag (branchTest op).1 == (branchTest op).2

end Sys2Proof.Machine
end

