-- ==== Sys2Proof/Machine/Ops.lean ====
section
/-! DEFINITION. The operations every instruction is made of: the plain RAM, the memory agent, the next bus
transaction a micro-op sets up, taking the trap (BRK) and returning from it (RTI).

A micro-op is a function `Cpu → Cpu` on the state left by the pulse's transaction; it never touches memory
(40_sequencer.md R132). Setting `nextMicroOp` is the spec's "return". -/

namespace Sys2Proof.Machine

/-! The plain RAM (20_memory.md R64; 92 D10, D11). -/

/-- The byte at a key of the list, `Config.unlistedByte` where none is listed. -/
def Memory.lookup : Memory → Nat → Byte
  | [], _ => Config.unlistedByte
  | (k', v') :: t, k => if k = k' then v' else Memory.lookup t k

/-- Put a byte at a key, keeping the canonical form: writing the unlisted byte removes the entry. -/
def Memory.insert : Memory → Nat → Byte → Memory
  | [], k, v => if v = Config.unlistedByte then [] else [(k, v)]
  | (k', v') :: t, k, v =>
    if k < k' then
      if v = Config.unlistedByte then (k', v') :: t else (k, v) :: (k', v') :: t
    else if k = k' then
      if v = Config.unlistedByte then t else (k, v) :: t
    else (k', v') :: Memory.insert t k v

/-- `MemRead(addr, 1)` of the plain RAM: "a read returns the byte the last write to the same address left" (R64). -/
def Memory.read (m : Memory) (addr : Addr) : Byte := m.lookup addr.toNat

/-- `MemWrite(addr, 1, v)` of the plain RAM (R64). -/
def Memory.write (m : Memory) (addr : Addr) (v : Byte) : Memory := m.insert addr.toNat v

/-- Canonical from a lower bound on: addresses strictly rising, inside the 16-bit space (R60), no unlisted byte. -/
def Memory.wfFrom : Nat → Memory → Bool
  | _, [] => true
  | lo, (k, v) :: t => decide (lo ≤ k) && decide (k < 65536) && v != Config.unlistedByte && Memory.wfFrom (k + 1) t

/-- The canonical form of a memory. -/
def Memory.wf (m : Memory) : Bool := Memory.wfFrom 0 m

/-! The memory agent. -/

/-- `MEM = (S_mem, read, write)` (R64): a read returns a byte chosen by the memory and may change its state (R63).
An ARGUMENT of the core's functions, never a part of `State`. -/
structure MemAgent (σ : Type) where
  read : σ → Addr → Byte × σ
  write : σ → Addr → Byte → σ

/-- The plain RAM as an agent. -/
def ramAgent : MemAgent Memory where
  read m addr := (Memory.read m addr, m)
  write m addr v := Memory.write m addr v

/-! Helper actions of a micro-op (00_scope.md R11). -/

/-- `rd(ad)`: `addr_bus <- ad; read_intent <- true`. -/
def Cpu.rd (c : Cpu) (ad : Addr) : Cpu := { c with addrBus := ad, readIntent := true }

/-- `wr(ad, v)`: `addr_bus <- ad; data_bus <- v; read_intent <- false`. -/
def Cpu.wr (c : Cpu) (ad : Addr) (v : Byte) : Cpu := { c with addrBus := ad, dataBus := v, readIntent := false }

/-- "return m". -/
def Cpu.goto (c : Cpu) (m : MicroOp) : Cpu := { c with nextMicroOp := m }

/-- `finish` (40_sequencer.md R133). -/
def Cpu.finish (c : Cpu) : Cpu :=
  { c with tcu := 0#8, addrBus := c.regs.pc, readIntent := true, nextMicroOp := .fetchOpcode }

/-- `pc <- v`. -/
def Cpu.setPc (c : Cpu) (v : Addr) : Cpu := { c with regs := { c.regs with pc := v } }

/-- `pc <- pc +16 1`. -/
def Cpu.incPc (c : Cpu) : Cpu := c.setPc (c.regs.pc + 1#16)

/-- `sp <- v`. -/
def Cpu.setSp (c : Cpu) (v : Byte) : Cpu := { c with regs := { c.regs with sp := v } }

/-- `sp <- sp -8 1`, the half of a push after the write (10_state.md R25). -/
def Cpu.decSp (c : Cpu) : Cpu := c.setSp (c.regs.sp - 1#8)

/-- `sp <- sp +8 1`, the half of a pull before the read (R25). -/
def Cpu.incSp (c : Cpu) : Cpu := c.setSp (c.regs.sp + 1#8)

/-- Apply a register-file helper. -/
def Cpu.onRegs (c : Cpu) (f : Regs → Regs) : Cpu := { c with regs := f c.regs }

/-- `rd(pc)`. -/
def Cpu.rdPc (c : Cpu) : Cpu := c.rd c.regs.pc

/-- `rd(stack(sp))`. -/
def Cpu.rdStack (c : Cpu) : Cpu := c.rd (stackAddr c.regs.sp)

/-- `wr(stack(sp), v)`. -/
def Cpu.wrStack (c : Cpu) (v : Byte) : Cpu := c.wr (stackAddr c.regs.sp) v

/-- `pc <- cat(data_bus, pd)`: a 16-bit value whose low byte was read one cycle before its high byte (R65). -/
def Cpu.loadPc (c : Cpu) : Cpu := c.setPc (cat c.dataBus c.pd)

/-! Taking the trap: BRK is the only way into a handler (60_exceptions.md R416). The six micro-ops push `P + 2` high
byte first, then `p | 0x30`, set I and load `pc` from `$FFFE/$FFFF`. -/

/-- `BrkSig` (45_control_flow.md R342). -/
def brkSig (c : Cpu) : Cpu := (c.incPc.wrStack (hiByte c.incPc.regs.pc)).goto .brkPushHi

/-- `BrkPushHi` (R343). -/
def brkPushHi (c : Cpu) : Cpu := (c.decSp.wrStack (loByte c.regs.pc)).goto .brkPushLo

/-- `BrkPushLo` (R344). -/
def brkPushLo (c : Cpu) : Cpu := (c.decSp.wrStack c.regs.pushedP).goto .brkPushP

/-- `BrkPushP` (R345): I is set after the push (92 D16). -/
def brkPushP (c : Cpu) : Cpu := ((c.decSp.onRegs (·.setFlag .i true)).rd Config.brkVectorLo).goto .brkVecLo

/-- `BrkVecLo` (R346). -/
def brkVecLo (c : Cpu) : Cpu := (c.rd Config.brkVectorHi).goto .brkVecHi

/-- `BrkVecHi` (R347). -/
def brkVecHi (c : Cpu) : Cpu := c.loadPc.finish

/-! Returning from it: RTI (60_exceptions.md R418). -/

/-- `RtiDummy` (R349). -/
def rtiDummy (c : Cpu) : Cpu := c.rdStack.goto .rtiStack

/-- `RtiStack` (R350). -/
def rtiStack (c : Cpu) : Cpu := c.incSp.rdStack.goto .rtiPullP

/-- `RtiPullP` (R351): bits 4 and 5 of `p` keep their values (92 D8). -/
def rtiPullP (c : Cpu) : Cpu := (c.onRegs (·.pullP c.dataBus)).incSp.rdStack.goto .rtiPullLo

/-- `RtiPullLo` (R352). -/
def rtiPullLo (c : Cpu) : Cpu := c.incSp.rdStack.goto .rtiPullHi

/-- `RtiPullHi` (R353): no +1. -/
def rtiPullHi (c : Cpu) : Cpu := c.loadPc.finish

end Sys2Proof.Machine
end

