-- ==== Sys2Proof/Machine/Operands.lean ====
section
/-! DEFINITION. The addressing-mode unit (41_addressing.md): the access tail of each operation kind, the micro-ops of
every data addressing mode, and the closed form of every effective address (R181). -/

namespace Sys2Proof.Machine

/-! The access tail (R162 to R166). -/

/-- `ea_ready(op, ea)` (R162). -/
def eaReady (op : MemOp) (ea : Addr) (c : Cpu) : Cpu :=
  match op with
  | .read r => (c.rd ea).goto (.execRead r)
  | .write w => (c.wr ea (storeValue w c.regs)).goto .storeDone
  | .rmw m => (c.rd ea).goto (.rmwRead m)

/-- `ExecRead{op}` (R163). -/
def execRead (op : ReadOp) (c : Cpu) : Cpu := (c.onRegs (readExec op c.dataBus)).finish

/-- `StoreDone` (R164). -/
def storeDone (c : Cpu) : Cpu := c.finish

/-- `RmwRead{op}` (R165): the next pulse writes the unmodified byte back. -/
def rmwRead (op : RmwOp) (c : Cpu) : Cpu := { c with readIntent := false, nextMicroOp := .rmwModify op }

/-- `RmwModify{op}` (R166). -/
def rmwModify (op : RmwOp) (c : Cpu) : Cpu :=
  { c with
    dataBus := (rmwExec op c.dataBus c.regs).1
    regs := (rmwExec op c.dataBus c.regs).2
    readIntent := false
    nextMicroOp := .storeDone }

/-! Zero page (R167 to R169). -/

/-- `R(X) = x`, `R(Y) = y` (R184). -/
def Regs.index (r : Regs) : IndexReg → Byte
  | .x => r.x
  | .y => r.y

/-- `ZpAddr{op}` (R167). -/
def zpAddr (op : MemOp) (c : Cpu) : Cpu := eaReady op (zext16 c.dataBus) c.incPc

/-- `ZpIdxBase{op, idx}` (R168). -/
def zpIdxBase (op : MemOp) (idx : IndexReg) (c : Cpu) : Cpu :=
  (c.incPc.rd (zext16 c.dataBus)).goto (.zpIdxAdd op idx)

/-- `ZpIdxAdd{op, idx}` (R169): the sum is modulo 256. -/
def zpIdxAdd (op : MemOp) (idx : IndexReg) (c : Cpu) : Cpu :=
  eaReady op (zext16 (loByte c.addrBus + c.regs.index idx)) c

/-! Absolute and absolute indexed (R170 to R173). -/

/-- `index_hi(op, i, lo, hi)` (R172): only a read-kind operation whose index does not cross a page takes the read
at the un-fixed address as its operand read. -/
def indexHi (op : MemOp) (i lo hi : Byte) (c : Cpu) : Cpu :=
  let u := c.rd (cat hi (lo + i))
  match op, carriesOut lo i with
  | .read r, false => u.goto (.execRead r)
  | _, crossed => u.goto (.idxFix op crossed)

/-- `AbsLo{op, idx}` (R170). -/
def absLo (op : MemOp) (idx : Option IndexReg) (c : Cpu) : Cpu := c.incPc.rdPc.goto (.absHi op idx)

/-- `AbsHi{op, idx}` (R171). -/
def absHi (op : MemOp) (idx : Option IndexReg) (c : Cpu) : Cpu :=
  match idx with
  | none => eaReady op (cat c.dataBus c.pd) c.incPc
  | some i => indexHi op (c.regs.index i) c.pd c.dataBus c.incPc

/-- `IdxFix{op, crossed}` (R173). -/
def idxFix (op : MemOp) (crossed : Bool) (c : Cpu) : Cpu :=
  eaReady op (c.addrBus + (if crossed then 0x0100#16 else 0x0000#16)) c

/-! (Indirect,X) (R174 to R177). -/

/-- `IzxPtr{op}` (R174). -/
def izxPtr (op : MemOp) (c : Cpu) : Cpu := (c.incPc.rd (zext16 c.dataBus)).goto (.izxAdd op)

/-- `IzxAdd{op}` (R175). -/
def izxAdd (op : MemOp) (c : Cpu) : Cpu := (c.rd (zext16 (loByte c.addrBus + c.regs.x))).goto (.izxLo op)

/-- `IzxLo{op}` (R176). -/
def izxLo (op : MemOp) (c : Cpu) : Cpu := (c.rd (zext16 (loByte c.addrBus + 1#8))).goto (.izxHi op)

/-- `IzxHi{op}` (R177). -/
def izxHi (op : MemOp) (c : Cpu) : Cpu := eaReady op (cat c.dataBus c.pd) c

/-! (Indirect),Y (R178 to R180). -/

/-- `IzyPtr{op}` (R178). -/
def izyPtr (op : MemOp) (c : Cpu) : Cpu := (c.incPc.rd (zext16 c.dataBus)).goto (.izyLo op)

/-- `IzyLo{op}` (R179). -/
def izyLo (op : MemOp) (c : Cpu) : Cpu := (c.rd (zext16 (loByte c.addrBus + 1#8))).goto (.izyHi op)

/-- `IzyHi{op}` (R180). -/
def izyHi (op : MemOp) (c : Cpu) : Cpu := indexHi op c.regs.y c.pd c.dataBus c

/-! The first micro-op of each mode (40_sequencer.md R136). -/

/-- The chain of an operation in a data mode. -/
def firstMem (op : MemOp) : DataMode → MicroOp
  | .zp => .zpAddr op
  | .zpX => .zpIdxBase op .x
  | .zpY => .zpIdxBase op .y
  | .abs => .absLo op none
  | .absX => .absLo op (some .x)
  | .absY => .absLo op (some .y)
  | .indX => .izxPtr op
  | .indY => .izyPtr op

/-- The chain of a read-kind operation. -/
def firstRead (op : ReadOp) : ReadMode → MicroOp
  | .imm => .imm op
  | .mem m => firstMem (.read op) m

/-- The chain of a shift or rotate: the accumulator form has the implied shape (R139). -/
def firstShift (acc : ImpliedOp) (op : RmwOp) : ShiftMode → MicroOp
  | .acc => .implied acc
  | .mem m => firstMem (.rmw op) m

/-! Closed forms, over the memory and registers an instruction starts from. -/

/-- Operand byte `b1`, at `pc + 1` (30_encoding.md R90). -/
def State.operand1 (s : State) : Byte := Memory.read s.mem (s.cpu.regs.pc + 1#16)

/-- Operand byte `b2`, at `pc + 2` (R90). -/
def State.operand2 (s : State) : Byte := Memory.read s.mem (s.cpu.regs.pc + 2#16)

/-- The 16-bit value whose bytes lie at `z` and `z +8 1` in page 0 (R176, R179). -/
def State.zeroPagePointer (s : State) (z : Byte) : Addr :=
  cat (Memory.read s.mem (zext16 (z + 1#8))) (Memory.read s.mem (zext16 z))

/-- The un-indexed base of a mode (R161): what an index is added to in 16 bits. -/
def State.baseAddress (s : State) : DataMode → Addr
  | .zp | .zpX | .zpY => zext16 s.operand1
  | .abs | .absX | .absY => cat s.operand2 s.operand1
  | .indX => s.zeroPagePointer (s.operand1 + s.cpu.regs.x)
  | .indY => s.zeroPagePointer s.operand1

/-- The effective address of each mode (R181). -/
def State.effectiveAddress (s : State) : DataMode → Addr
  | .zp => zext16 s.operand1
  | .zpX => zext16 (s.operand1 + s.cpu.regs.x)
  | .zpY => zext16 (s.operand1 + s.cpu.regs.y)
  | .abs => cat s.operand2 s.operand1
  | .absX => cat s.operand2 s.operand1 + zext16 s.cpu.regs.x
  | .absY => cat s.operand2 s.operand1 + zext16 s.cpu.regs.y
  | .indX => s.zeroPagePointer (s.operand1 + s.cpu.regs.x)
  | .indY => s.zeroPagePointer s.operand1 + zext16 s.cpu.regs.y

/-- The operand byte `M[EA]`, or `b1` itself in immediate mode (R181; 30_encoding.md R93). -/
def State.operandByte (s : State) : ReadMode → Byte
  | .imm => s.operand1
  | .mem m => Memory.read s.mem (s.effectiveAddress m)

/-- Whether the access crosses a page (R161); only the absolute indexed and (indirect),Y modes can. -/
def State.crosses (s : State) : DataMode → Bool
  | .absX => pageCrossed (s.baseAddress .absX) s.cpu.regs.x
  | .absY => pageCrossed (s.baseAddress .absY) s.cpu.regs.y
  | .indY => pageCrossed (s.baseAddress .indY) s.cpu.regs.y
  | .zp | .zpX | .zpY | .abs | .indX => false

/-! Cycle counts per mode and kind (R183). -/

/-- One cycle more if the page is crossed. -/
def State.crossPenalty (s : State) (m : DataMode) : Nat := if s.crosses m then 1 else 0

/-- Kind R (R183, column R). -/
def State.readCycles (s : State) : ReadMode → Nat
  | .imm => 2
  | .mem .zp => 3
  | .mem .zpX | .mem .zpY => 4
  | .mem .abs => 4
  | .mem .absX => 4 + s.crossPenalty .absX
  | .mem .absY => 4 + s.crossPenalty .absY
  | .mem .indX => 6
  | .mem .indY => 5 + s.crossPenalty .indY

/-- Kind W (R183, column W). -/
def writeCycles : DataMode → Nat
  | .zp => 3
  | .zpX | .zpY => 4
  | .abs => 4
  | .absX | .absY => 5
  | .indX | .indY => 6

/-- Kind M (R183, column M). -/
def rmwCycles : DataMode → Nat
  | .zp => 5
  | .zpX | .zpY => 6
  | .abs => 6
  | .absX | .absY => 7
  | .indX | .indY => 8

end Sys2Proof.Machine
end

