-- ==== Sys2Proof/Machine/Control.lean ====
section
/-! DEFINITION. The micro-ops of branches, JMP, JSR, RTS (45_control_flow.md) and of the stack instructions
(46_stack_flag_nop.md). Those of BRK and RTI stand in Machine/Ops.lean. -/

namespace Sys2Proof.Machine

/-! Branches (R311 to R313). -/

/-- `Branch{op}` (R311). -/
def branch (op : BranchOp) (c : Cpu) : Cpu :=
  if c.regs.taken op then c.incPc.rdPc.goto .branchTaken else c.incPc.finish

/-- The branch target `pc +16 sext16(offset)` (R312). -/
def branchTarget (pcNext : Addr) (offset : Byte) : Addr := pcNext + sext16 offset

/-- `BranchTaken` (R312), after the read at `pc_next` in cycle 3: the page crossing is between `pc_next` and the target
(92 D17). The read at the un-fixed target is cycle 4, as R311 to R313 and vector D3 have it, where the example of R318
says cycle 3. DEDUCED, unsafe: log 17. -/
def branchTaken (c : Cpu) : Cpu :=
  let t := branchTarget c.regs.pc c.pd
  if hiByte t = hiByte c.regs.pc then (c.setPc t).finish
  else ((c.rd (cat (hiByte c.regs.pc) (loByte t))).setPc t).goto .branchFix

/-- `BranchFix` (R313). -/
def branchFix (c : Cpu) : Cpu := c.finish

/-! JMP (R322 to R328). -/

/-- `JmpLo` (R322). -/
def jmpLo (c : Cpu) : Cpu := c.incPc.rdPc.goto .jmpHi

/-- `JmpHi` (R323). -/
def jmpHi (c : Cpu) : Cpu := c.loadPc.finish

/-- `JmpIndLo` (R325). -/
def jmpIndLo (c : Cpu) : Cpu := c.incPc.rdPc.goto .jmpIndHi

/-- `JmpIndHi` (R326). -/
def jmpIndHi (c : Cpu) : Cpu := (c.incPc.rd (cat c.dataBus c.pd)).goto .jmpIndTgtLo

/-- The address of an indirect target's high byte: no carry into the pointer's high byte (R327, 20_memory.md R70). -/
def pointerNext (ptr : Addr) : Addr := cat (hiByte ptr) (loByte ptr + 1#8)

/-- `JmpIndTgtLo` (R327). -/
def jmpIndTgtLo (c : Cpu) : Cpu := (c.rd (pointerNext c.addrBus)).goto .jmpIndTgtHi

/-- `JmpIndTgtHi` (R328). -/
def jmpIndTgtHi (c : Cpu) : Cpu := c.loadPc.finish

/-! JSR (R330 to R334). -/

/-- `JsrLo` (R330). -/
def jsrLo (c : Cpu) : Cpu := ({ c with jsrLo := c.dataBus }).incPc.rdStack.goto .jsrStack

/-- `JsrStack` (R331). -/
def jsrStack (c : Cpu) : Cpu := (c.wrStack (hiByte c.regs.pc)).goto .jsrPushHi

/-- `JsrPushHi` (R332). -/
def jsrPushHi (c : Cpu) : Cpu := (c.decSp.wrStack (loByte c.regs.pc)).goto .jsrPushLo

/-- `JsrPushLo` (R333). -/
def jsrPushLo (c : Cpu) : Cpu := c.decSp.rdPc.goto .jsrHi

/-- `JsrHi` (R334). -/
def jsrHi (c : Cpu) : Cpu := (c.setPc (cat c.dataBus c.jsrLo)).finish

/-! RTS (R336 to R340). -/

/-- `RtsDummy` (R336). -/
def rtsDummy (c : Cpu) : Cpu := c.rdStack.goto .rtsStack

/-- `RtsStack` (R337). -/
def rtsStack (c : Cpu) : Cpu := c.incSp.rdStack.goto .rtsPullLo

/-- `RtsPullLo` (R338). -/
def rtsPullLo (c : Cpu) : Cpu := c.incSp.rdStack.goto .rtsPullHi

/-- `RtsPullHi` (R339). -/
def rtsPullHi (c : Cpu) : Cpu := c.loadPc.rdPc.goto .rtsInc

/-- `RtsInc` (R340). -/
def rtsInc (c : Cpu) : Cpu := c.incPc.finish

/-! Push and pull (46_stack_flag_nop.md R360 to R364). -/

/-- What PHA and PHP push (R360). -/
def pushValue : PushOp → Regs → Byte
  | .pha, r => r.a
  | .php, r => r.pushedP

/-- What PLA and PLP do with the pulled byte (R364). -/
def pullExec : PullOp → Byte → Regs → Regs
  | .pla, v, r => r.loadA v
  | .plp, v, r => r.pullP v

/-- `PushDummy{op}` (R360). -/
def pushDummy (op : PushOp) (c : Cpu) : Cpu := (c.wrStack (pushValue op c.regs)).goto .pushDone

/-- `PushDone` (R361). -/
def pushDone (c : Cpu) : Cpu := c.decSp.finish

/-- `PullDummy{op}` (R362). -/
def pullDummy (op : PullOp) (c : Cpu) : Cpu := c.rdStack.goto (.pullStack op)

/-- `PullStack{op}` (R363). -/
def pullStack (op : PullOp) (c : Cpu) : Cpu := c.incSp.rdStack.goto (.pullDone op)

/-- `PullDone{op}` (R364). -/
def pullDone (op : PullOp) (c : Cpu) : Cpu := (c.onRegs (pullExec op c.dataBus)).finish

end Sys2Proof.Machine
end

