-- ==== Sys2Proof/Machine/Sequencer.lean ====
section
/-! DEFINITION. The micro-op sequencer (40_sequencer.md): decode and dispatch, `pulse`, and the run of pulses to the
next instruction boundary. Everything down to `runOn` is over ANY memory agent (20_memory.md R64); below it the
plain RAM of `State` is plugged in. -/

namespace Sys2Proof.Machine

/-! Decode and dispatch (R135, R136). -/

/-- `first(mn, mode)` (R136); an unimplemented opcode goes to `Unimplemented{ir}` (R137). -/
def firstMicroOp (i : Instr) (ir : Byte) : MicroOp :=
  match i with
  | .lda m => firstRead .lda m
  | .ldx m => firstRead .ldx m
  | .ldy m => firstRead .ldy m
  | .sta m => firstMem (.write .sta) m
  | .stx m => firstMem (.write .stx) m
  | .sty m => firstMem (.write .sty) m
  | .tax => .implied .tax
  | .tay => .implied .tay
  | .txa => .implied .txa
  | .tya => .implied .tya
  | .tsx => .implied .tsx
  | .txs => .implied .txs
  | .ora m => firstRead .ora m
  | .and m => firstRead .and m
  | .eor m => firstRead .eor m
  | .adc m => firstRead .adc m
  | .sbc m => firstRead .sbc m
  | .cmp m => firstRead .cmp m
  | .cpx m => firstRead .cpx m
  | .cpy m => firstRead .cpy m
  | .bit m => firstMem (.read .bit) m
  | .inc m => firstMem (.rmw .inc) m
  | .dec m => firstMem (.rmw .dec) m
  | .inx => .implied .inx
  | .iny => .implied .iny
  | .dex => .implied .dex
  | .dey => .implied .dey
  | .asl m => firstShift .asl .asl m
  | .lsr m => firstShift .lsr .lsr m
  | .rol m => firstShift .rol .rol m
  | .ror m => firstShift .ror .ror m
  | .bpl => .branch .bpl
  | .bmi => .branch .bmi
  | .bvc => .branch .bvc
  | .bvs => .branch .bvs
  | .bcc => .branch .bcc
  | .bcs => .branch .bcs
  | .bne => .branch .bne
  | .beq => .branch .beq
  | .jmpAbs => .jmpLo
  | .jmpInd => .jmpIndLo
  | .jsr => .jsrLo
  | .rts => .rtsDummy
  | .brk => .brkSig
  | .rti => .rtiDummy
  | .pha => .pushDummy .pha
  | .php => .pushDummy .php
  | .pla => .pullDummy .pla
  | .plp => .pullDummy .plp
  | .clc => .implied .clc
  | .sec => .implied .sec
  | .cli => .implied .cli
  | .sei => .implied .sei
  | .clv => .implied .clv
  | .cld => .implied .cld
  | .sed => .implied .sed
  | .nop => .implied .nop
  | .lax m => firstMem (.read .lax) m
  | .sax m => firstMem (.write .sax) m
  | .slo m => firstMem (.rmw .slo) m
  | .rla m => firstMem (.rmw .rla) m
  | .sre m => firstMem (.rmw .sre) m
  | .rra m => firstMem (.rmw .rra) m
  | .dcp m => firstMem (.rmw .dcp) m
  | .isb m => firstMem (.rmw .isb) m
  | .nopImplied _ => .implied .nop
  | .nopImm _ => .imm .nop
  | .nopZp _ => firstMem (.read .nop) .zp
  | .nopZpX _ => firstMem (.read .nop) .zpX
  | .nopAbs => firstMem (.read .nop) .abs
  | .nopAbsX _ => firstMem (.read .nop) .absX
  | .sbcDup => .imm .sbc
  | .jam _ | .anc _ | .alr | .arr | .xaa | .lxa | .axs | .sha _ | .tas | .shy | .shx | .las => .unimplemented ir

/-- Where `FetchOpcode` goes with the opcode `ir` decoded as `i`, given `UNDOC_SUPPORT` (R135). -/
def dispatchTo (undocSupport : Bool) (i : Instr) (ir : Byte) : MicroOp :=
  match i.opClass with
  | .documented => firstMicroOp i ir
  | .undocumented => if undocSupport then firstMicroOp i ir else .unimplemented ir
  | .unimplemented => .unimplemented ir

/-- `FetchOpcode` (R135) with the dispatch given as a function of the opcode byte. -/
def fetchInto (select : Byte → MicroOp) (c : Cpu) : Cpu :=
  ({ c with ir := c.dataBus }).incPc.rdPc.goto (select c.dataBus)

/-- `FetchOpcode` (R135). -/
def fetchOpcode (params : Params) (c : Cpu) : Cpu :=
  fetchInto (fun ir => dispatchTo params.undocSupport (decodeOpcode ir) ir) c

/-- `Implied{op}` (R139). -/
def implied (op : ImpliedOp) (c : Cpu) : Cpu := (c.onRegs (impliedExec op)).finish

/-- `Imm{op}` (R140). -/
def imm (op : ReadOp) (c : Cpu) : Cpu := (c.incPc.onRegs (readExec op c.dataBus)).finish

/-- `exec(m)` (R132), the single dispatch function of R147. `Unimplemented` is never run: the pulse faults first
(R138). -/
def runMicroOp (params : Params) (m : MicroOp) (c : Cpu) : Cpu :=
  match m with
  | .fetchOpcode => fetchOpcode params c
  | .implied op => implied op c
  | .imm op => imm op c
  | .zpAddr op => zpAddr op c
  | .zpIdxBase op idx => zpIdxBase op idx c
  | .zpIdxAdd op idx => zpIdxAdd op idx c
  | .absLo op idx => absLo op idx c
  | .absHi op idx => absHi op idx c
  | .idxFix op crossed => idxFix op crossed c
  | .izxPtr op => izxPtr op c
  | .izxAdd op => izxAdd op c
  | .izxLo op => izxLo op c
  | .izxHi op => izxHi op c
  | .izyPtr op => izyPtr op c
  | .izyLo op => izyLo op c
  | .izyHi op => izyHi op c
  | .execRead op => execRead op c
  | .storeDone => storeDone c
  | .rmwRead op => rmwRead op c
  | .rmwModify op => rmwModify op c
  | .branch op => branch op c
  | .branchTaken => branchTaken c
  | .branchFix => branchFix c
  | .jmpLo => jmpLo c
  | .jmpHi => jmpHi c
  | .jmpIndLo => jmpIndLo c
  | .jmpIndHi => jmpIndHi c
  | .jmpIndTgtLo => jmpIndTgtLo c
  | .jmpIndTgtHi => jmpIndTgtHi c
  | .jsrLo => jsrLo c
  | .jsrStack => jsrStack c
  | .jsrPushHi => jsrPushHi c
  | .jsrPushLo => jsrPushLo c
  | .jsrHi => jsrHi c
  | .rtsDummy => rtsDummy c
  | .rtsStack => rtsStack c
  | .rtsPullLo => rtsPullLo c
  | .rtsPullHi => rtsPullHi c
  | .rtsInc => rtsInc c
  | .rtiDummy => rtiDummy c
  | .rtiStack => rtiStack c
  | .rtiPullP => rtiPullP c
  | .rtiPullLo => rtiPullLo c
  | .rtiPullHi => rtiPullHi c
  | .brkSig => brkSig c
  | .brkPushHi => brkPushHi c
  | .brkPushLo => brkPushLo c
  | .brkPushP => brkPushP c
  | .brkVecLo => brkVecLo c
  | .brkVecHi => brkVecHi c
  | .pushDummy op => pushDummy op c
  | .pushDone => pushDone c
  | .pullDummy op => pullDummy op c
  | .pullStack op => pullStack op c
  | .pullDone op => pullDone op c
  | .unimplemented _ => c

/-! The bus cycle (R130). -/

/-- The counters and the `pd` latch, before the transaction (R130; 90_conflicts.md C1). -/
def Cpu.tick (c : Cpu) : Cpu := { c with tcu := c.tcu + 1#8, cyc := c.cyc + 1#64, pd := c.dataBus }

/-- The one transaction of a pulse (R130, R141): a read replaces `data_bus`, a write leaves it (R144). -/
def transact {σ : Type} (M : MemAgent σ) (c : Cpu) (m : σ) : Cpu × σ :=
  if c.readIntent then ({ c with dataBus := (M.read m c.addrBus).1 }, (M.read m c.addrBus).2)
  else (c, M.write m c.addrBus c.dataBus)

/-- One bus cycle that ends in the micro-op `f`. -/
def busCycle {σ : Type} (M : MemAgent σ) (f : Cpu → Cpu) (c : Cpu) (m : σ) : Cpu × σ :=
  let r := transact M c.tick m
  (f r.1, r.2)

/-- `pulse` (R130) over any memory agent; a faulting pulse performs no transaction (R138). -/
def pulseOn {σ : Type} (M : MemAgent σ) (params : Params) (r : Cpu × σ) : Host.Outcome (Cpu × σ) Fault Refusal :=
  match r.1.nextMicroOp with
  | .unimplemented op => .fault (.unimplementedOpcode op)
  | m => .next (busCycle M (runMicroOp params m) r.1 r.2)

/-- The continuation is `FetchOpcode`, which only `finish` and reset leave (R133): the mark of a boundary. In a state
reached from reset it says the same as `tcu = 0` (R134; log 2). -/
def Cpu.atFetch (c : Cpu) : Bool := c.nextMicroOp == .fetchOpcode

/-- At most `n` pulses, stopping at the first instruction boundary. -/
def runOn {σ : Type} (M : MemAgent σ) (params : Params) : Nat → Cpu × σ → Host.Outcome (Cpu × σ) Fault Refusal
  | 0, r => .next r
  | n + 1, r =>
    if r.1.atFetch then .next r
    else
      match pulseOn M params r with
      | .next r' => runOn M params n r'
      | .fault f => .fault f
      | .refused f => .refused f

/-- One instruction: its opcode fetch with the dispatch given, then the rest of its chain (R131, R133). -/
def instrOn {σ : Type} (M : MemAgent σ) (params : Params) (select : Byte → MicroOp) (r : Cpu × σ) :
    Host.Outcome (Cpu × σ) Fault Refusal :=
  runOn M params (Config.maxPulses - 1) (busCycle M (fetchInto select) r.1 r.2)

/-! The machine with its plain RAM. -/

/-- Put the core and the memory back into the state. -/
def State.lift (s : State) : Host.Outcome (Cpu × Memory) Fault Refusal → Host.Outcome State Fault Refusal
  | .next r => .next { s with cpu := r.1, mem := r.2 }
  | .fault f => .fault f
  | .refused f => .refused f

/-- `pulse` (R130): one bus cycle of the machine. -/
def State.pulse (s : State) : Host.Outcome State Fault Refusal :=
  s.lift (pulseOn ramAgent s.params (s.cpu, s.mem))

/-- Pulses until the next boundary: the rest of the instruction the machine is in. -/
def State.finishInstr (s : State) : Host.Outcome State Fault Refusal :=
  s.lift (runOn ramAgent s.params Config.maxPulses (s.cpu, s.mem))

/-- One instruction whose opcode is dispatched to `select`. -/
def State.runInstr (s : State) (select : Byte → MicroOp) : Host.Outcome State Fault Refusal :=
  s.lift (instrOn ramAgent s.params select (s.cpu, s.mem))

/-- A documented instruction always executes (30_encoding.md R103). -/
def State.runDocumented (s : State) (m : MicroOp) : Host.Outcome State Fault Refusal := s.runInstr fun _ => m

/-- An undocumented instruction executes under `UNDOC_SUPPORT` and is otherwise treated as unimplemented (R105). -/
def State.runUndocumented (s : State) (m : MicroOp) : Host.Outcome State Fault Refusal :=
  s.runInstr fun ir => if s.params.undocSupport then m else .unimplemented ir

/-- An unimplemented opcode: cycle 1, then the fault (47_undocumented.md R391). -/
def State.runUnimplemented (s : State) : Host.Outcome State Fault Refusal := s.runInstr .unimplemented

/-- The byte the next transaction leaves on the data bus; at a boundary, the opcode at `pc`. -/
def State.fetchByte (s : State) : Byte :=
  if s.cpu.readIntent then Memory.read s.mem s.cpu.addrBus else s.cpu.dataBus

/-- An instruction boundary (10_state.md R46): all four facts hold. -/
def State.atBoundary (s : State) : Bool :=
  s.cpu.tcu == 0#8 && s.cpu.atFetch && s.cpu.readIntent && s.cpu.addrBus == s.cpu.regs.pc

end Sys2Proof.Machine
end

