-- ==== Sys2Proof/Machine/Arith.lean ====
section
/-! DEFINITION. The meanings of the logic, arithmetic, compare, bit test, increment and shift instructions
(44_arith_logic_shift.md).

A meaning runs its instruction's micro-op chain from the opcode fetch to the next boundary, one bus cycle per
micro-op (40_sequencer.md R132 to R136). -/

namespace Sys2Proof.Machine

/-! Logic. -/

/-- ORA (R270): `a <- a OR M[EA]; update_nz(a)`. -/
def execOra (m : ReadMode) (s : State) : Host.Outcome State Fault Refusal := s.runDocumented (firstRead .ora m)

/-- AND (R271): `a <- a AND M[EA]; update_nz(a)`. -/
def execAnd (m : ReadMode) (s : State) : Host.Outcome State Fault Refusal := s.runDocumented (firstRead .and m)

/-- EOR (R272): `a <- a XOR M[EA]; update_nz(a)`. -/
def execEor (m : ReadMode) (s : State) : Host.Outcome State Fault Refusal := s.runDocumented (firstRead .eor m)

/-! Add, subtract, compare, bit test. -/

/-- ADC (R273): `adc(M[EA])`. -/
def execAdc (m : ReadMode) (s : State) : Host.Outcome State Fault Refusal := s.runDocumented (firstRead .adc m)

/-- SBC (R274): `sbc(M[EA])`. -/
def execSbc (m : ReadMode) (s : State) : Host.Outcome State Fault Refusal := s.runDocumented (firstRead .sbc m)

/-- CMP (R275): `compare(a, M[EA])`. -/
def execCmp (m : ReadMode) (s : State) : Host.Outcome State Fault Refusal := s.runDocumented (firstRead .cmp m)

/-- CPX (R276): `compare(x, M[EA])`. -/
def execCpx (m : ReadMode) (s : State) : Host.Outcome State Fault Refusal := s.runDocumented (firstRead .cpx m)

/-- CPY (R277): `compare(y, M[EA])`. -/
def execCpy (m : ReadMode) (s : State) : Host.Outcome State Fault Refusal := s.runDocumented (firstRead .cpy m)

/-- BIT (R278): `bit_test(M[EA])`. -/
def execBit (m : DataMode) (s : State) : Host.Outcome State Fault Refusal := s.runDocumented (firstMem (.read .bit) m)

/-! Increment and decrement. -/

/-- INC (R279): `r <- inc8(M[EA]); update_nz(r)`, written back after the unmodified byte. -/
def execInc (m : DataMode) (s : State) : Host.Outcome State Fault Refusal := s.runDocumented (firstMem (.rmw .inc) m)

/-- DEC (R280): `r <- dec8(M[EA]); update_nz(r)`, written back after the unmodified byte. -/
def execDec (m : DataMode) (s : State) : Host.Outcome State Fault Refusal := s.runDocumented (firstMem (.rmw .dec) m)

/-- INX (R281): `x <- inc8(x); update_nz(x)`. -/
def execInx (s : State) : Host.Outcome State Fault Refusal := s.runDocumented (.implied .inx)

/-- INY (R282): `y <- inc8(y); update_nz(y)`. -/
def execIny (s : State) : Host.Outcome State Fault Refusal := s.runDocumented (.implied .iny)

/-- DEX (R283): `x <- dec8(x); update_nz(x)`. -/
def execDex (s : State) : Host.Outcome State Fault Refusal := s.runDocumented (.implied .dex)

/-- DEY (R284): `y <- dec8(y); update_nz(y)`. -/
def execDey (s : State) : Host.Outcome State Fault Refusal := s.runDocumented (.implied .dey)

/-! Shifts and rotates, of the accumulator or of memory. -/

/-- ASL (R285): C = old bit 7, bit 0 = 0. -/
def execAsl (m : ShiftMode) (s : State) : Host.Outcome State Fault Refusal := s.runDocumented (firstShift .asl .asl m)

/-- LSR (R286): C = old bit 0, bit 7 = 0. -/
def execLsr (m : ShiftMode) (s : State) : Host.Outcome State Fault Refusal := s.runDocumented (firstShift .lsr .lsr m)

/-- ROL (R287): bit 0 = old C, C = old bit 7. -/
def execRol (m : ShiftMode) (s : State) : Host.Outcome State Fault Refusal := s.runDocumented (firstShift .rol .rol m)

/-- ROR (R288): bit 7 = old C, C = old bit 0. -/
def execRor (m : ShiftMode) (s : State) : Host.Outcome State Fault Refusal := s.runDocumented (firstShift .ror .ror m)

end Sys2Proof.Machine
end

