-- ==== Sys2Proof/Machine/Flow.lean ====
section
/-! DEFINITION. The meanings of the branches, jumps, subroutine calls, BRK and RTI (45_control_flow.md).

A meaning runs its instruction's micro-op chain from the opcode fetch to the next boundary, one bus cycle per
micro-op (40_sequencer.md R132 to R136). -/

namespace Sys2Proof.Machine

/-! Branches (R309). -/

/-- BPL (R314): taken when N = 0. -/
def execBpl (s : State) : Host.Outcome State Fault Refusal := s.runDocumented (.branch .bpl)

/-- BMI (R315): taken when N = 1. -/
def execBmi (s : State) : Host.Outcome State Fault Refusal := s.runDocumented (.branch .bmi)

/-- BVC (R316): taken when V = 0. -/
def execBvc (s : State) : Host.Outcome State Fault Refusal := s.runDocumented (.branch .bvc)

/-- BVS (R317): taken when V = 1. -/
def execBvs (s : State) : Host.Outcome State Fault Refusal := s.runDocumented (.branch .bvs)

/-- BCC (R318): taken when C = 0. -/
def execBcc (s : State) : Host.Outcome State Fault Refusal := s.runDocumented (.branch .bcc)

/-- BCS (R319): taken when C = 1. -/
def execBcs (s : State) : Host.Outcome State Fault Refusal := s.runDocumented (.branch .bcs)

/-- BNE (R320): taken when Z = 0. -/
def execBne (s : State) : Host.Outcome State Fault Refusal := s.runDocumented (.branch .bne)

/-- BEQ (R321): taken when Z = 1. -/
def execBeq (s : State) : Host.Outcome State Fault Refusal := s.runDocumented (.branch .beq)

/-! Jumps and subroutines. -/

/-- JMP absolute (R324): `pc <- cat(b2, b1)`. -/
def execJmpAbs (s : State) : Host.Outcome State Fault Refusal := s.runDocumented .jmpLo

/-- JMP indirect (R329): `pc <- cat(M[cat(b2, b1 +8 1)], M[cat(b2, b1)])`. -/
def execJmpInd (s : State) : Host.Outcome State Fault Refusal := s.runDocumented .jmpIndLo

/-- JSR (R335): pushes `P + 2`, high byte first, and jumps; `b2` is read after the pushes. -/
def execJsr (s : State) : Host.Outcome State Fault Refusal := s.runDocumented .jsrLo

/-- RTS (R341): pulls the address, low byte first, and adds 1. -/
def execRts (s : State) : Host.Outcome State Fault Refusal := s.runDocumented .rtsDummy

/-! The trap and its return: the chains of Machine/Ops.lean. -/

/-- BRK (R348, 60_exceptions.md R416): the trap entry, taken whatever I is. -/
def execBrk (s : State) : Host.Outcome State Fault Refusal := s.runDocumented .brkSig

/-- RTI (R354, R418): the trap return. -/
def execRti (s : State) : Host.Outcome State Fault Refusal := s.runDocumented .rtiDummy

end Sys2Proof.Machine
end

