-- ==== Sys2Proof/Machine/LoadStore.lean ====
section
/-! DEFINITION. The meanings of the load, store and transfer instructions (43_load_store_transfer.md).

A meaning runs its instruction's micro-op chain from the opcode fetch to the next boundary, one bus cycle per
micro-op (40_sequencer.md R132 to R136). -/

namespace Sys2Proof.Machine

/-! Loads. -/

/-- LDA (R240): `a <- M[EA]; update_nz(a)`. -/
def execLda (m : ReadMode) (s : State) : Host.Outcome State Fault Refusal := s.runDocumented (firstRead .lda m)

/-- LDX (R241): `x <- M[EA]; update_nz(x)`. -/
def execLdx (m : ReadMode) (s : State) : Host.Outcome State Fault Refusal := s.runDocumented (firstRead .ldx m)

/-- LDY (R242): `y <- M[EA]; update_nz(y)`. -/
def execLdy (m : ReadMode) (s : State) : Host.Outcome State Fault Refusal := s.runDocumented (firstRead .ldy m)

/-! Stores. -/

/-- STA (R243): `MemWrite(EA, 1, a)`. -/
def execSta (m : DataMode) (s : State) : Host.Outcome State Fault Refusal :=
  s.runDocumented (firstMem (.write .sta) m)

/-- STX (R244): `MemWrite(EA, 1, x)`. -/
def execStx (m : DataMode) (s : State) : Host.Outcome State Fault Refusal :=
  s.runDocumented (firstMem (.write .stx) m)

/-- STY (R245): `MemWrite(EA, 1, y)`. -/
def execSty (m : DataMode) (s : State) : Host.Outcome State Fault Refusal :=
  s.runDocumented (firstMem (.write .sty) m)

/-! Transfers. -/

/-- TAX (R246): `x <- a; update_nz(x)`. -/
def execTax (s : State) : Host.Outcome State Fault Refusal := s.runDocumented (.implied .tax)

/-- TAY (R247): `y <- a; update_nz(y)`. -/
def execTay (s : State) : Host.Outcome State Fault Refusal := s.runDocumented (.implied .tay)

/-- TXA (R248): `a <- x; update_nz(a)`. -/
def execTxa (s : State) : Host.Outcome State Fault Refusal := s.runDocumented (.implied .txa)

/-- TYA (R249): `a <- y; update_nz(a)`. -/
def execTya (s : State) : Host.Outcome State Fault Refusal := s.runDocumented (.implied .tya)

/-- TSX (R250): `x <- sp; update_nz(x)`. -/
def execTsx (s : State) : Host.Outcome State Fault Refusal := s.runDocumented (.implied .tsx)

/-- TXS (R251): `sp <- x`; the one transfer that writes no flag. -/
def execTxs (s : State) : Host.Outcome State Fault Refusal := s.runDocumented (.implied .txs)

end Sys2Proof.Machine
end

