-- ==== Sys2Proof/Machine/StackFlag.lean ====
section
/-! DEFINITION. The meanings of the stack, flag and no-operation instructions (46_stack_flag_nop.md).

A meaning runs its instruction's micro-op chain from the opcode fetch to the next boundary, one bus cycle per
micro-op (40_sequencer.md R132 to R136). -/

namespace Sys2Proof.Machine

/-! Push and pull. -/

/-- PHA (R365): `MemWrite(stack(sp), 1, a); sp <- sp -8 1`. -/
def execPha (s : State) : Host.Outcome State Fault Refusal := s.runDocumented (.pushDummy .pha)

/-- PHP (R366): `MemWrite(stack(sp), 1, p OR 0x30); sp <- sp -8 1`. -/
def execPhp (s : State) : Host.Outcome State Fault Refusal := s.runDocumented (.pushDummy .php)

/-- PLA (R367): `sp <- sp +8 1; a <- M[stack(sp)]; update_nz(a)`. -/
def execPla (s : State) : Host.Outcome State Fault Refusal := s.runDocumented (.pullDummy .pla)

/-- PLP (R368): `sp <- sp +8 1; p <- (M[stack(sp)] AND $CF) OR (p AND $30)`. -/
def execPlp (s : State) : Host.Outcome State Fault Refusal := s.runDocumented (.pullDummy .plp)

/-! Flags. -/

/-- CLC (R369). -/
def execClc (s : State) : Host.Outcome State Fault Refusal := s.runDocumented (.implied .clc)

/-- SEC (R370). -/
def execSec (s : State) : Host.Outcome State Fault Refusal := s.runDocumented (.implied .sec)

/-- CLI (R371). -/
def execCli (s : State) : Host.Outcome State Fault Refusal := s.runDocumented (.implied .cli)

/-- SEI (R372). -/
def execSei (s : State) : Host.Outcome State Fault Refusal := s.runDocumented (.implied .sei)

/-- CLV (R373). -/
def execClv (s : State) : Host.Outcome State Fault Refusal := s.runDocumented (.implied .clv)

/-- CLD (R374). -/
def execCld (s : State) : Host.Outcome State Fault Refusal := s.runDocumented (.implied .cld)

/-- SED (R375). -/
def execSed (s : State) : Host.Outcome State Fault Refusal := s.runDocumented (.implied .sed)

/-! No operation. -/

/-- NOP (R376): the dummy read of cycle 2 and nothing else. -/
def execNop (s : State) : Host.Outcome State Fault Refusal := s.runDocumented (.implied .nop)

end Sys2Proof.Machine
end

