-- ==== Sys2Proof/Machine/Undocumented.lean ====
section
/-! DEFINITION. The meanings of the undocumented opcodes (47_undocumented.md): they execute under `UNDOC_SUPPORT` and are
treated as unimplemented without it (R380, R392).

A meaning runs its instruction's micro-op chain from the opcode fetch to the next boundary, one bus cycle per
micro-op (40_sequencer.md R132 to R136). -/

namespace Sys2Proof.Machine

/-! Combined load and store. -/

/-- LAX (R381): `a <- M[EA]; x <- M[EA]; update_nz(M[EA])`. -/
def execLax (m : DataMode) (s : State) : Host.Outcome State Fault Refusal :=
  s.runUndocumented (firstMem (.read .lax) m)

/-- SAX (R382): `MemWrite(EA, 1, a AND x)`. -/
def execSax (m : DataMode) (s : State) : Host.Outcome State Fault Refusal :=
  s.runUndocumented (firstMem (.write .sax) m)

/-! Combined read-modify-write. -/

/-- SLO (R383): shift left, then OR into `a`. -/
def execSlo (m : DataMode) (s : State) : Host.Outcome State Fault Refusal :=
  s.runUndocumented (firstMem (.rmw .slo) m)

/-- RLA (R384): rotate left, then AND into `a`. -/
def execRla (m : DataMode) (s : State) : Host.Outcome State Fault Refusal :=
  s.runUndocumented (firstMem (.rmw .rla) m)

/-- SRE (R385): shift right, then EOR into `a`. -/
def execSre (m : DataMode) (s : State) : Host.Outcome State Fault Refusal :=
  s.runUndocumented (firstMem (.rmw .sre) m)

/-- RRA (R386): rotate right, then add; the carry-in of the add is the carry-out of the rotate. -/
def execRra (m : DataMode) (s : State) : Host.Outcome State Fault Refusal :=
  s.runUndocumented (firstMem (.rmw .rra) m)

/-- DCP (R387): decrement, then compare with `a`. -/
def execDcp (m : DataMode) (s : State) : Host.Outcome State Fault Refusal :=
  s.runUndocumented (firstMem (.rmw .dcp) m)

/-- ISB (R388): increment, then subtract from `a`. -/
def execIsb (m : DataMode) (s : State) : Host.Outcome State Fault Refusal :=
  s.runUndocumented (firstMem (.rmw .isb) m)

/-! No operations (R389): the bus cycles of the mode, and nothing else. `k` says which opcode byte. -/

/-- NOP implied. -/
def execNopImplied (_k : Fin 6) (s : State) : Host.Outcome State Fault Refusal := s.runUndocumented (.implied .nop)

/-- NOP immediate. -/
def execNopImm (_k : Fin 5) (s : State) : Host.Outcome State Fault Refusal := s.runUndocumented (.imm .nop)

/-- NOP zero page. -/
def execNopZp (_k : Fin 3) (s : State) : Host.Outcome State Fault Refusal :=
  s.runUndocumented (firstMem (.read .nop) .zp)

/-- NOP zero page,X. -/
def execNopZpX (_k : Fin 6) (s : State) : Host.Outcome State Fault Refusal :=
  s.runUndocumented (firstMem (.read .nop) .zpX)

/-- NOP absolute. -/
def execNopAbs (s : State) : Host.Outcome State Fault Refusal := s.runUndocumented (firstMem (.read .nop) .abs)

/-- NOP absolute,X. -/
def execNopAbsX (_k : Fin 6) (s : State) : Host.Outcome State Fault Refusal :=
  s.runUndocumented (firstMem (.read .nop) .absX)

/-! The duplicate of SBC immediate. -/

/-- SBC `$EB` (R390): exactly as `$E9`. -/
def execSbcDup (s : State) : Host.Outcome State Fault Refusal := s.runUndocumented (.imm .sbc)

end Sys2Proof.Machine
end

