-- ==== Sys2Proof/Machine/Unimplemented.lean ====
section
/-! DEFINITION. The 25 unimplemented opcodes (30_encoding.md R104, 47_undocumented.md R391): cycle 1, then the fault
`UnimplementedOpcode(op)` of 60_exceptions.md R411.

A meaning runs its instruction's micro-op chain from the opcode fetch to the next boundary, one bus cycle per
micro-op (40_sequencer.md R132 to R136). -/

namespace Sys2Proof.Machine

/-- JAM, the twelve opcodes that halt the real chip (92 D31). -/
def execJam (_k : Fin 12) (s : State) : Host.Outcome State Fault Refusal := s.runUnimplemented

/-- ANC. -/
def execAnc (_k : Fin 2) (s : State) : Host.Outcome State Fault Refusal := s.runUnimplemented

/-- ALR. -/
def execAlr (s : State) : Host.Outcome State Fault Refusal := s.runUnimplemented

/-- ARR. -/
def execArr (s : State) : Host.Outcome State Fault Refusal := s.runUnimplemented

/-- XAA. -/
def execXaa (s : State) : Host.Outcome State Fault Refusal := s.runUnimplemented

/-- LXA. -/
def execLxa (s : State) : Host.Outcome State Fault Refusal := s.runUnimplemented

/-- AXS. -/
def execAxs (s : State) : Host.Outcome State Fault Refusal := s.runUnimplemented

/-- SHA. -/
def execSha (_m : DataMode) (s : State) : Host.Outcome State Fault Refusal := s.runUnimplemented

/-- TAS. -/
def execTas (s : State) : Host.Outcome State Fault Refusal := s.runUnimplemented

/-- SHY. -/
def execShy (s : State) : Host.Outcome State Fault Refusal := s.runUnimplemented

/-- SHX. -/
def execShx (s : State) : Host.Outcome State Fault Refusal := s.runUnimplemented

/-- LAS. -/
def execLas (s : State) : Host.Outcome State Fault Refusal := s.runUnimplemented

end Sys2Proof.Machine
end

