-- ==== Sys2Proof/Machine/Step.lean ====
section
/-! DEFINITION. One step is one instruction: "the host's loop of pulses until tcu = 0" (60_exceptions.md R424; log 1).
The step of one bus cycle is `State.pulse`. -/

namespace Sys2Proof.Machine

/-- At an opcode fetch, decode the byte the fetch reads and execute the instruction; in the middle of an
instruction, finish it. -/
def step (s : State) : Host.Outcome State Fault Refusal :=
  match s.cpu.nextMicroOp with
  | .fetchOpcode => exec (decodeOpcode s.fetchByte) s
  | _ => s.finishInstr

/-- Store bytes at consecutive addresses, modulo 2^16 (30_encoding.md R90). -/
def storeBytes : Memory → Addr → List Byte → Memory
  | m, _, [] => m
  | m, ad, b :: bs => storeBytes (Memory.write m ad b) (ad + 1#16) bs

/-- The instruction of a table word stored at `pc`, with the core at the boundary that fetches there (log 7). At a
boundary only memory changes. -/
def State.withFetchWord (s : State) (nbits w : Nat) : State :=
  { s with
    cpu := s.cpu.finish
    mem := storeBytes s.mem s.cpu.regs.pc (tableBytes nbits w) }

end Sys2Proof.Machine
end

