-- ==== Sys2Proof/Machine/HostActions.lean ====
section
/-! DEFINITION. What the host may do to the core (40_sequencer.md R145): `reset` (70_reset_and_hazards.md), pulses, pokes;
and the bus transaction it sees at each pulse (00_scope.md R16). -/

namespace Sys2Proof.Machine

/-! Reset (70 R440 to R444). -/

/-- What reset does to `p`: I and bit 5 set, D cleared, the other bits kept (R440, R443). -/
def Regs.resetP (r : Regs) : Regs := ((r.setFlag .i true).setFlag .u true).setFlag .d false

/-- What reset does to the core, given the two vector bytes; every field it does not name is unchanged (R442). -/
def Cpu.resetTo (c : Cpu) (lo hi : Byte) : Cpu :=
  { c with
    regs := { c.regs.resetP with pc := cat hi lo }
    addrBus := cat hi lo
    tcu := 0#8
    readIntent := true
    nextMicroOp := .fetchOpcode }

/-- `reset` (R440) over any memory agent: two reads, low byte first, that are no bus cycles of the core (R441). -/
def resetOn {σ : Type} (M : MemAgent σ) (r : Cpu × σ) : Cpu × σ :=
  let lo := M.read r.2 Config.resetVectorLo
  let hi := M.read lo.2 Config.resetVectorHi
  (r.1.resetTo lo.1 hi.1, hi.2)

/-- `reset` of the machine: in any state, at any time (R444). -/
def State.resetAction (s : State) : State :=
  let r := resetOn ramAgent (s.cpu, s.mem)
  { s with cpu := r.1, mem := r.2 }

/-! Pokes. -/

/-- A value the host writes into a field of the core. -/
inductive Poke where
  | pc (v : Addr)
  | a (v : Byte)
  | x (v : Byte)
  | y (v : Byte)
  | sp (v : Byte)
  | p (v : Byte)
  | cyc (v : Count)
  | ir (v : Byte)
  | pd (v : Byte)
  | addrBus (v : Addr)
  | dataBus (v : Byte)
  | readIntent (v : Bool)
  | tcu (v : Byte)
  | nextMicroOp (v : MicroOp)
  | jsrLo (v : Byte)
  deriving DecidableEq, Repr

/-- The core after an admitted poke; a poke of `pc` also sets `addr_bus` (R145). None for a field the host may not
write. -/
def Cpu.poke (c : Cpu) : Poke → Option Cpu
  | .pc v => some { c.setPc v with addrBus := v }
  | .a v => some { c with regs := { c.regs with a := v } }
  | .x v => some { c with regs := { c.regs with x := v } }
  | .y v => some { c with regs := { c.regs with y := v } }
  | .sp v => some { c with regs := { c.regs with sp := v } }
  | .p v => some { c with regs := { c.regs with p := v } }
  | .cyc v => some { c with cyc := v }
  | .ir _ | .pd _ | .addrBus _ | .dataBus _ | .readIntent _ | .tcu _ | .nextMicroOp _ | .jsrLo _ => none

/-- A poke of the machine: admitted only at an instruction boundary (R145, 92 D6). -/
def State.poke (s : State) (k : Poke) : Host.Outcome State Fault Refusal :=
  match s.cpu.poke k with
  | none => .refused .pokeOfInternalField
  | some c => if s.atBoundary then .next { s with cpu := c } else .refused .pokeOffBoundary

/-- One action of the host (R145, 60_exceptions.md R415): a step is a pulse or a reset, never both. -/
inductive HostAction where
  | pulse
  | reset
  | poke (k : Poke)
  deriving DecidableEq, Repr

/-- The machine after one action of the host. -/
def hostStep (act : HostAction) (s : State) : Host.Outcome State Fault Refusal :=
  match act with
  | .pulse => s.pulse
  | .reset => .next s.resetAction
  | .poke k => s.poke k

/-! The bus trace (00_scope.md R16 (a)). -/

/-- A read or a write (R37). -/
inductive BusKind where
  | read
  | write
  deriving DecidableEq, Repr

/-- One bus transaction: address, kind, byte. -/
structure BusCycle where
  addr : Addr
  kind : BusKind
  byte : Byte
  deriving DecidableEq, Repr

/-- The transaction the next pulse performs, unless it faults (R141). -/
def State.nextTransaction (s : State) : BusCycle :=
  if s.cpu.readIntent then ⟨s.cpu.addrBus, .read, Memory.read s.mem s.cpu.addrBus⟩
  else ⟨s.cpu.addrBus, .write, s.cpu.dataBus⟩

/-- The transactions of at most `n` pulses, in order, up to the next boundary; a faulting pulse performs none. -/
def State.traceFor : Nat → State → List BusCycle
  | 0, _ => []
  | n + 1, s =>
    match s.pulse with
    | .next t => s.nextTransaction :: (if t.cpu.atFetch then [] else State.traceFor n t)
    | .fault _ => []
    | .refused _ => []

/-- The bus trace of the instruction that starts at this boundary, one transaction per pulse (41_addressing.md R182). -/
def State.busTrace (s : State) : List BusCycle := State.traceFor Config.maxPulses s

end Sys2Proof.Machine
end

