-- ==== Sys2Proof/Safety.lean ====
section
/-! DEFINITION. What counts as a safe run, the invariant that every pulse, every step and every admitted action keeps,
and the launch of a program (70_reset_and_hazards.md R445, R452). -/

namespace Sys2Proof

/-! Sets of opcodes and instructions that rules name. -/

/-- The unimplemented set (30_encoding.md R104). -/
def unimplementedOpcodes : List Byte :=
  [0x02#8, 0x12#8, 0x22#8, 0x32#8, 0x42#8, 0x52#8, 0x62#8, 0x72#8, 0x92#8, 0xB2#8, 0xD2#8, 0xF2#8, 0x0B#8, 0x2B#8, 0x4B#8,
    0x6B#8, 0x8B#8, 0xAB#8, 0xCB#8, 0x93#8, 0x9F#8, 0x9B#8, 0x9C#8, 0x9E#8, 0xBB#8]

/-- The undocumented set (R105): the NOPs by mode, `$EB`, and LAX, SAX, SLO, RLA, SRE, RRA, DCP, ISB as files 47 and 30
list them. -/
def undocumentedOpcodes : List Byte :=
  [0x1A#8, 0x3A#8, 0x5A#8, 0x7A#8, 0xDA#8, 0xFA#8] ++ [0x80#8, 0x82#8, 0x89#8, 0xC2#8, 0xE2#8] ++
    [0x04#8, 0x44#8, 0x64#8] ++ [0x14#8, 0x34#8, 0x54#8, 0x74#8, 0xD4#8, 0xF4#8] ++ [0x0C#8] ++
    [0x1C#8, 0x3C#8, 0x5C#8, 0x7C#8, 0xDC#8, 0xFC#8] ++ [0xEB#8] ++
    [0xA7#8, 0xB7#8, 0xAF#8, 0xBF#8, 0xA3#8, 0xB3#8] ++ [0x87#8, 0x97#8, 0x8F#8, 0x83#8] ++
    [0x03#8, 0x07#8, 0x0F#8, 0x13#8, 0x17#8, 0x1B#8, 0x1F#8] ++ [0x23#8, 0x27#8, 0x2F#8, 0x33#8, 0x37#8, 0x3B#8, 0x3F#8] ++
    [0x43#8, 0x47#8, 0x4F#8, 0x53#8, 0x57#8, 0x5B#8, 0x5F#8] ++ [0x63#8, 0x67#8, 0x6F#8, 0x73#8, 0x77#8, 0x7B#8, 0x7F#8] ++
    [0xC3#8, 0xC7#8, 0xCF#8, 0xD3#8, 0xD7#8, 0xDB#8, 0xDF#8] ++ [0xE3#8, 0xE7#8, 0xEF#8, 0xF3#8, 0xF7#8, 0xFB#8, 0xFF#8]

/-- JMP, JSR, RTS, RTI, BRK and the branches (40_sequencer.md R142). -/
def Instr.transfersControl (i : Instr) : Bool :=
  [.jmpAbs, .jmpInd, .jsr, .rts, .rti, .brk, .bpl, .bmi, .bvc, .bvs, .bcc, .bcs, .bne, .beq].contains i

/-- The writers of `a` (10_state.md R23). -/
def Instr.writesA : Instr → Bool
  | .lda _ | .pla | .txa | .tya | .ora _ | .and _ | .eor _ | .adc _ | .sbc _ | .sbcDup => true
  | .asl .acc | .lsr .acc | .rol .acc | .ror .acc => true
  | .lax _ | .slo _ | .rla _ | .sre _ | .rra _ | .isb _ => true
  | _ => false

/-- The writers of `x` (R23). -/
def Instr.writesX : Instr → Bool
  | .ldx _ | .tax | .tsx | .inx | .dex | .lax _ => true
  | _ => false

/-- The writers of `y` (R23). -/
def Instr.writesY : Instr → Bool
  | .ldy _ | .tay | .iny | .dey => true
  | _ => false

/-- The writers of `sp` (R24). -/
def Instr.writesSp (i : Instr) : Bool := [.txs, .pha, .php, .pla, .plp, .jsr, .rts, .brk, .rti].contains i

/-- The writers of V (R26). -/
def Instr.writesV : Instr → Bool
  | .adc _ | .sbc _ | .sbcDup | .rra _ | .isb _ | .bit _ | .clv | .plp | .rti => true
  | _ => false

/-- The writers of D (R26). -/
def Instr.writesD (i : Instr) : Bool := [.sed, .cld, .plp, .rti].contains i

/-- The writers of I (R26). -/
def Instr.writesI (i : Instr) : Bool := [.sei, .cli, .brk, .plp, .rti].contains i

/-- The writers of C (R26). -/
def Instr.writesC : Instr → Bool
  | .adc _ | .sbc _ | .sbcDup | .cmp _ | .cpx _ | .cpy _ | .asl _ | .lsr _ | .rol _ | .ror _ => true
  | .slo _ | .rla _ | .sre _ | .rra _ | .dcp _ | .isb _ | .clc | .sec | .plp | .rti => true
  | _ => false

/-- The instructions with a write cycle: kinds W and M (41_addressing.md R160), the pushes, JSR and BRK. -/
def Instr.writesMemory : Instr → Bool
  | .sta _ | .stx _ | .sty _ | .sax _ | .inc _ | .dec _ => true
  | .asl (.mem _) | .lsr (.mem _) | .rol (.mem _) | .ror (.mem _) => true
  | .slo _ | .rla _ | .sre _ | .rra _ | .dcp _ | .isb _ => true
  | .pha | .php | .jsr | .brk => true
  | _ => false

end Sys2Proof

namespace Sys2Proof.Machine

/-- The pulses an operation still needs once its effective address is on the bus (41_addressing.md R162 to R166). -/
def MemOp.tail : MemOp → Nat
  | .read _ => 1
  | .write _ => 1
  | .rmw _ => 3

/-- The most pulses from this continuation to the end of the instruction (40_sequencer.md R131). -/
def MicroOp.pulsesLeft : MicroOp → Nat
  | .fetchOpcode => 8
  | .implied _ | .imm _ | .execRead _ | .storeDone => 1
  | .rmwRead _ => 3
  | .rmwModify _ => 2
  | .zpAddr op | .zpIdxAdd op _ | .idxFix op _ | .izxHi op => op.tail + 1
  | .zpIdxBase op _ | .izxLo op | .izyHi op => op.tail + 2
  | .absHi op none => op.tail + 1
  | .absHi op (some _) => op.tail + 2
  | .absLo op none => op.tail + 2
  | .absLo op (some _) => op.tail + 3
  | .izxAdd op | .izyLo op => op.tail + 3
  | .izxPtr op | .izyPtr op => op.tail + 4
  | .branch _ => 3
  | .branchTaken => 2
  | .branchFix => 1
  | .jmpLo => 2
  | .jmpHi => 1
  | .jmpIndLo => 4
  | .jmpIndHi => 3
  | .jmpIndTgtLo => 2
  | .jmpIndTgtHi => 1
  | .jsrLo | .rtsDummy | .rtiDummy => 5
  | .jsrStack | .rtsStack | .rtiStack => 4
  | .jsrPushHi | .rtsPullLo | .rtiPullP => 3
  | .jsrPushLo | .rtsPullHi | .rtiPullLo => 2
  | .jsrHi | .rtsInc | .rtiPullHi => 1
  | .brkSig => 6
  | .brkPushHi => 5
  | .brkPushLo => 4
  | .brkPushP => 3
  | .brkVecLo => 2
  | .brkVecHi => 1
  | .pushDummy _ => 2
  | .pushDone => 1
  | .pullDummy _ => 3
  | .pullStack _ => 2
  | .pullDone _ => 1
  | .unimplemented _ => 0

/-- The opcode an `Unimplemented` continuation holds is the one latched in `ir` (40_sequencer.md R137); true of every
other continuation. -/
def Cpu.faultOpcodeLatched (c : Cpu) : Bool :=
  match c.nextMicroOp with
  | .unimplemented op => op == c.ir
  | _ => true

/-- The core between pulses: a boundary is exactly `tcu = 0` (R134) and has the shape of 10_state.md R46; the counter
leaves room for the rest of the chain, so it never passes 8 (R131); `p` bit 5 is 1 (R47). -/
def Cpu.inv (c : Cpu) : Bool :=
  (c.atFetch == (c.tcu == 0#8)) &&
  (!c.atFetch || (c.readIntent && c.addrBus == c.regs.pc)) &&
  decide (c.tcu.toNat + c.nextMicroOp.pulsesLeft ≤ Config.maxPulses) &&
  c.faultOpcodeLatched &&
  c.regs.getFlag .u

/-- The machine between pulses: the core's invariant, and the memory in its canonical form. -/
def State.inv (s : State) : Bool := s.cpu.inv && Memory.wf s.mem

/-! What an instruction does, in the terms claims use: the architectural state at the next boundary. -/

/-- The memory after single-byte stores, the last store first in the list. -/
def afterStores (before : Addr → Byte) : List (Addr × Byte) → Addr → Byte
  | [], ad => before ad
  | (k, v) :: rest, ad => if ad = k then v else afterStores before rest ad

/-- The architectural outcome of one instruction. `flags` lists the bits of `p` it writes, by number (10_state.md R26);
`stores` the bytes it stores, the last first; `cycles` its pulses (40_sequencer.md R143). -/
structure Effect where
  pc : Addr
  a : Byte
  x : Byte
  y : Byte
  sp : Byte
  flags : List (Nat × Bool)
  stores : List (Addr × Byte)
  jsrLo : Byte
  cycles : Nat
  deriving DecidableEq, Repr

/-- An instruction of this length and cycle count that changes nothing else. -/
def State.noEffect (s : State) (length cycles : Nat) : Effect where
  pc := s.cpu.regs.pc + BitVec.ofNat 16 length
  a := s.cpu.regs.a
  x := s.cpu.regs.x
  y := s.cpu.regs.y
  sp := s.cpu.regs.sp
  flags := []
  stores := []
  jsrLo := s.cpu.jsrLo
  cycles := cycles

/-- `t` is the boundary that `s` reaches with effect `e`, and every other register, flag and byte of memory is
unchanged. `pd` and `data_bus` are written by every pulse (10_state.md R35, R36) and are no observables at a boundary
(00_scope.md R16), so nothing is said of them. -/
structure Reaches (s t : State) (e : Effect) : Prop where
  boundary : t.atBoundary = true
  pc : t.cpu.regs.pc = e.pc
  a : t.cpu.regs.a = e.a
  x : t.cpu.regs.x = e.x
  y : t.cpu.regs.y = e.y
  sp : t.cpu.regs.sp = e.sp
  flags : ∀ k, k < 8 → t.cpu.regs.p.getLsbD k = (e.flags.lookup k).getD (s.cpu.regs.p.getLsbD k)
  memory : ∀ ad, Memory.read t.mem ad = afterStores (Memory.read s.mem) e.stores ad
  ir : t.cpu.ir = s.fetchByte
  jsrLo : t.cpu.jsrLo = e.jsrLo
  cyc : t.cpu.cyc = s.cpu.cyc + BitVec.ofNat 64 e.cycles
  params : t.params = s.params

/-- The outcome is a next state, the one with effect `e`. -/
def Completes (s : State) (o : Host.Outcome State Fault Refusal) (e : Effect) : Prop :=
  ∃ t, o = .next t ∧ Reaches s t e

/-! The bus trace of an instruction (00_scope.md R16 (a)), in closed form over the state it starts from. -/

/-- A read that returns the byte memory holds before the instruction. -/
def State.reads (s : State) (ad : Addr) : BusCycle := ⟨ad, .read, Memory.read s.mem ad⟩

/-- The un-fixed indexed address `U` (41_addressing.md R172, R182): the index added to the base's low byte only. -/
def State.unfixedAddress (s : State) (m : DataMode) (i : Byte) : Addr :=
  cat (hiByte (s.baseAddress m)) (loByte (s.baseAddress m) + i)

/-- The read at the un-fixed address: always for a store or a read-modify-write, else only on a page crossing. -/
def State.fixupTrace (s : State) (always : Bool) (m : DataMode) (i : Byte) : List BusCycle :=
  if always || s.crosses m then [s.reads (s.unfixedAddress m i)] else []

/-- The cycles of a mode before its access (R182); `always` for kinds W and M. -/
def State.addressTrace (s : State) (always : Bool) (m : DataMode) : List BusCycle :=
  [s.reads s.cpu.regs.pc, s.reads (s.cpu.regs.pc + 1#16)] ++
    match m with
    | .zp => []
    | .zpX | .zpY => [s.reads (zext16 s.operand1)]
    | .abs => [s.reads (s.cpu.regs.pc + 2#16)]
    | .absX => s.reads (s.cpu.regs.pc + 2#16) :: s.fixupTrace always .absX s.cpu.regs.x
    | .absY => s.reads (s.cpu.regs.pc + 2#16) :: s.fixupTrace always .absY s.cpu.regs.y
    | .indX =>
      [s.reads (zext16 s.operand1), s.reads (zext16 (s.operand1 + s.cpu.regs.x)),
        s.reads (zext16 (s.operand1 + s.cpu.regs.x + 1#8))]
    | .indY =>
      s.reads (zext16 s.operand1) :: s.reads (zext16 (s.operand1 + 1#8)) :: s.fixupTrace always .indY s.cpu.regs.y

/-- Implied, accumulator and immediate (R182): the opcode, and the byte after it. -/
def State.shortTrace (s : State) : List BusCycle := [s.reads s.cpu.regs.pc, s.reads (s.cpu.regs.pc + 1#16)]

/-- Kind R (R182). -/
def State.readTrace (s : State) : ReadMode → List BusCycle
  | .imm => s.shortTrace
  | .mem m => s.addressTrace false m ++ [s.reads (s.effectiveAddress m)]

/-- Kind W (R182), storing `v`. -/
def State.writeTrace (s : State) (m : DataMode) (v : Byte) : List BusCycle :=
  s.addressTrace true m ++ [⟨s.effectiveAddress m, .write, v⟩]

/-- Kind M (R182): the operand is read, written back unmodified, and the result `r` is written. -/
def State.rmwTrace (s : State) (m : DataMode) (r : Byte) : List BusCycle :=
  s.addressTrace true m ++
    [s.reads (s.effectiveAddress m), ⟨s.effectiveAddress m, .write, s.operandByte (.mem m)⟩,
      ⟨s.effectiveAddress m, .write, r⟩]

/-- The target of a branch (45_control_flow.md R312). -/
def State.target (s : State) : Addr := branchTarget (s.cpu.regs.pc + 2#16) s.operand1

/-- The pulses of a branch (R309). -/
def State.branchCycles (s : State) (op : BranchOp) : Nat :=
  if s.cpu.regs.taken op then if hiByte s.target = hiByte (s.cpu.regs.pc + 2#16) then 3 else 4 else 2

/-- The trace of a branch (R309, R311 to R313): the dummy read after a taken branch, and then the one at the un-fixed
target (for their order, log 17). -/
def State.branchTrace (s : State) (op : BranchOp) : List BusCycle :=
  s.shortTrace ++
    if s.cpu.regs.taken op then
      s.reads (s.cpu.regs.pc + 2#16) ::
        if hiByte s.target = hiByte (s.cpu.regs.pc + 2#16) then []
        else [s.reads (cat (hiByte (s.cpu.regs.pc + 2#16)) (loByte s.target))]
    else []

/-- The instruction completes with effect `e`; and where its opcode is the byte at `pc`, the pulses up to the next
boundary show this trace on the bus. -/
def Performs (s : State) (i : Instr) (e : Effect) (trace : List BusCycle) : Prop :=
  Completes s (exec i s) e ∧ (decodeOpcode s.fetchByte = i → s.busTrace = trace)

/-- The opcode bytes of a rule's **Encoding** line, with what each decodes to. -/
def Encodes (rows : List (Byte × Instr)) : Prop := ∀ r ∈ rows, decodeOpcode r.1 = r.2

/-! Flags as claims name them: bits of `p` by number (10_state.md R26). -/

/-- What `update_nz(v)` writes (R32): N is bit 7, Z is `v = 0`. -/
def nzFlags (v : Byte) : List (Nat × Bool) := [(7, v.getLsbD 7), (1, decide (v = 0#8))]

/-- The carry flag as a number. -/
def State.carryIn (s : State) : Nat := (s.cpu.regs.p.getLsbD 0).toNat

/-- What `adc` writes for operand `m` (42_alu_flags.md R210, R227): V says that the exact signed sum is no signed byte,
C that the exact unsigned sum is no byte. -/
def adcFlags (a m : Byte) (c : Nat) : List (Nat × Bool) :=
  nzFlags (BitVec.ofNat 8 (a.toNat + m.toNat + c)) ++
    [(6, decide (a.toInt + m.toInt + c < -128 ∨ 127 < a.toInt + m.toInt + c)), (0, decide (256 ≤ a.toNat + m.toNat + c))]

/-- What `sbc` writes (R211): V says that `a - m - (1 - C)` is no signed byte, C that it needs no borrow. -/
def sbcFlags (a m : Byte) (c : Nat) : List (Nat × Bool) :=
  nzFlags (BitVec.ofInt 8 (a.toInt - m.toInt - (1 - c))) ++
    [(6, decide (a.toInt - m.toInt - (1 - c) < -128 ∨ 127 < a.toInt - m.toInt - (1 - c))),
      (0, decide (m.toNat + (1 - c) ≤ a.toNat))]

/-- What `compare(reg, m)` writes (R214). -/
def compareFlags (reg m : Byte) : List (Nat × Bool) := nzFlags (reg - m) ++ [(0, decide (m.toNat ≤ reg.toNat))]

/-- What a pull of the status byte `m` writes (10_state.md R28): every bit but 4 and 5. -/
def pulledFlags (m : Byte) : List (Nat × Bool) :=
  [(7, m.getLsbD 7), (6, m.getLsbD 6), (3, m.getLsbD 3), (2, m.getLsbD 2), (1, m.getLsbD 1), (0, m.getLsbD 0)]

/-- The fields the host may poke (40_sequencer.md R145). -/
def Poke.admitted : Poke → Bool
  | .pc _ | .a _ | .x _ | .y _ | .sp _ | .p _ | .cyc _ => true
  | .ir _ | .pd _ | .addrBus _ | .dataBus _ | .readIntent _ | .tcu _ | .nextMicroOp _ | .jsrLo _ => false

/-- A run of `n` instructions that meets no fault and no refusal. -/
def Safe (s : State) (n : Nat) : Prop := ∃ t, Sys2Proof.core.run n s = .next t

/-- A launch (R445, R452): the construction state with the memory's initial contents, and `END_PC`. -/
structure Launch where
  powerOn : State
  endPc : Addr
  deriving DecidableEq, Repr

/-- How a run ends (R452). -/
inductive RunEnd where
  /-- The first boundary at which `pc = END_PC`. -/
  | reached (s : State)
  /-- The fault of R411, "not a successful end". -/
  | faulted (f : Fault)
  /-- Something was refused. -/
  | refused (r : Refusal)
  /-- The budget is spent: the run may hang. -/
  | unfinished (s : State)
  deriving DecidableEq, Repr

/-- Run at most `n` instructions, stopping at the first boundary at which `pc = endPc`. -/
def runUntil (endPc : Addr) : Nat → State → RunEnd
  | 0, s => if s.cpu.regs.pc = endPc then .reached s else .unfinished s
  | n + 1, s =>
    if s.cpu.regs.pc = endPc then .reached s
    else
      match step s with
      | .next t => runUntil endPc n t
      | .fault f => .faulted f
      | .refused r => .refused r

/-- The run of a launch from `reset(POWER_ON)` (R445) with a budget of instructions. -/
def Launch.run (l : Launch) (budget : Nat) : RunEnd := runUntil l.endPc budget l.powerOn.resetAction

end Sys2Proof.Machine
end

