-- ==== Sys2Proof/Certificates/Slice0/Obligations.lean ====
section
/-! DEFINITION. The statements for the provers, from the numbered rules of spec/. The words they use beside the model's
own (`Performs`, `Completes`, `Effect`, the closed forms of the traces) are in Sys2Proof/Safety.lean. -/

open Sys2Proof Sys2Proof.Machine

/-- The words of a few instructions, one or two of each family, written out from the tables of 30_encoding.md. That an
unimplemented opcode has no operand bytes, and that a list may be too short, are the model's own (log 11). -/
def Obligations.WordsDecode : Prop :=
  decode [0xA9#8, 0x80#8, 0x11#8] = .ok ⟨.lda .imm, [0x80#8], [0x11#8]⟩ ∧
    decode [0xBE#8, 0x34#8, 0x12#8] = .ok ⟨.ldx (.mem .absY), [0x34#8, 0x12#8], []⟩ ∧
    decode [0x94#8, 0xFF#8] = .ok ⟨.sty .zpX, [0xFF#8], []⟩ ∧
    decode [0x9A#8] = .ok ⟨.txs, [], []⟩ ∧
    decode [0x71#8, 0x10#8] = .ok ⟨.adc (.mem .indY), [0x10#8], []⟩ ∧
    decode [0x2C#8, 0x00#8, 0x20#8] = .ok ⟨.bit .abs, [0x00#8, 0x20#8], []⟩ ∧
    decode [0xFE#8, 0x00#8, 0x03#8] = .ok ⟨.inc .absX, [0x00#8, 0x03#8], []⟩ ∧
    decode [0x6A#8] = .ok ⟨.ror .acc, [], []⟩ ∧
    decode [0xD0#8, 0xFB#8] = .ok ⟨.bne, [0xFB#8], []⟩ ∧
    decode [0x6C#8, 0xFF#8, 0x10#8] = .ok ⟨.jmpInd, [0xFF#8, 0x10#8], []⟩ ∧
    decode [0x20#8, 0x34#8, 0x12#8] = .ok ⟨.jsr, [0x34#8, 0x12#8], []⟩ ∧
    decode [0x00#8, 0xEA#8] = .ok ⟨.brk, [], [0xEA#8]⟩ ∧
    decode [0x28#8] = .ok ⟨.plp, [], []⟩ ∧
    decode [0x78#8] = .ok ⟨.sei, [], []⟩ ∧
    decode [0x97#8, 0x10#8] = .ok ⟨.sax .zpY, [0x10#8], []⟩ ∧
    decode [0xC3#8, 0x10#8] = .ok ⟨.dcp .indX, [0x10#8], []⟩ ∧
    decode [0x1C#8, 0xF0#8, 0x20#8] = .ok ⟨.nopAbsX 0, [0xF0#8, 0x20#8], []⟩ ∧
    decode [0xEB#8, 0x01#8] = .ok ⟨.sbcDup, [0x01#8], []⟩ ∧
    decode [0x9E#8] = .ok ⟨.shx, [], []⟩ ∧
    decode [0x4C#8, 0xF5#8] = .error (.truncated .jmpAbs) ∧
    decode [] = .error .noOpcode

/-- Decode after encode. `encode` is the model's own, written from the tables of 30_encoding.md. -/
def Obligations.EncodeThenDecode : Prop :=
  ∀ (i : Instr) (operands rest : List Byte), i.wellFormed = true → operands.length = i.operandCount →
    ∃ bytes, encode i operands = some bytes ∧ bytes.length = i.length ∧ 1 ≤ i.length ∧ i.length ≤ 3 ∧
      decode (bytes ++ rest) = .ok ⟨i, operands, rest⟩

/-- Encode after decode, and that the decoder is total on the opcode byte (R107). -/
def Obligations.DecodeThenEncode : Prop :=
  (∀ (bytes : List Byte) (d : Decoded), decode bytes = .ok d →
      d.instr.wellFormed = true ∧ ∃ head, encode d.instr d.operands = some head ∧ bytes = head ++ d.rest) ∧
    (∀ (op : Byte) (tail : List Byte), (decodeOpcode op).operandCount ≤ tail.length →
      ∃ d, decode (op :: tail) = .ok d ∧ d.instr = decodeOpcode op)

/-- The three sets of opcodes (R103 to R105). -/
def Obligations.OpcodeClasses : Prop :=
  (∀ op : Byte, (decodeOpcode op).opClass =
      if op ∈ unimplementedOpcodes then .unimplemented
      else if op ∈ undocumentedOpcodes then .undocumented else .documented) ∧
    ((List.finRange 256).countP fun n => (decodeOpcode (BitVec.ofFin n)).opClass == .documented) = 151 ∧
    undocumentedOpcodes.Nodup ∧ undocumentedOpcodes.length = 80 ∧
    unimplementedOpcodes.Nodup ∧ unimplementedOpcodes.length = 25

/-- A step at a boundary is `exec` of the instruction the bytes at `pc` decode to. `exec` itself fetches and moves `pc`
(R135); nothing is added around it. That a step is one instruction is the model's (log 1). -/
def Obligations.StepRunsDecoded : Prop :=
  (∀ (s : State) (d : Decoded), s.atBoundary = true →
      decode [Memory.read s.mem s.cpu.regs.pc, Memory.read s.mem (s.cpu.regs.pc + 1#16),
        Memory.read s.mem (s.cpu.regs.pc + 2#16)] = .ok d →
      step s = exec d.instr s) ∧
    (∀ s : State, s.cpu.nextMicroOp ≠ .fetchOpcode → step s = s.finishInstr)

/-- The step of one instruction refines the pulses of one bus cycle (R424: the host's loop of pulses until `tcu = 0`).
The step as the model's granularity is log 1; that the pulses stop at the continuation `FetchOpcode`, where R424 and R134
say `tcu = 0`, is log 2 (DEDUCED). -/
def Obligations.StepIsPulses : Prop :=
  ∀ s : State, s.cpu.nextMicroOp = .fetchOpcode →
    step s =
      match s.pulse with
      | .next t => t.finishInstr
      | .fault f => .fault f
      | .refused r => .refused r

/-- R46, which the spec marks as derived, at the end of every step. -/
def Obligations.StepEndsAtBoundary : Prop :=
  ∀ s t : State, step s = .next t →
    t.cpu.tcu = 0#8 ∧ t.cpu.nextMicroOp = .fetchOpcode ∧ t.cpu.readIntent = true ∧ t.cpu.addrBus = t.cpu.regs.pc

/-- R46, R47, R131 and R134, as one invariant of the core between pulses, for every memory (20_memory.md R64). -/
def Obligations.PulseKeepsInv : Prop :=
  ∀ (σ : Type) (M : MemAgent σ) (params : Params) (c c' : Cpu) (m m' : σ), c.inv = true →
    pulseOn M params (c, m) = .next (c', m') → c'.inv = true

/-- The invariant of Safety.lean is inductive for the step. -/
def Obligations.StepKeepsInv : Prop :=
  ∀ s t : State, s.inv = true → step s = .next t → t.inv = true

/-- The state after reset. Its values for what reset does not write are the model's (log 4, log 5). -/
def Obligations.ResetStateInv : Prop :=
  State.reset.inv = true ∧ State.reset.atBoundary = true ∧ State.reset = State.powerOn.resetAction

/-- The reset action (R440). -/
def Obligations.ResetSetsUpTheFetch : Prop :=
  ∀ (σ : Type) (M : MemAgent σ) (c : Cpu) (m : σ),
    let lo := M.read m 0xFFFC#16
    let hi := M.read lo.2 0xFFFD#16
    let c' := (resetOn M (c, m)).1
    c'.regs.p.getLsbD 2 = true ∧ c'.regs.p.getLsbD 5 = true ∧ c'.regs.p.getLsbD 3 = false ∧
      c'.regs.pc = cat hi.1 lo.1 ∧ c'.addrBus = c'.regs.pc ∧ c'.tcu = 0#8 ∧ c'.readIntent = true ∧
      c'.nextMicroOp = .fetchOpcode ∧ (resetOn M (c, m)).2 = hi.2

/-- What reset leaves alone (R442, R444), the spec's decision D4. -/
def Obligations.ResetKeepsTheRest : Prop :=
  ∀ s : State,
    let t := s.resetAction
    t.cpu.regs.a = s.cpu.regs.a ∧ t.cpu.regs.x = s.cpu.regs.x ∧ t.cpu.regs.y = s.cpu.regs.y ∧
      t.cpu.regs.sp = s.cpu.regs.sp ∧ (∀ k, k ∈ [7, 6, 4, 1, 0] → t.cpu.regs.p.getLsbD k = s.cpu.regs.p.getLsbD k) ∧
      t.cpu.ir = s.cpu.ir ∧ t.cpu.pd = s.cpu.pd ∧ t.cpu.dataBus = s.cpu.dataBus ∧ t.cpu.cyc = s.cpu.cyc ∧
      t.cpu.jsrLo = s.cpu.jsrLo ∧ t.mem = s.mem ∧ t.params = s.params

/-- Every POWER_ON is admitted (10_state.md R45): the invariant starts at the first reset. -/
def Obligations.ResetEstablishesInv : Prop :=
  ∀ s : State, Memory.wf s.mem = true → s.resetAction.inv = true

/-- The pulse (R130), and that it performs exactly one transaction (R141). -/
def Obligations.PulseIsOneBusCycle : Prop :=
  ∀ (σ : Type) (M : MemAgent σ) (params : Params) (c : Cpu) (m : σ),
    let c1 : Cpu := { c with tcu := c.tcu + 1#8, cyc := c.cyc + 1#64, pd := c.dataBus }
    ((∀ op, c.nextMicroOp ≠ .unimplemented op) →
      pulseOn M params (c, m) =
        if c.readIntent then
          .next (runMicroOp params c.nextMicroOp { c1 with dataBus := (M.read m c.addrBus).1 }, (M.read m c.addrBus).2)
        else .next (runMicroOp params c.nextMicroOp c1, M.write m c.addrBus c.dataBus)) ∧
      (∀ op, c.nextMicroOp = .unimplemented op → pulseOn M params (c, m) = .fault (.unimplementedOpcode op))

/-- The internal latches and the cycle counter (R34, R35, R39; for `jsr_lo` 10_state.md R41). That reset leaves them is the
spec's decision D4, which R39 states for `cyc`. -/
def Obligations.LatchesPerPulse : Prop :=
  ∀ (σ : Type) (M : MemAgent σ) (params : Params) (c c' : Cpu) (m m' : σ),
    (pulseOn M params (c, m) = .next (c', m') →
      c'.pd = c.dataBus ∧ c'.cyc = c.cyc + 1#64 ∧
      c'.ir = (if c.nextMicroOp = .fetchOpcode then (if c.readIntent then (M.read m c.addrBus).1 else c.dataBus) else c.ir) ∧
      c'.jsrLo = (if c.nextMicroOp = .jsrLo then (if c.readIntent then (M.read m c.addrBus).1 else c.dataBus) else c.jsrLo) ∧
      ∀ n : Count, pulseOn M params ({ c with cyc := n }, m) = .next ({ c' with cyc := n + 1#64 }, m')) ∧
    ((resetOn M (c, m)).1.ir = c.ir ∧ (resetOn M (c, m)).1.pd = c.pd ∧ (resetOn M (c, m)).1.cyc = c.cyc ∧
      (resetOn M (c, m)).1.jsrLo = c.jsrLo)

/-- B and bit 5 of the register (R28, and R47, which the spec marks as derived). -/
def Obligations.StatusBitsFourAndFiveAreKept : Prop :=
  ∀ (σ : Type) (M : MemAgent σ) (params : Params) (c c' : Cpu) (m m' : σ),
    pulseOn M params (c, m) = .next (c', m') →
    c'.regs.p.getLsbD 4 = c.regs.p.getLsbD 4 ∧ c'.regs.p.getLsbD 5 = c.regs.p.getLsbD 5

/-- Noninterference: no rule reads D or I to decide anything (R29, R30, and R414, which the spec marks as derived). -/
def Obligations.DecimalAndInterruptFlagsSteerNothing : Prop :=
  ∀ (σ : Type) (M : MemAgent σ) (params : Params) (c c1 : Cpu) (m m1 : σ) (k : Byte),
    k &&& 0xC3#8 = 0#8 → c.nextMicroOp ≠ .pushDummy .php → c.nextMicroOp ≠ .brkPushLo →
    pulseOn M params (c, m) = .next (c1, m1) →
    ∃ c2, pulseOn M params ({ c with regs := { c.regs with p := c.regs.p ^^^ k } }, m) = .next (c2, m1) ∧
      { c2 with regs := { c2.regs with p := c1.regs.p } } = c1 ∧ c2.regs.p &&& 0xC3#8 = c1.regs.p &&& 0xC3#8

/-- The observable state after cycle 1 of an opcode that does not execute (R137). -/
def Obligations.FaultStateIsEntered : Prop :=
  ∀ s : State, s.atBoundary = true →
    ((decodeOpcode s.fetchByte).opClass = .unimplemented ∨
      ((decodeOpcode s.fetchByte).opClass = .undocumented ∧ s.params.undocSupport = false)) →
    s.pulse =
      .next { s with
        cpu := { s.cpu with
          regs := { s.cpu.regs with pc := s.cpu.regs.pc + 1#16 }
          ir := s.fetchByte
          pd := s.cpu.dataBus
          addrBus := s.cpu.regs.pc + 1#16
          dataBus := s.fetchByte
          tcu := 1#8
          cyc := s.cpu.cyc + 1#64
          nextMicroOp := .unimplemented s.fetchByte } }

/-- The faulting pulse (R138). -/
def Obligations.FaultIsQuiescent : Prop :=
  (∀ (σ : Type) (M : MemAgent σ) (params : Params) (c : Cpu) (m : σ) (op : Byte), c.nextMicroOp = .unimplemented op →
      pulseOn M params (c, m) = .fault (.unimplementedOpcode op) ∧ (resetOn M (c, m)).1.nextMicroOp = .fetchOpcode) ∧
    (∀ (s : State) (op : Byte), s.cpu.nextMicroOp = .unimplemented op →
      s.pulse = .fault (.unimplementedOpcode op) ∧ step s = .fault (.unimplementedOpcode op) ∧
        ∀ k t, hostStep (.poke k) s ≠ .next t)

/-- The one fault of the core (R104, R391, R411). Every arm of `exec` for JAM, ANC, ALR, ARR, XAA, LXA, AXS, SHA, TAS, SHY,
SHX and LAS ends so. -/
def Obligations.UnimplementedOpcodesFault : Prop :=
  Encodes [(0x02#8, .jam 0), (0x12#8, .jam 1), (0x22#8, .jam 2), (0x32#8, .jam 3), (0x42#8, .jam 4), (0x52#8, .jam 5),
      (0x62#8, .jam 6), (0x72#8, .jam 7), (0x92#8, .jam 8), (0xB2#8, .jam 9), (0xD2#8, .jam 10), (0xF2#8, .jam 11),
      (0x0B#8, .anc 0), (0x2B#8, .anc 1), (0x4B#8, .alr), (0x6B#8, .arr), (0x8B#8, .xaa), (0xAB#8, .lxa),
      (0xCB#8, .axs), (0x93#8, .sha .indY), (0x9F#8, .sha .absY), (0x9B#8, .tas), (0x9C#8, .shy), (0x9E#8, .shx),
      (0xBB#8, .las)] ∧
    (∀ (i : Instr) (s : State), i.opClass = .unimplemented → exec i s = .fault (.unimplementedOpcode s.fetchByte)) ∧
    (∀ s : State, s.atBoundary = true →
      ((decodeOpcode s.fetchByte).opClass = .unimplemented ∨
        ((decodeOpcode s.fetchByte).opClass = .undocumented ∧ s.params.undocSupport = false)) →
      step s = .fault (.unimplementedOpcode s.fetchByte) ∧
      ∃ t, s.pulse = .next t ∧ t.cpu.nextMicroOp = .unimplemented s.fetchByte ∧ t.cpu.ir = s.fetchByte ∧
        t.cpu.regs.pc - 1#16 = s.cpu.regs.pc ∧ t.mem = s.mem ∧
        t.pulse = .fault (.unimplementedOpcode s.fetchByte) ∧
        (∀ k u, hostStep (.poke k) t ≠ .next u) ∧ t.resetAction.atBoundary = true)

/-- The parameter `UNDOC_SUPPORT` (R392; 47_undocumented.md R380). What each undocumented opcode does under it is stated with its rule. -/
def Obligations.UndocSupportGatesTheUndocumented : Prop :=
  (∀ (i : Instr) (s : State), i.opClass = .undocumented → s.params.undocSupport = false →
      exec i s = .fault (.unimplementedOpcode s.fetchByte) ∧
      (s.atBoundary = true → decodeOpcode s.fetchByte = i →
        ∃ t, s.pulse = .next t ∧ t.cpu.nextMicroOp = .unimplemented s.fetchByte ∧
          t.cpu.regs.pc = s.cpu.regs.pc + 1#16 ∧ t.cpu.tcu = 1#8 ∧
          t.pulse = .fault (.unimplementedOpcode s.fetchByte))) ∧
    (∀ (i : Instr) (s : State), s.atBoundary = true → i.opClass ≠ .unimplemented →
      (i.opClass = .undocumented → s.params.undocSupport = true) → ∃ t, exec i s = .next t ∧ t.params = s.params) ∧
    (∀ (i : Instr) (s : State) (q : Params), s.atBoundary = true → i.opClass = .documented →
      ∃ t, exec i s = .next t ∧ exec i { s with params := q } = .next { t with params := q })

/-- What the host may do to the core (R145). -/
def Obligations.PokesAreRefusedOffBoundary : Prop :=
  (∀ (s : State) (v : Addr), s.atBoundary = true →
      hostStep (.poke (.pc v)) s =
        .next { s with cpu := { s.cpu with regs := { s.cpu.regs with pc := v }, addrBus := v } }) ∧
    (∀ (s : State) (v : Byte), s.atBoundary = true →
      hostStep (.poke (.a v)) s = .next { s with cpu := { s.cpu with regs := { s.cpu.regs with a := v } } } ∧
      hostStep (.poke (.x v)) s = .next { s with cpu := { s.cpu with regs := { s.cpu.regs with x := v } } } ∧
      hostStep (.poke (.y v)) s = .next { s with cpu := { s.cpu with regs := { s.cpu.regs with y := v } } } ∧
      hostStep (.poke (.sp v)) s = .next { s with cpu := { s.cpu with regs := { s.cpu.regs with sp := v } } } ∧
      hostStep (.poke (.p v)) s = .next { s with cpu := { s.cpu with regs := { s.cpu.regs with p := v } } }) ∧
    (∀ (s : State) (v : Count), s.atBoundary = true →
      hostStep (.poke (.cyc v)) s = .next { s with cpu := { s.cpu with cyc := v } }) ∧
    (∀ (s t : State) (k : Poke), hostStep (.poke k) s = .next t → s.atBoundary = true ∧ t.atBoundary = true) ∧
    (∀ (s : State) (k : Poke), k.admitted = true → s.atBoundary = false →
      hostStep (.poke k) s = .refused .pokeOffBoundary) ∧
    (∀ (s : State) (k : Poke), k.admitted = false → hostStep (.poke k) s = .refused .pokeOfInternalField) ∧
    (∀ s : State, hostStep .pulse s = s.pulse ∧ hostStep .reset s = .next s.resetAction)

/-- The two forms of the page-crossing test, and that the base of (indirect),Y is the pointer's target (R161). -/
def Obligations.PageCrossingIsACarry : Prop :=
  ∀ (base : Addr) (i : Byte),
    pageCrossed base i = decide (256 ≤ (loByte base).toNat + i.toNat) ∧
    (pageCrossed base i = true ↔ hiByte (base + zext16 i) ≠ hiByte base) ∧
    (∀ s : State, s.crosses .indY = pageCrossed (s.zeroPagePointer s.operand1) s.cpu.regs.y)

/-- The loads (R240 to R242): result, flags, frame, cycles, bus trace, and that they complete. -/
def Obligations.LoadsReadTheOperand : Prop :=
  Encodes [(0xA1#8, .lda (.mem .indX)), (0xA5#8, .lda (.mem .zp)), (0xA9#8, .lda .imm), (0xAD#8, .lda (.mem .abs)),
    (0xB1#8, .lda (.mem .indY)), (0xB5#8, .lda (.mem .zpX)), (0xB9#8, .lda (.mem .absY)), (0xBD#8, .lda (.mem .absX)),
    (0xA2#8, .ldx .imm), (0xA6#8, .ldx (.mem .zp)), (0xB6#8, .ldx (.mem .zpY)), (0xAE#8, .ldx (.mem .abs)),
    (0xBE#8, .ldx (.mem .absY)),
    (0xA0#8, .ldy .imm), (0xA4#8, .ldy (.mem .zp)), (0xB4#8, .ldy (.mem .zpX)), (0xAC#8, .ldy (.mem .abs)),
    (0xBC#8, .ldy (.mem .absX))] ∧
    ∀ (s : State) (m : ReadMode), s.atBoundary = true →
      let v := s.operandByte m
      let e := s.noEffect (1 + m.operandCount) (s.readCycles m)
      Performs s (.lda m) { e with a := v, flags := nzFlags v } (s.readTrace m) ∧
      Performs s (.ldx m) { e with x := v, flags := nzFlags v } (s.readTrace m) ∧
      Performs s (.ldy m) { e with y := v, flags := nzFlags v } (s.readTrace m)

/-- The stores (R243 to R245); the trace holds the dummy read of the indexed forms. -/
def Obligations.StoresWriteTheRegister : Prop :=
  Encodes [(0x85#8, .sta .zp), (0x95#8, .sta .zpX), (0x8D#8, .sta .abs), (0x9D#8, .sta .absX),
    (0x99#8, .sta .absY), (0x81#8, .sta .indX), (0x91#8, .sta .indY),
    (0x86#8, .stx .zp), (0x96#8, .stx .zpY), (0x8E#8, .stx .abs), (0x84#8, .sty .zp), (0x94#8, .sty .zpX), (0x8C#8, .sty .abs),
    (0x89#8, .nopImm 2), (0x9E#8, .shx), (0x9C#8, .shy)] ∧
    ∀ (s : State) (m : DataMode), s.atBoundary = true → Memory.wf s.mem = true →
      let ea := s.effectiveAddress m
      let e := s.noEffect (1 + m.operandCount) (writeCycles m)
      Performs s (.sta m) { e with stores := [(ea, s.cpu.regs.a)] } (s.writeTrace m s.cpu.regs.a) ∧
      Performs s (.stx m) { e with stores := [(ea, s.cpu.regs.x)] } (s.writeTrace m s.cpu.regs.x) ∧
      Performs s (.sty m) { e with stores := [(ea, s.cpu.regs.y)] } (s.writeTrace m s.cpu.regs.y)

/-- The transfers (R246 to R251). -/
def Obligations.TransfersCopyTheRegister : Prop :=
  Encodes [(0xAA#8, .tax), (0xA8#8, .tay), (0x8A#8, .txa), (0x98#8, .tya), (0xBA#8, .tsx), (0x9A#8, .txs)] ∧
    ∀ s : State, s.atBoundary = true →
      let r := s.cpu.regs
      let e := s.noEffect 1 2
      Performs s .tax { e with x := r.a, flags := nzFlags r.a } s.shortTrace ∧
      Performs s .tay { e with y := r.a, flags := nzFlags r.a } s.shortTrace ∧
      Performs s .txa { e with a := r.x, flags := nzFlags r.x } s.shortTrace ∧
      Performs s .tya { e with a := r.y, flags := nzFlags r.y } s.shortTrace ∧
      Performs s .tsx { e with x := r.sp, flags := nzFlags r.sp } s.shortTrace ∧
      Performs s .txs { e with sp := r.x } s.shortTrace

/-- The logic instructions (R270 to R272). -/
def Obligations.LogicWritesTheAccumulator : Prop :=
  Encodes [(0x01#8, .ora (.mem .indX)), (0x05#8, .ora (.mem .zp)), (0x09#8, .ora .imm), (0x0D#8, .ora (.mem .abs)),
    (0x11#8, .ora (.mem .indY)), (0x15#8, .ora (.mem .zpX)), (0x19#8, .ora (.mem .absY)), (0x1D#8, .ora (.mem .absX)),
    (0x21#8, .and (.mem .indX)), (0x25#8, .and (.mem .zp)), (0x29#8, .and .imm), (0x2D#8, .and (.mem .abs)),
    (0x31#8, .and (.mem .indY)), (0x35#8, .and (.mem .zpX)), (0x39#8, .and (.mem .absY)), (0x3D#8, .and (.mem .absX)),
    (0x41#8, .eor (.mem .indX)), (0x45#8, .eor (.mem .zp)), (0x49#8, .eor .imm), (0x4D#8, .eor (.mem .abs)),
    (0x51#8, .eor (.mem .indY)), (0x55#8, .eor (.mem .zpX)), (0x59#8, .eor (.mem .absY)), (0x5D#8, .eor (.mem .absX))] ∧
    ∀ (s : State) (m : ReadMode), s.atBoundary = true →
      let a := s.cpu.regs.a
      let v := s.operandByte m
      let e := s.noEffect (1 + m.operandCount) (s.readCycles m)
      Performs s (.ora m) { e with a := a ||| v, flags := nzFlags (a ||| v) } (s.readTrace m) ∧
      Performs s (.and m) { e with a := a &&& v, flags := nzFlags (a &&& v) } (s.readTrace m) ∧
      Performs s (.eor m) { e with a := a ^^^ v, flags := nzFlags (a ^^^ v) } (s.readTrace m)

/-- ADC (R273) computes `adc` (R210) in binary whatever D holds (R213): there is no premise on D. -/
def Obligations.AddWithCarry : Prop :=
  Encodes [(0x61#8, .adc (.mem .indX)), (0x65#8, .adc (.mem .zp)), (0x69#8, .adc .imm), (0x6D#8, .adc (.mem .abs)),
    (0x71#8, .adc (.mem .indY)), (0x75#8, .adc (.mem .zpX)), (0x79#8, .adc (.mem .absY)), (0x7D#8, .adc (.mem .absX))] ∧
    (∀ (s : State) (m : ReadMode), s.atBoundary = true →
      let a := s.cpu.regs.a
      let v := s.operandByte m
      Performs s (.adc m)
        { s.noEffect (1 + m.operandCount) (s.readCycles m) with
          a := BitVec.ofNat 8 (a.toNat + v.toNat + s.carryIn)
          flags := adcFlags a v s.carryIn } (s.readTrace m)) ∧
    (∀ (a m : Byte) (c : Nat), c ≤ 1 →
      (a.toInt + m.toInt + c < -128 ∨ 127 < a.toInt + m.toInt + c ↔
        a.msb = m.msb ∧ (BitVec.ofNat 8 (a.toNat + m.toNat + c)).msb ≠ a.msb)) ∧
    (∀ (r : Regs) (m : Byte),
      let r' : Regs := { r with p := r.p ^^^ 0x08#8 }
      (r'.adc m).a = (r.adc m).a ∧ (r'.adc m).p = (r.adc m).p ^^^ 0x08#8 ∧
        (r'.sbc m).a = (r.sbc m).a ∧ (r'.sbc m).p = (r.sbc m).p ^^^ 0x08#8)

/-- SBC (R274) and its duplicate `$EB` (R390). -/
def Obligations.SubtractWithBorrow : Prop :=
  Encodes [(0xE1#8, .sbc (.mem .indX)), (0xE5#8, .sbc (.mem .zp)), (0xE9#8, .sbc .imm), (0xED#8, .sbc (.mem .abs)),
    (0xF1#8, .sbc (.mem .indY)), (0xF5#8, .sbc (.mem .zpX)), (0xF9#8, .sbc (.mem .absY)), (0xFD#8, .sbc (.mem .absX)), (0xEB#8, .sbcDup)] ∧
    (∀ (s : State) (m : ReadMode), s.atBoundary = true →
      let a := s.cpu.regs.a
      let v := s.operandByte m
      Performs s (.sbc m)
        { s.noEffect (1 + m.operandCount) (s.readCycles m) with
          a := BitVec.ofInt 8 (a.toInt - v.toInt - (1 - s.carryIn))
          flags := sbcFlags a v s.carryIn } (s.readTrace m)) ∧
    (∀ s : State, s.atBoundary = true → s.params.undocSupport = true →
      Performs s .sbcDup
        { s.noEffect 2 2 with
          a := BitVec.ofInt 8 (s.cpu.regs.a.toInt - s.operand1.toInt - (1 - s.carryIn))
          flags := sbcFlags s.cpu.regs.a s.operand1 s.carryIn } s.shortTrace ∧
      exec .sbcDup s = exec (.sbc .imm) s)

/-- The comparisons (R214, R275 to R277). -/
def Obligations.ComparesWriteOnlyFlags : Prop :=
  Encodes [(0xC1#8, .cmp (.mem .indX)), (0xC5#8, .cmp (.mem .zp)), (0xC9#8, .cmp .imm), (0xCD#8, .cmp (.mem .abs)),
    (0xD1#8, .cmp (.mem .indY)), (0xD5#8, .cmp (.mem .zpX)), (0xD9#8, .cmp (.mem .absY)), (0xDD#8, .cmp (.mem .absX)),
    (0xE0#8, .cpx .imm), (0xE4#8, .cpx (.mem .zp)), (0xEC#8, .cpx (.mem .abs)),
    (0xC0#8, .cpy .imm), (0xC4#8, .cpy (.mem .zp)), (0xCC#8, .cpy (.mem .abs)),
    (0xF4#8, .nopZpX 5), (0xFC#8, .nopAbsX 5), (0xD4#8, .nopZpX 4), (0xDC#8, .nopAbsX 4)] ∧
    ∀ (s : State) (m : ReadMode), s.atBoundary = true →
      let v := s.operandByte m
      let e := s.noEffect (1 + m.operandCount) (s.readCycles m)
      Performs s (.cmp m) { e with flags := compareFlags s.cpu.regs.a v } (s.readTrace m) ∧
      Performs s (.cpx m) { e with flags := compareFlags s.cpu.regs.x v } (s.readTrace m) ∧
      Performs s (.cpy m) { e with flags := compareFlags s.cpu.regs.y v } (s.readTrace m)

/-- BIT (R278). -/
def Obligations.BitTestsTheOperand : Prop :=
  Encodes [(0x24#8, .bit .zp), (0x2C#8, .bit .abs), (0x89#8, .nopImm 2)] ∧
    ∀ (s : State) (m : DataMode), s.atBoundary = true →
      let v := s.operandByte (.mem m)
      Performs s (.bit m)
        { s.noEffect (1 + m.operandCount) (s.readCycles (.mem m)) with
          flags := [(7, v.getLsbD 7), (6, v.getLsbD 6), (1, decide (s.cpu.regs.a &&& v = 0#8))] }
        (s.readTrace (.mem m))

/-- INC and DEC (R279, R280). -/
def Obligations.IncrementAndDecrementMemory : Prop :=
  Encodes [(0xE6#8, .inc .zp), (0xF6#8, .inc .zpX), (0xEE#8, .inc .abs), (0xFE#8, .inc .absX), (0xC6#8, .dec .zp), (0xD6#8, .dec .zpX), (0xCE#8, .dec .abs), (0xDE#8, .dec .absX)] ∧
    ∀ (s : State) (m : DataMode), s.atBoundary = true → Memory.wf s.mem = true →
      let ea := s.effectiveAddress m
      let v := s.operandByte (.mem m)
      let e := s.noEffect (1 + m.operandCount) (rmwCycles m)
      Performs s (.inc m) { e with stores := [(ea, v + 1#8)], flags := nzFlags (v + 1#8) } (s.rmwTrace m (v + 1#8)) ∧
      Performs s (.dec m) { e with stores := [(ea, v - 1#8)], flags := nzFlags (v - 1#8) } (s.rmwTrace m (v - 1#8))

/-- INX, INY, DEX, DEY (R281 to R284). -/
def Obligations.IncrementAndDecrementIndex : Prop :=
  Encodes [(0xE8#8, .inx), (0xC8#8, .iny), (0xCA#8, .dex), (0x88#8, .dey)] ∧
    ∀ s : State, s.atBoundary = true →
      let r := s.cpu.regs
      let e := s.noEffect 1 2
      Performs s .inx { e with x := r.x + 1#8, flags := nzFlags (r.x + 1#8) } s.shortTrace ∧
      Performs s .iny { e with y := r.y + 1#8, flags := nzFlags (r.y + 1#8) } s.shortTrace ∧
      Performs s .dex { e with x := r.x - 1#8, flags := nzFlags (r.x - 1#8) } s.shortTrace ∧
      Performs s .dey { e with y := r.y - 1#8, flags := nzFlags (r.y - 1#8) } s.shortTrace

/-- ASL and LSR, accumulator and memory forms (R285, R286). -/
def Obligations.ShiftsLeftAndRight : Prop :=
  Encodes [(0x0A#8, .asl .acc), (0x06#8, .asl (.mem .zp)), (0x16#8, .asl (.mem .zpX)), (0x0E#8, .asl (.mem .abs)),
    (0x1E#8, .asl (.mem .absX)),
    (0x4A#8, .lsr .acc), (0x46#8, .lsr (.mem .zp)), (0x56#8, .lsr (.mem .zpX)), (0x4E#8, .lsr (.mem .abs)),
    (0x5E#8, .lsr (.mem .absX))] ∧
    (∀ s : State, s.atBoundary = true →
      let a := s.cpu.regs.a
      Performs s (.asl .acc) { s.noEffect 1 2 with a := a <<< 1, flags := nzFlags (a <<< 1) ++ [(0, a.getLsbD 7)] }
        s.shortTrace ∧
      Performs s (.lsr .acc) { s.noEffect 1 2 with a := a >>> 1, flags := nzFlags (a >>> 1) ++ [(0, a.getLsbD 0)] }
        s.shortTrace) ∧
    (∀ (s : State) (m : DataMode), s.atBoundary = true → Memory.wf s.mem = true →
      let ea := s.effectiveAddress m
      let v := s.operandByte (.mem m)
      let e := s.noEffect (1 + m.operandCount) (rmwCycles m)
      Performs s (.asl (.mem m))
        { e with stores := [(ea, v <<< 1)], flags := nzFlags (v <<< 1) ++ [(0, v.getLsbD 7)] }
        (s.rmwTrace m (v <<< 1)) ∧
      Performs s (.lsr (.mem m))
        { e with stores := [(ea, v >>> 1)], flags := nzFlags (v >>> 1) ++ [(0, v.getLsbD 0)] }
        (s.rmwTrace m (v >>> 1)))

/-- ROL and ROR, accumulator and memory forms (R287, R288). -/
def Obligations.RotatesThroughCarry : Prop :=
  Encodes [(0x2A#8, .rol .acc), (0x26#8, .rol (.mem .zp)), (0x36#8, .rol (.mem .zpX)), (0x2E#8, .rol (.mem .abs)),
    (0x3E#8, .rol (.mem .absX)),
    (0x6A#8, .ror .acc), (0x66#8, .ror (.mem .zp)), (0x76#8, .ror (.mem .zpX)), (0x6E#8, .ror (.mem .abs)),
    (0x7E#8, .ror (.mem .absX))] ∧
    (∀ s : State, s.atBoundary = true →
      let a := s.cpu.regs.a
      let c := BitVec.ofNat 8 s.carryIn
      Performs s (.rol .acc) { s.noEffect 1 2 with a := a <<< 1 ||| c, flags := nzFlags (a <<< 1 ||| c) ++ [(0, a.getLsbD 7)] }
        s.shortTrace ∧
      Performs s (.ror .acc) { s.noEffect 1 2 with a := a >>> 1 ||| c <<< 7, flags := nzFlags (a >>> 1 ||| c <<< 7) ++ [(0, a.getLsbD 0)] }
        s.shortTrace) ∧
    (∀ (s : State) (m : DataMode), s.atBoundary = true → Memory.wf s.mem = true →
      let ea := s.effectiveAddress m
      let v := s.operandByte (.mem m)
      let c := BitVec.ofNat 8 s.carryIn
      let e := s.noEffect (1 + m.operandCount) (rmwCycles m)
      Performs s (.rol (.mem m))
        { e with stores := [(ea, v <<< 1 ||| c)], flags := nzFlags (v <<< 1 ||| c) ++ [(0, v.getLsbD 7)] }
        (s.rmwTrace m (v <<< 1 ||| c)) ∧
      Performs s (.ror (.mem m))
        { e with stores := [(ea, v >>> 1 ||| c <<< 7)], flags := nzFlags (v >>> 1 ||| c <<< 7) ++ [(0, v.getLsbD 0)] }
        (s.rmwTrace m (v >>> 1 ||| c <<< 7))) ∧
    (∀ (v : Byte) (r : Regs),
      let rotated := Nat.repeat (fun q : Byte × Regs => q.2.rol q.1) 9 (v, r)
      rotated.1 = v ∧ rotated.2.getFlag .c = r.getFlag .c)

/-- The branches (R309, R310, R314 to R321). The trace of a taken branch into another page is that of R311 to R313 and of the
vectors D3 and D4; the example of R318 (BCC) puts its second dummy read a cycle earlier. The order is the model's (log 17,
DEDUCED), and so the basis is derived. -/
def Obligations.BranchesTestOneFlag : Prop :=
  Encodes [(0x10#8, .bpl), (0x30#8, .bmi), (0x50#8, .bvc), (0x70#8, .bvs), (0x90#8, .bcc), (0xB0#8, .bcs), (0xD0#8, .bne), (0xF0#8, .beq)] ∧
    ∀ s : State, s.atBoundary = true →
      let p := s.cpu.regs.p
      let next := s.cpu.regs.pc + 2#16
      let target := next + s.operand1.signExtend 16
      let inPage := hiByte target = hiByte next
      let start := [s.reads s.cpu.regs.pc, s.reads (s.cpu.regs.pc + 1#16)]
      let outcome := fun (i : Instr) (taken : Bool) =>
        Performs s i
          { s.noEffect 2 (if taken then if inPage then 3 else 4 else 2) with pc := if taken then target else next }
          (if taken then
            if inPage then start ++ [s.reads next]
            else start ++ [s.reads next, s.reads (cat (hiByte next) (loByte target))]
          else start)
      outcome .bpl (p.getLsbD 7 == false) ∧
      outcome .bmi (p.getLsbD 7 == true) ∧
      outcome .bvc (p.getLsbD 6 == false) ∧
      outcome .bvs (p.getLsbD 6 == true) ∧
      outcome .bcc (p.getLsbD 0 == false) ∧
      outcome .bcs (p.getLsbD 0 == true) ∧
      outcome .bne (p.getLsbD 1 == false) ∧
      outcome .beq (p.getLsbD 1 == true) ∧
      ∀ (op : Byte) (b : BranchOp), firstMicroOp (decodeOpcode op) op = .branch b →
        s.cpu.regs.taken b = (p.getLsbD ([7, 6, 0, 1].getD (groupA op / 2) 0) == (groupA op % 2 == 1))

/-- JMP (R324, R329). The bug of `JMP ($xxFF)` is in the address of the second read. -/
def Obligations.JumpsLoadThePc : Prop :=
  Encodes [(0x4C#8, .jmpAbs), (0x6C#8, .jmpInd)] ∧
    ∀ s : State, s.atBoundary = true →
      let P := s.cpu.regs.pc
      let b1 := s.operand1
      let b2 := s.operand2
      let start := [s.reads P, s.reads (P + 1#16), s.reads (P + 2#16)]
      Performs s .jmpAbs { s.noEffect 3 3 with pc := cat b2 b1 } start ∧
      Performs s .jmpInd
        { s.noEffect 3 5 with pc := cat (Memory.read s.mem (cat b2 (b1 + 1#8))) (Memory.read s.mem (cat b2 b1)) }
        (start ++ [s.reads (cat b2 b1), s.reads (cat b2 (b1 + 1#8))])

/-- JSR (R335). -/
def Obligations.JsrPushesTheReturnAddress : Prop :=
  Encodes [(0x20#8, .jsr)] ∧
    ∀ s : State, s.atBoundary = true → Memory.wf s.mem = true →
      let P := s.cpu.regs.pc
      let sp := s.cpu.regs.sp
      let pushes := [(stackAddr (sp - 1#8), loByte (P + 2#16)), (stackAddr sp, hiByte (P + 2#16))]
      let b2 := afterStores (Memory.read s.mem) pushes (P + 2#16)
      Performs s .jsr
        { s.noEffect 3 6 with pc := cat b2 s.operand1, sp := sp - 2#8, stores := pushes, jsrLo := s.operand1 }
        [s.reads P, s.reads (P + 1#16), s.reads (stackAddr sp), ⟨stackAddr sp, .write, hiByte (P + 2#16)⟩,
          ⟨stackAddr (sp - 1#8), .write, loByte (P + 2#16)⟩, ⟨P + 2#16, .read, b2⟩]

/-- RTS (R341), with its round trip: a JSR whose target holds an RTS returns to the instruction after the JSR. -/
def Obligations.RtsPullsTheReturnAddress : Prop :=
  Encodes [(0x60#8, .rts)] ∧
    (∀ s : State, s.atBoundary = true →
      let P := s.cpu.regs.pc
      let sp := s.cpu.regs.sp
      let pulled := cat (Memory.read s.mem (stackAddr (sp + 2#8))) (Memory.read s.mem (stackAddr (sp + 1#8)))
      Performs s .rts { s.noEffect 1 6 with pc := pulled + 1#16, sp := sp + 2#8 }
        [s.reads P, s.reads (P + 1#16), s.reads (stackAddr sp), s.reads (stackAddr (sp + 1#8)),
          s.reads (stackAddr (sp + 2#8)), s.reads pulled]) ∧
    (∀ s t u : State, s.atBoundary = true → Memory.wf s.mem = true → decodeOpcode s.fetchByte = .jsr → step s = .next t →
      decodeOpcode t.fetchByte = .rts → step t = .next u → u.cpu.regs.pc = s.cpu.regs.pc + 3#16)

/-- BRK is the trap entry (R348). -/
def Obligations.BrkEntersTheTrap : Prop :=
  Encodes [(0x00#8, .brk)] ∧
    ∀ s : State, s.atBoundary = true → Memory.wf s.mem = true →
      let P := s.cpu.regs.pc
      let sp := s.cpu.regs.sp
      let status := s.cpu.regs.p ||| 0x30#8
      let vec := cat (Memory.read s.mem 0xFFFF#16) (Memory.read s.mem 0xFFFE#16)
      Performs s .brk
        { s.noEffect 1 7 with
          pc := vec
          sp := sp - 3#8
          flags := [(2, true)]
          stores := [(stackAddr (sp - 2#8), status), (stackAddr (sp - 1#8), loByte (P + 2#16)),
            (stackAddr sp, hiByte (P + 2#16))] }
        [s.reads P, s.reads (P + 1#16), ⟨stackAddr sp, .write, hiByte (P + 2#16)⟩,
          ⟨stackAddr (sp - 1#8), .write, loByte (P + 2#16)⟩, ⟨stackAddr (sp - 2#8), .write, status⟩,
          s.reads 0xFFFE#16, s.reads 0xFFFF#16]

/-- RTI is the trap return (R354). -/
def Obligations.RtiReturnsFromTheTrap : Prop :=
  Encodes [(0x40#8, .rti)] ∧
    ∀ s : State, s.atBoundary = true →
      let P := s.cpu.regs.pc
      let sp := s.cpu.regs.sp
      let pulled := cat (Memory.read s.mem (stackAddr (sp + 3#8))) (Memory.read s.mem (stackAddr (sp + 2#8)))
      Performs s .rti
        { s.noEffect 1 6 with
          pc := pulled
          sp := sp + 3#8
          flags := pulledFlags (Memory.read s.mem (stackAddr (sp + 1#8))) }
        [s.reads P, s.reads (P + 1#16), s.reads (stackAddr sp), s.reads (stackAddr (sp + 1#8)),
          s.reads (stackAddr (sp + 2#8)), s.reads (stackAddr (sp + 3#8))]

/-- The trap and its return, composed: RTI after BRK returns to `P_brk + 2`. -/
def Obligations.TrapRoundTripRestores : Prop :=
  ∀ s t u : State, s.atBoundary = true → Memory.wf s.mem = true → decodeOpcode s.fetchByte = .brk → step s = .next t →
    decodeOpcode t.fetchByte = .rti → step t = .next u →
    u.cpu.regs = { s.cpu.regs with pc := s.cpu.regs.pc + 2#16 } ∧
      ∀ ad, ad ∉ [stackAddr s.cpu.regs.sp, stackAddr (s.cpu.regs.sp - 1#8), stackAddr (s.cpu.regs.sp - 2#8)] →
        Memory.read u.mem ad = Memory.read s.mem ad

/-- PHA and PHP (R365, R366), and the stack address `0x0100 | sp` as a number. -/
def Obligations.PushesWriteTheStack : Prop :=
  Encodes [(0x48#8, .pha), (0x08#8, .php)] ∧
    (∀ s : State, s.atBoundary = true → Memory.wf s.mem = true →
      let P := s.cpu.regs.pc
      let sp := s.cpu.regs.sp
      let start := [s.reads P, s.reads (P + 1#16)]
      Performs s .pha { s.noEffect 1 3 with sp := sp - 1#8, stores := [(stackAddr sp, s.cpu.regs.a)] }
        (start ++ [⟨stackAddr sp, .write, s.cpu.regs.a⟩]) ∧
      Performs s .php { s.noEffect 1 3 with sp := sp - 1#8, stores := [(stackAddr sp, s.cpu.regs.p ||| 0x30#8)] }
        (start ++ [⟨stackAddr sp, .write, s.cpu.regs.p ||| 0x30#8⟩])) ∧
    (∀ sp : Byte, (stackAddr sp).toNat = 256 + sp.toNat)

/-- PLA and PLP (R367, R368), with their round trips. -/
def Obligations.PullsReadTheStack : Prop :=
  Encodes [(0x68#8, .pla), (0x28#8, .plp)] ∧
    (∀ s : State, s.atBoundary = true →
      let P := s.cpu.regs.pc
      let sp := s.cpu.regs.sp
      let m := Memory.read s.mem (stackAddr (sp + 1#8))
      let trace := [s.reads P, s.reads (P + 1#16), s.reads (stackAddr sp), s.reads (stackAddr (sp + 1#8))]
      Performs s .pla { s.noEffect 1 4 with a := m, sp := sp + 1#8, flags := nzFlags m } trace ∧
      Performs s .plp { s.noEffect 1 4 with sp := sp + 1#8, flags := pulledFlags m } trace) ∧
    (∀ s t u : State, s.atBoundary = true → Memory.wf s.mem = true → exec .pha s = .next t → exec .pla t = .next u →
      u.cpu.regs.a = s.cpu.regs.a ∧ u.cpu.regs.sp = s.cpu.regs.sp) ∧
    (∀ s t u : State, s.atBoundary = true → Memory.wf s.mem = true → exec .php s = .next t → exec .plp t = .next u →
      u.cpu.regs.p = s.cpu.regs.p ∧ u.cpu.regs.sp = s.cpu.regs.sp)

/-- The flag instructions (R369 to R375), with the corner case of R373: what can set V. `sbcDup` is the SBC of `$EB`. -/
def Obligations.FlagInstructionsWriteOneFlag : Prop :=
  Encodes [(0x18#8, .clc), (0x38#8, .sec), (0x58#8, .cli), (0x78#8, .sei), (0xB8#8, .clv), (0xD8#8, .cld), (0xF8#8, .sed)] ∧
    (∀ s : State, s.atBoundary = true →
      let e := s.noEffect 1 2
      Performs s .clc { e with flags := [(0, false)] } s.shortTrace ∧
      Performs s .sec { e with flags := [(0, true)] } s.shortTrace ∧
      Performs s .cli { e with flags := [(2, false)] } s.shortTrace ∧
      Performs s .sei { e with flags := [(2, true)] } s.shortTrace ∧
      Performs s .clv { e with flags := [(6, false)] } s.shortTrace ∧
      Performs s .cld { e with flags := [(3, false)] } s.shortTrace ∧
      Performs s .sed { e with flags := [(3, true)] } s.shortTrace) ∧
    (∀ (i : Instr) (s t : State), s.atBoundary = true → exec i s = .next t → s.cpu.regs.p.getLsbD 6 = false →
      t.cpu.regs.p.getLsbD 6 = true → i ∈ [.sbcDup, .plp, .rti] ∨ (∃ m, i ∈ [.adc m, .sbc m]) ∨ ∃ m, i ∈ [.bit m, .rra m, .isb m])

/-- NOP (R376) and the undocumented NOPs (R389). -/
def Obligations.NopsChangeNothing : Prop :=
  Encodes [(0xEA#8, .nop), (0x1A#8, .nopImplied 0), (0x3A#8, .nopImplied 1), (0x5A#8, .nopImplied 2),
      (0x7A#8, .nopImplied 3), (0xDA#8, .nopImplied 4), (0xFA#8, .nopImplied 5), (0x80#8, .nopImm 0),
      (0x82#8, .nopImm 1), (0x89#8, .nopImm 2), (0xC2#8, .nopImm 3), (0xE2#8, .nopImm 4), (0x04#8, .nopZp 0),
      (0x44#8, .nopZp 1), (0x64#8, .nopZp 2), (0x14#8, .nopZpX 0), (0x34#8, .nopZpX 1), (0x54#8, .nopZpX 2),
      (0x74#8, .nopZpX 3), (0xD4#8, .nopZpX 4), (0xF4#8, .nopZpX 5), (0x0C#8, .nopAbs), (0x1C#8, .nopAbsX 0),
      (0x3C#8, .nopAbsX 1), (0x5C#8, .nopAbsX 2), (0x7C#8, .nopAbsX 3), (0xDC#8, .nopAbsX 4), (0xFC#8, .nopAbsX 5)] ∧
    (∀ s : State, s.atBoundary = true → Performs s .nop (s.noEffect 1 2) s.shortTrace) ∧
    (∀ s : State, s.atBoundary = true → s.params.undocSupport = true →
      (∀ k, Performs s (.nopImplied k) (s.noEffect 1 2) s.shortTrace) ∧
      (∀ k, Performs s (.nopImm k) (s.noEffect 2 2) s.shortTrace) ∧
      (∀ k, Performs s (.nopZp k) (s.noEffect 2 3) (s.readTrace (.mem .zp))) ∧
      (∀ k, Performs s (.nopZpX k) (s.noEffect 2 4) (s.readTrace (.mem .zpX))) ∧
      Performs s .nopAbs (s.noEffect 3 4) (s.readTrace (.mem .abs)) ∧
      (∀ k, Performs s (.nopAbsX k) (s.noEffect 3 (if s.crosses .absX then 5 else 4)) (s.readTrace (.mem .absX))))

/-- LAX (R381). -/
def Obligations.LaxLoadsBothRegisters : Prop :=
  Encodes [(0xA7#8, .lax .zp), (0xB7#8, .lax .zpY), (0xAF#8, .lax .abs), (0xBF#8, .lax .absY),
    (0xA3#8, .lax .indX), (0xB3#8, .lax .indY), (0xAB#8, .lxa)] ∧
    ∀ (s : State) (m : DataMode), s.atBoundary = true → s.params.undocSupport = true →
      let v := s.operandByte (.mem m)
      Performs s (.lax m)
        { s.noEffect (1 + m.operandCount) (s.readCycles (.mem m)) with a := v, x := v, flags := nzFlags v }
        (s.readTrace (.mem m))

/-- SAX (R382). -/
def Obligations.SaxStoresTheConjunction : Prop :=
  Encodes [(0x87#8, .sax .zp), (0x97#8, .sax .zpY), (0x8F#8, .sax .abs), (0x83#8, .sax .indX), (0x9F#8, .sha .absY), (0x93#8, .sha .indY)] ∧
    ∀ (s : State) (m : DataMode), s.atBoundary = true → s.params.undocSupport = true → Memory.wf s.mem = true →
      let v := s.cpu.regs.a &&& s.cpu.regs.x
      Performs s (.sax m)
        { s.noEffect (1 + m.operandCount) (writeCycles m) with stores := [(s.effectiveAddress m, v)] }
        (s.writeTrace m v)

/-- SLO, RLA, SRE (R383 to R385). -/
def Obligations.ShiftAndLogicCombine : Prop :=
  Encodes [(0x03#8, .slo .indX), (0x07#8, .slo .zp), (0x0F#8, .slo .abs), (0x13#8, .slo .indY),
    (0x17#8, .slo .zpX), (0x1B#8, .slo .absY), (0x1F#8, .slo .absX),
    (0x23#8, .rla .indX), (0x27#8, .rla .zp), (0x2F#8, .rla .abs), (0x33#8, .rla .indY),
    (0x37#8, .rla .zpX), (0x3B#8, .rla .absY), (0x3F#8, .rla .absX),
    (0x43#8, .sre .indX), (0x47#8, .sre .zp), (0x4F#8, .sre .abs), (0x53#8, .sre .indY),
    (0x57#8, .sre .zpX), (0x5B#8, .sre .absY), (0x5F#8, .sre .absX)] ∧
    ∀ (s : State) (m : DataMode), s.atBoundary = true → s.params.undocSupport = true → Memory.wf s.mem = true →
      let a := s.cpu.regs.a
      let v := s.operandByte (.mem m)
      let e := s.noEffect (1 + m.operandCount) (rmwCycles m)
      let outcome := fun (i : Instr) (r a' : Byte) (c : Bool) =>
        Performs s i { e with a := a', stores := [(s.effectiveAddress m, r)], flags := nzFlags a' ++ [(0, c)] }
          (s.rmwTrace m r)
      let rotated := v <<< 1 ||| BitVec.ofNat 8 s.carryIn
      outcome (.slo m) (v <<< 1) (a ||| v <<< 1) (v.getLsbD 7) ∧
      outcome (.rla m) rotated (a &&& rotated) (v.getLsbD 7) ∧
      outcome (.sre m) (v >>> 1) (a ^^^ v >>> 1) (v.getLsbD 0)

/-- RRA, DCP, ISB (R386 to R388). -/
def Obligations.ModifyAndArithmeticCombine : Prop :=
  Encodes [(0x63#8, .rra .indX), (0x67#8, .rra .zp), (0x6F#8, .rra .abs), (0x73#8, .rra .indY),
    (0x77#8, .rra .zpX), (0x7B#8, .rra .absY), (0x7F#8, .rra .absX),
    (0xC3#8, .dcp .indX), (0xC7#8, .dcp .zp), (0xCF#8, .dcp .abs), (0xD3#8, .dcp .indY),
    (0xD7#8, .dcp .zpX), (0xDB#8, .dcp .absY), (0xDF#8, .dcp .absX),
    (0xE3#8, .isb .indX), (0xE7#8, .isb .zp), (0xEF#8, .isb .abs), (0xF3#8, .isb .indY),
    (0xF7#8, .isb .zpX), (0xFB#8, .isb .absY), (0xFF#8, .isb .absX)] ∧
    ∀ (s : State) (m : DataMode), s.atBoundary = true → s.params.undocSupport = true → Memory.wf s.mem = true →
      let a := s.cpu.regs.a
      let v := s.operandByte (.mem m)
      let e := s.noEffect (1 + m.operandCount) (rmwCycles m)
      let rotated := v >>> 1 ||| BitVec.ofNat 8 s.carryIn <<< 7
      let out := (v.getLsbD 0).toNat
      Performs s (.rra m)
        { e with
          a := BitVec.ofNat 8 (a.toNat + rotated.toNat + out)
          stores := [(s.effectiveAddress m, rotated)]
          flags := adcFlags a rotated out } (s.rmwTrace m rotated) ∧
      Performs s (.dcp m) { e with stores := [(s.effectiveAddress m, v - 1#8)], flags := compareFlags a (v - 1#8) }
        (s.rmwTrace m (v - 1#8)) ∧
      Performs s (.isb m)
        { e with
          a := BitVec.ofInt 8 (a.toInt - (v + 1#8).toInt - (1 - s.carryIn))
          stores := [(s.effectiveAddress m, v + 1#8)]
          flags := sbcFlags a (v + 1#8) s.carryIn } (s.rmwTrace m (v + 1#8))

/-- The length of an instruction (R131 and R143, which the spec marks as derived; C7), and progress: no opcode blocks. -/
def Obligations.StepTakesTwoToEightCycles : Prop :=
  ∀ s : State, s.atBoundary = true →
    (∃ t, step s = .next t ∧ t.cpu.cyc = s.cpu.cyc + BitVec.ofNat 64 s.busTrace.length ∧
        2 ≤ s.busTrace.length ∧ s.busTrace.length ≤ 8 ∧
        ((decodeOpcode s.fetchByte).opClass = .documented → s.busTrace.length ≤ 7)) ∨
      (step s = .fault (.unimplementedOpcode s.fetchByte) ∧
        ((decodeOpcode s.fetchByte).opClass = .unimplemented ∨
          ((decodeOpcode s.fetchByte).opClass = .undocumented ∧ s.params.undocSupport = false)))

/-- The program-counter property (R142, which the spec marks as derived). -/
def Obligations.PcAdvancesByTheLength : Prop :=
  ∀ (i : Instr) (s t : State), s.atBoundary = true → i.transfersControl = false → exec i s = .next t →
    t.cpu.regs.pc = s.cpu.regs.pc + BitVec.ofNat 16 i.length

/-- Who writes what: the tables of R23 and R26, and the writers of `sp` (R24), over all instructions at once. -/
def Obligations.OnlyWritersWrite : Prop :=
  ∀ (i : Instr) (s t : State), s.atBoundary = true → exec i s = .next t →
    (i.writesA = false → t.cpu.regs.a = s.cpu.regs.a) ∧ (i.writesX = false → t.cpu.regs.x = s.cpu.regs.x) ∧
      (i.writesY = false → t.cpu.regs.y = s.cpu.regs.y) ∧ (i.writesSp = false → t.cpu.regs.sp = s.cpu.regs.sp) ∧
      (i.writesV = false → t.cpu.regs.p.getLsbD 6 = s.cpu.regs.p.getLsbD 6) ∧
      (i.writesD = false → t.cpu.regs.p.getLsbD 3 = s.cpu.regs.p.getLsbD 3) ∧
      (i.writesI = false → t.cpu.regs.p.getLsbD 2 = s.cpu.regs.p.getLsbD 2) ∧
      (i.writesC = false → t.cpu.regs.p.getLsbD 0 = s.cpu.regs.p.getLsbD 0) ∧
      (i.writesMemory = false → t.mem = s.mem)

/-- The stack (R24, whose wrap the spec marks as derived, and R25), with what each push and pull moves it by (PHA, PHP, PLA and
PLP R365 to R368; JSR R335, RTS R341, BRK R348, RTI R354) and the transfers TSX and TXS (R250, R251). -/
def Obligations.StackStaysInPageOne : Prop :=
  (∀ s : State, s.atBoundary = true →
      (∀ r ∈ [((.pha : Instr), 1), (.php, 1), (.jsr, 2), (.brk, 3)],
        ∃ t, exec r.1 s = .next t ∧ t.cpu.regs.sp = s.cpu.regs.sp - BitVec.ofNat 8 r.2 ∧
          ∀ ad, ad ∉ (List.range r.2).map (fun k => stackAddr (s.cpu.regs.sp - BitVec.ofNat 8 k)) →
            Memory.read t.mem ad = Memory.read s.mem ad) ∧
      (∀ r ∈ [((.pla : Instr), 1), (.plp, 1), (.rts, 2), (.rti, 3)],
        ∃ t, exec r.1 s = .next t ∧ t.cpu.regs.sp = s.cpu.regs.sp + BitVec.ofNat 8 r.2 ∧ t.mem = s.mem)) ∧
    (∀ (i : Instr) (s t : State), s.atBoundary = true → i ∈ [.pha, .php, .jsr, .brk] → exec i s = .next t →
      ∀ ad, (ad.toNat < 0x100 ∨ 0x1FF < ad.toNat) → Memory.read t.mem ad = Memory.read s.mem ad) ∧
    (∀ sp : Byte, stackAddr sp = 0x0100#16 ||| sp.zeroExtend 16 ∧ 0x100 ≤ (stackAddr sp).toNat ∧
      (stackAddr sp).toNat ≤ 0x1FF) ∧
    (∀ s : State, s.atBoundary = true → s.cpu.regs.sp = 0x00#8 →
      ∀ r ∈ [((.pha : Instr), s.cpu.regs.a), (.php, s.cpu.regs.p ||| 0x30#8)],
        ∃ t, exec r.1 s = .next t ∧ t.cpu.regs.sp = 0xFF#8 ∧
          (Memory.wf s.mem = true → Memory.read t.mem 0x0100#16 = r.2)) ∧
    (∀ (i : Instr) (s t : State), s.atBoundary = true → exec i s = .next t →
      i ∉ [.txs, .pha, .php, .pla, .plp, .jsr, .rts, .brk, .rti] → t.cpu.regs.sp = s.cpu.regs.sp) ∧
    (∀ s t : State, s.atBoundary = true →
      (exec .txs s = .next t → t.cpu.regs.sp = s.cpu.regs.x) ∧ (exec .tsx s = .next t → t.cpu.regs.x = s.cpu.regs.sp))

/-- R182, which the spec marks as derived: one row per mode and kind, and the kinds of R160 over every constructor they have. -/
def Obligations.BusTracesOfTheModes : Prop :=
  ∀ (s : State) (i : Instr), s.atBoundary = true → decodeOpcode s.fetchByte = i →
    (i.opClass = .undocumented → s.params.undocSupport = true) →
    let v := fun m : DataMode => s.operandByte (.mem m)
    let c := BitVec.ofNat 8 s.carryIn
    ((i ∈ [.tax, .tay, .txa, .tya, .tsx, .txs, .inx, .iny, .dex, .dey, .asl .acc, .lsr .acc, .rol .acc, .ror .acc, .clc,
        .sec, .cli, .sei, .clv, .cld, .sed, .nop] ∨ ∃ k, i = .nopImplied k) →
      s.busTrace = s.shortTrace ∧ s.busTrace.length = 2) ∧
    (∀ m : ReadMode,
      i ∈ [.lda m, .ldx m, .ldy m, .ora m, .and m, .eor m, .adc m, .sbc m, .cmp m, .cpx m, .cpy m] ∨
        (m = .imm ∧ (i = .sbcDup ∨ ∃ k, i = .nopImm k)) ∨ (m = .mem .zp ∧ ∃ k, i = .nopZp k) ∨
        (m = .mem .zpX ∧ ∃ k, i = .nopZpX k) ∨ (m = .mem .abs ∧ i = .nopAbs) ∨
        (m = .mem .absX ∧ ∃ k, i = .nopAbsX k) →
      s.busTrace = s.readTrace m ∧ s.busTrace.length = s.readCycles m) ∧
    (∀ m : DataMode, i ∈ [.bit m, .lax m] →
      s.busTrace = s.readTrace (.mem m) ∧ s.busTrace.length = s.readCycles (.mem m)) ∧
    (∀ (m : DataMode) (stored : Byte),
      (i, stored) ∈ [(.sta m, s.cpu.regs.a), (.stx m, s.cpu.regs.x), (.sty m, s.cpu.regs.y),
        (.sax m, s.cpu.regs.a &&& s.cpu.regs.x)] →
      s.busTrace = s.writeTrace m stored ∧ s.busTrace.length = writeCycles m) ∧
    (∀ (m : DataMode) (result : Byte),
      (i, result) ∈ [(.inc m, v m + 1#8), (.dec m, v m - 1#8), (.asl (.mem m), v m <<< 1), (.lsr (.mem m), v m >>> 1),
        (.rol (.mem m), v m <<< 1 ||| c), (.ror (.mem m), v m >>> 1 ||| c <<< 7), (.slo m, v m <<< 1),
        (.rla m, v m <<< 1 ||| c), (.sre m, v m >>> 1), (.rra m, v m >>> 1 ||| c <<< 7), (.dcp m, v m - 1#8),
        (.isb m, v m + 1#8)] →
      s.busTrace = s.rmwTrace m result ∧ s.busTrace.length = rmwCycles m)

/-- The plain RAM (R64) as canonical data, which is the model's representation. The last clause is the model's choice of what
a byte that nothing has written reads as (log 4, DESIGN CHOICE). -/
def Obligations.MemoriesThatAgreeAreEqual : Prop :=
  (∀ m m' : Memory, m.wf = true → m'.wf = true → (∀ ad, Memory.read m ad = Memory.read m' ad) → m = m') ∧
    (∀ (m : Memory) (ad ad' : Addr) (v : Byte), m.wf = true →
      (Memory.write m ad v).wf = true ∧
        Memory.read (Memory.write m ad v) ad' = if ad' = ad then v else Memory.read m ad') ∧
    (∀ (m : Memory) (ad : Addr), m.wf = true → Memory.write m ad (Memory.read m ad) = m) ∧
    (∀ ad : Addr, Memory.read State.reset.mem ad = Config.unlistedByte)
end

