-- ==== Sys2Proof/Laws/Bits.lean ====
section
/-! SUPPORT. The laws of the byte and address operators, and of an indexed address's page fix-up. -/

namespace Sys2Proof.Machine

theorem cat_toNat (hi lo : Byte) : (cat hi lo).toNat = hi.toNat * 256 + lo.toNat := by
  have := lo.isLt
  simp only [cat, BitVec.toNat_append]
  rw [Nat.shiftLeft_eq, ← Nat.shiftLeft_eq, ← Nat.shiftLeft_add_eq_or_of_lt (by omega), Nat.shiftLeft_eq]

theorem loByte_toNat (v : Addr) : (loByte v).toNat = v.toNat % 256 := by
  simp [loByte, BitVec.extractLsb'_toNat]

theorem hiByte_toNat (v : Addr) : (hiByte v).toNat = v.toNat / 256 := by
  have := v.isLt
  simp [hiByte, BitVec.extractLsb'_toNat, Nat.shiftRight_eq_div_pow]
  omega

theorem zext16_toNat (v : Byte) : (zext16 v).toNat = v.toNat := by
  have := v.isLt
  simp [zext16, BitVec.toNat_setWidth]
  omega

@[simp] theorem loByte_cat (hi lo : Byte) : loByte (cat hi lo) = lo := by
  apply BitVec.eq_of_toNat_eq
  have := lo.isLt
  rw [loByte_toNat, cat_toNat]
  omega

@[simp] theorem hiByte_cat (hi lo : Byte) : hiByte (cat hi lo) = hi := by
  apply BitVec.eq_of_toNat_eq
  have := lo.isLt
  rw [hiByte_toNat, cat_toNat]
  omega

@[simp] theorem cat_hiByte_loByte (v : Addr) : cat (hiByte v) (loByte v) = v := by
  apply BitVec.eq_of_toNat_eq
  rw [cat_toNat, hiByte_toNat, loByte_toNat]
  omega

@[simp] theorem loByte_zext16 (v : Byte) : loByte (zext16 v) = v := by
  apply BitVec.eq_of_toNat_eq
  have := v.isLt
  rw [loByte_toNat, zext16_toNat]
  omega

/-- `carriesOut` is bit 8 of the 9-bit sum (R161). -/
theorem carriesOut_iff (lo i : Byte) : carriesOut lo i = decide (256 ≤ lo.toNat + i.toNat) := by
  have := lo.isLt
  have := i.isLt
  simp only [carriesOut, BitVec.msb_eq_decide, BitVec.toNat_add, BitVec.toNat_setWidth, BitVec.truncate_eq_setWidth]
  congr 1
  simp only [eq_iff_iff]
  omega

@[simp] theorem pageCrossed_cat (hi lo i : Byte) : pageCrossed (cat hi lo) i = carriesOut lo i := by
  simp [pageCrossed]

/-- The page fix-up of R173: the un-fixed address plus the carry is the 16-bit sum. -/
theorem indexed_fix (hi lo i : Byte) :
    cat hi (lo + i) + (if carriesOut lo i then 0x0100#16 else 0x0000#16) = cat hi lo + zext16 i := by
  have := lo.isLt
  have := i.isLt
  have := hi.isLt
  apply BitVec.eq_of_toNat_eq
  by_cases hc : carriesOut lo i = true
  · simp only [hc, if_true]
    rw [carriesOut_iff] at hc
    simp only [decide_eq_true_eq] at hc
    rw [BitVec.toNat_add, BitVec.toNat_add, cat_toNat, cat_toNat, zext16_toNat, BitVec.toNat_add]
    simp only [BitVec.toNat_ofNat]
    omega
  · simp only [hc]
    rw [carriesOut_iff] at hc
    simp only [decide_eq_true_eq, Nat.not_le] at hc
    rw [BitVec.toNat_add, BitVec.toNat_add, cat_toNat, cat_toNat, zext16_toNat, BitVec.toNat_add]
    simp only [BitVec.toNat_ofNat, Bool.false_eq_true, if_false]
    omega

theorem indexed_crossing (hi lo i : Byte) (h : carriesOut lo i = true) :
    cat hi (lo + i) + 0x0100#16 = cat hi lo + zext16 i := by
  simpa [h] using indexed_fix hi lo i

theorem indexed_within (hi lo i : Byte) (h : carriesOut lo i = false) : cat hi (lo + i) = cat hi lo + zext16 i := by
  simpa [h] using indexed_fix hi lo i

/-- The stack lies in page 1 (10_state.md R24). -/
theorem stackAddr_eq_cat (s : Byte) : stackAddr s = cat 0x01#8 s := by
  revert s
  decide

theorem stackAddr_inj (s s' : Byte) (h : stackAddr s = stackAddr s') : s = s' := by
  rw [stackAddr_eq_cat, stackAddr_eq_cat] at h
  simpa using congrArg loByte h

end Sys2Proof.Machine
end

