-- ==== Sys2Proof/Laws/Memory.lean ====
section
/-! SUPPORT. The laws of the plain RAM: read after write, and that a write keeps the canonical form. -/

namespace Sys2Proof.Machine

theorem Memory.lookup_below (m : Memory) (lo k : Nat) (h : Memory.wfFrom lo m = true) (hk : k < lo) :
    Memory.lookup m k = Config.unlistedByte := by
  induction m generalizing lo with
  | nil => rfl
  | cons c t ih =>
    obtain ⟨k', v'⟩ := c
    simp only [Memory.wfFrom, Bool.and_eq_true, decide_eq_true_eq] at h
    have hne : k ≠ k' := by omega
    simp only [Memory.lookup, if_neg hne]
    exact ih (k' + 1) h.2 (by omega)

theorem Memory.lookup_insert_self (m : Memory) (lo k : Nat) (v : Byte) (h : Memory.wfFrom lo m = true) :
    Memory.lookup (Memory.insert m k v) k = v := by
  induction m generalizing lo with
  | nil =>
    simp only [Memory.insert]
    split <;> simp_all [Memory.lookup]
  | cons c t ih =>
    obtain ⟨k', v'⟩ := c
    simp only [Memory.wfFrom, Bool.and_eq_true, decide_eq_true_eq] at h
    simp only [Memory.insert]
    by_cases h1 : k < k'
    · simp only [if_pos h1]
      by_cases h2 : v = Config.unlistedByte
      · have hne : k ≠ k' := by omega
        simp only [if_pos h2, Memory.lookup, if_neg hne]
        exact (Memory.lookup_below t (k' + 1) k h.2 (by omega)).trans h2.symm
      · simp [if_neg h2, Memory.lookup]
    · simp only [if_neg h1]
      by_cases h2 : k = k'
      · subst h2
        by_cases h3 : v = Config.unlistedByte
        · simp only [if_pos h3, if_true]
          exact (Memory.lookup_below t (k + 1) k h.2 (by omega)).trans h3.symm
        · simp [if_neg h3, Memory.lookup]
      · simp only [if_neg h2, Memory.lookup]
        exact ih (k' + 1) h.2

/-- A write leaves every other address alone, in any list. -/
theorem Memory.lookup_insert_other (m : Memory) (k j : Nat) (v : Byte) (hj : j ≠ k) :
    Memory.lookup (Memory.insert m k v) j = Memory.lookup m j := by
  induction m with
  | nil =>
    simp only [Memory.insert]
    split <;> simp [Memory.lookup, hj]
  | cons c t ih =>
    obtain ⟨k', v'⟩ := c
    simp only [Memory.insert]
    split
    · split <;> simp [Memory.lookup, hj]
    · split
      · rename_i _ h2
        subst h2
        split <;> simp [Memory.lookup, hj]
      · simp [Memory.lookup, ih]

theorem Memory.insert_wfFrom (m : Memory) (lo k : Nat) (v : Byte) (h : Memory.wfFrom lo m = true) (hlo : lo ≤ k)
    (hk : k < 65536) : Memory.wfFrom lo (Memory.insert m k v) = true := by
  induction m generalizing lo with
  | nil =>
    simp only [Memory.insert]
    split <;> simp_all [Memory.wfFrom]
  | cons c t ih =>
    obtain ⟨k', v'⟩ := c
    simp only [Memory.insert]
    simp only [Memory.wfFrom, Bool.and_eq_true, decide_eq_true_eq, bne_iff_ne] at h
    split
    · split
      · simp_all [Memory.wfFrom]
      · simp only [Memory.wfFrom, Bool.and_eq_true, decide_eq_true_eq, bne_iff_ne]
        refine ⟨⟨⟨hlo, hk⟩, by assumption⟩, ⟨⟨by omega, h.1.1.2⟩, h.1.2⟩, h.2⟩
    · split
      · rename_i _ h2
        subst h2
        split
        · -- the entry is removed: the tail is canonical from a lower bound too
          cases t with
          | nil => rfl
          | cons c2 t2 =>
            obtain ⟨k2, v2⟩ := c2
            simp only [Memory.wfFrom, Bool.and_eq_true, decide_eq_true_eq, bne_iff_ne] at h ⊢
            refine ⟨⟨⟨by omega, h.2.1.1.2⟩, h.2.1.2⟩, h.2.2⟩
        · simp only [Memory.wfFrom, Bool.and_eq_true, decide_eq_true_eq, bne_iff_ne]
          exact ⟨⟨⟨hlo, hk⟩, by assumption⟩, h.2⟩
      · simp only [Memory.wfFrom, Bool.and_eq_true, decide_eq_true_eq, bne_iff_ne]
        exact ⟨h.1, ih (k' + 1) h.2 (by omega)⟩

/-! The laws of `read` and `write`. -/

/-- A read after a write to the same address gives the byte written. -/
theorem Memory.read_write_same (m : Memory) (ad : Addr) (v : Byte) (h : m.wf = true) :
    Memory.read (Memory.write m ad v) ad = v := Memory.lookup_insert_self m 0 ad.toNat v h

/-- A write leaves every other address alone. -/
theorem Memory.read_write_other (m : Memory) (ad ad' : Addr) (v : Byte) (hne : ad' ≠ ad) :
    Memory.read (Memory.write m ad v) ad' = Memory.read m ad' :=
  Memory.lookup_insert_other m ad.toNat ad'.toNat v (fun e => hne (BitVec.eq_of_toNat_eq e))

/-- Every address after a write. -/
theorem Memory.read_write (m : Memory) (ad ad' : Addr) (v : Byte) (h : m.wf = true) :
    Memory.read (Memory.write m ad v) ad' = if ad' = ad then v else Memory.read m ad' := by
  split
  · rename_i e
    rw [e]
    exact Memory.read_write_same m ad v h
  · rename_i e
    exact Memory.read_write_other m ad ad' v e

/-- A write keeps the canonical form. -/
theorem Memory.write_wf (m : Memory) (ad : Addr) (v : Byte) (h : m.wf = true) : (Memory.write m ad v).wf = true :=
  Memory.insert_wfFrom m 0 ad.toNat v h (Nat.zero_le _) ad.isLt

@[simp] theorem Memory.nil_wf : Memory.wf [] = true := rfl

@[simp] theorem Memory.read_nil (ad : Addr) : Memory.read [] ad = Config.unlistedByte := rfl

/-- Storing a list of bytes keeps the canonical form. -/
theorem storeBytes_wf (bs : List Byte) (m : Memory) (ad : Addr) (h : m.wf = true) : (storeBytes m ad bs).wf = true := by
  induction bs generalizing m ad with
  | nil => exact h
  | cons b bs ih => exact ih _ _ (Memory.write_wf m ad b h)

/-- Two canonical memories that agree at every listed key are equal: equal memories are equal data. -/
theorem Memory.eq_of_lookup (m m' : Memory) (lo : Nat) (h : Memory.wfFrom lo m = true)
    (h' : Memory.wfFrom lo m' = true) (e : ∀ k, Memory.lookup m k = Memory.lookup m' k) : m = m' := by
  induction m generalizing m' lo with
  | nil =>
    cases m' with
    | nil => rfl
    | cons c t =>
      obtain ⟨k, v⟩ := c
      have hk := e k
      simp only [Memory.wfFrom, Bool.and_eq_true, bne_iff_ne] at h'
      simp only [Memory.lookup, if_true] at hk
      exact absurd hk.symm h'.1.2
  | cons c t ih =>
    obtain ⟨k, v⟩ := c
    have h0 := h
    simp only [Memory.wfFrom, Bool.and_eq_true, decide_eq_true_eq, bne_iff_ne] at h
    cases m' with
    | nil =>
      have hk := e k
      simp only [Memory.lookup, if_true] at hk
      exact absurd hk h.1.2
    | cons c' t' =>
      obtain ⟨k', v'⟩ := c'
      have h0' := h'
      simp only [Memory.wfFrom, Bool.and_eq_true, decide_eq_true_eq, bne_iff_ne] at h'
      have hkk : k = k' := by
        rcases Nat.lt_trichotomy k k' with hl | hl | hl
        · have hk := e k
          have hne : k ≠ k' := by omega
          simp only [Memory.lookup, if_true, if_neg hne] at hk
          rw [Memory.lookup_below t' (k' + 1) k h'.2 (by omega)] at hk
          exact absurd hk h.1.2
        · exact hl
        · have hk := e k'
          have hne : k' ≠ k := by omega
          simp only [Memory.lookup, if_true, if_neg hne] at hk
          rw [Memory.lookup_below t (k + 1) k' h.2 (by omega)] at hk
          exact absurd hk.symm h'.1.2
      subst hkk
      have hv : v = v' := by simpa [Memory.lookup] using e k
      subst hv
      congr 1
      refine ih t' (k + 1) h.2 h'.2 fun j => ?_
      by_cases hj : j = k
      · subst hj
        rw [Memory.lookup_below t (j + 1) j h.2 (by omega), Memory.lookup_below t' (j + 1) j h'.2 (by omega)]
      · simpa [Memory.lookup, hj] using e j

end Sys2Proof.Machine
end

