-- ==== Sys2Proof/Laws/State.lean ====
section
/-! SUPPORT. One lemma per field per update of the core, each true by unfolding, so that no later proof opens a record
update; and what the register-file helpers leave alone. -/

namespace Sys2Proof.Machine

variable (c : Cpu) (r : Regs)

/-! `rd`. -/

@[simp] theorem Cpu.rd_regs (ad : Addr) : (c.rd ad).regs = c.regs := rfl
@[simp] theorem Cpu.rd_ir (ad : Addr) : (c.rd ad).ir = c.ir := rfl
@[simp] theorem Cpu.rd_pd (ad : Addr) : (c.rd ad).pd = c.pd := rfl
@[simp] theorem Cpu.rd_addrBus (ad : Addr) : (c.rd ad).addrBus = ad := rfl
@[simp] theorem Cpu.rd_dataBus (ad : Addr) : (c.rd ad).dataBus = c.dataBus := rfl
@[simp] theorem Cpu.rd_readIntent (ad : Addr) : (c.rd ad).readIntent = true := rfl
@[simp] theorem Cpu.rd_tcu (ad : Addr) : (c.rd ad).tcu = c.tcu := rfl
@[simp] theorem Cpu.rd_cyc (ad : Addr) : (c.rd ad).cyc = c.cyc := rfl
@[simp] theorem Cpu.rd_nextMicroOp (ad : Addr) : (c.rd ad).nextMicroOp = c.nextMicroOp := rfl
@[simp] theorem Cpu.rd_jsrLo (ad : Addr) : (c.rd ad).jsrLo = c.jsrLo := rfl

/-! `wr`. -/

@[simp] theorem Cpu.wr_regs (ad : Addr) (v : Byte) : (c.wr ad v).regs = c.regs := rfl
@[simp] theorem Cpu.wr_ir (ad : Addr) (v : Byte) : (c.wr ad v).ir = c.ir := rfl
@[simp] theorem Cpu.wr_pd (ad : Addr) (v : Byte) : (c.wr ad v).pd = c.pd := rfl
@[simp] theorem Cpu.wr_addrBus (ad : Addr) (v : Byte) : (c.wr ad v).addrBus = ad := rfl
@[simp] theorem Cpu.wr_dataBus (ad : Addr) (v : Byte) : (c.wr ad v).dataBus = v := rfl
@[simp] theorem Cpu.wr_readIntent (ad : Addr) (v : Byte) : (c.wr ad v).readIntent = false := rfl
@[simp] theorem Cpu.wr_tcu (ad : Addr) (v : Byte) : (c.wr ad v).tcu = c.tcu := rfl
@[simp] theorem Cpu.wr_cyc (ad : Addr) (v : Byte) : (c.wr ad v).cyc = c.cyc := rfl
@[simp] theorem Cpu.wr_nextMicroOp (ad : Addr) (v : Byte) : (c.wr ad v).nextMicroOp = c.nextMicroOp := rfl
@[simp] theorem Cpu.wr_jsrLo (ad : Addr) (v : Byte) : (c.wr ad v).jsrLo = c.jsrLo := rfl

/-! `goto`. -/

@[simp] theorem Cpu.goto_regs (m : MicroOp) : (c.goto m).regs = c.regs := rfl
@[simp] theorem Cpu.goto_ir (m : MicroOp) : (c.goto m).ir = c.ir := rfl
@[simp] theorem Cpu.goto_pd (m : MicroOp) : (c.goto m).pd = c.pd := rfl
@[simp] theorem Cpu.goto_addrBus (m : MicroOp) : (c.goto m).addrBus = c.addrBus := rfl
@[simp] theorem Cpu.goto_dataBus (m : MicroOp) : (c.goto m).dataBus = c.dataBus := rfl
@[simp] theorem Cpu.goto_readIntent (m : MicroOp) : (c.goto m).readIntent = c.readIntent := rfl
@[simp] theorem Cpu.goto_tcu (m : MicroOp) : (c.goto m).tcu = c.tcu := rfl
@[simp] theorem Cpu.goto_cyc (m : MicroOp) : (c.goto m).cyc = c.cyc := rfl
@[simp] theorem Cpu.goto_nextMicroOp (m : MicroOp) : (c.goto m).nextMicroOp = m := rfl
@[simp] theorem Cpu.goto_jsrLo (m : MicroOp) : (c.goto m).jsrLo = c.jsrLo := rfl

/-! `finish`. -/

@[simp] theorem Cpu.finish_regs : c.finish.regs = c.regs := rfl
@[simp] theorem Cpu.finish_ir : c.finish.ir = c.ir := rfl
@[simp] theorem Cpu.finish_pd : c.finish.pd = c.pd := rfl
@[simp] theorem Cpu.finish_addrBus : c.finish.addrBus = c.regs.pc := rfl
@[simp] theorem Cpu.finish_dataBus : c.finish.dataBus = c.dataBus := rfl
@[simp] theorem Cpu.finish_readIntent : c.finish.readIntent = true := rfl
@[simp] theorem Cpu.finish_tcu : c.finish.tcu = 0#8 := rfl
@[simp] theorem Cpu.finish_cyc : c.finish.cyc = c.cyc := rfl
@[simp] theorem Cpu.finish_nextMicroOp : c.finish.nextMicroOp = .fetchOpcode := rfl
@[simp] theorem Cpu.finish_jsrLo : c.finish.jsrLo = c.jsrLo := rfl

/-! `setPc`. -/

@[simp] theorem Cpu.setPc_regs (v : Addr) : (c.setPc v).regs = { c.regs with pc := v } := rfl
@[simp] theorem Cpu.setPc_ir (v : Addr) : (c.setPc v).ir = c.ir := rfl
@[simp] theorem Cpu.setPc_pd (v : Addr) : (c.setPc v).pd = c.pd := rfl
@[simp] theorem Cpu.setPc_addrBus (v : Addr) : (c.setPc v).addrBus = c.addrBus := rfl
@[simp] theorem Cpu.setPc_dataBus (v : Addr) : (c.setPc v).dataBus = c.dataBus := rfl
@[simp] theorem Cpu.setPc_readIntent (v : Addr) : (c.setPc v).readIntent = c.readIntent := rfl
@[simp] theorem Cpu.setPc_tcu (v : Addr) : (c.setPc v).tcu = c.tcu := rfl
@[simp] theorem Cpu.setPc_cyc (v : Addr) : (c.setPc v).cyc = c.cyc := rfl
@[simp] theorem Cpu.setPc_nextMicroOp (v : Addr) : (c.setPc v).nextMicroOp = c.nextMicroOp := rfl
@[simp] theorem Cpu.setPc_jsrLo (v : Addr) : (c.setPc v).jsrLo = c.jsrLo := rfl

/-! `incPc`. -/

@[simp] theorem Cpu.incPc_regs : c.incPc.regs = { c.regs with pc := c.regs.pc + 1#16 } := rfl
@[simp] theorem Cpu.incPc_ir : c.incPc.ir = c.ir := rfl
@[simp] theorem Cpu.incPc_pd : c.incPc.pd = c.pd := rfl
@[simp] theorem Cpu.incPc_addrBus : c.incPc.addrBus = c.addrBus := rfl
@[simp] theorem Cpu.incPc_dataBus : c.incPc.dataBus = c.dataBus := rfl
@[simp] theorem Cpu.incPc_readIntent : c.incPc.readIntent = c.readIntent := rfl
@[simp] theorem Cpu.incPc_tcu : c.incPc.tcu = c.tcu := rfl
@[simp] theorem Cpu.incPc_cyc : c.incPc.cyc = c.cyc := rfl
@[simp] theorem Cpu.incPc_nextMicroOp : c.incPc.nextMicroOp = c.nextMicroOp := rfl
@[simp] theorem Cpu.incPc_jsrLo : c.incPc.jsrLo = c.jsrLo := rfl

/-! `setSp`. -/

@[simp] theorem Cpu.setSp_regs (v : Byte) : (c.setSp v).regs = { c.regs with sp := v } := rfl
@[simp] theorem Cpu.setSp_ir (v : Byte) : (c.setSp v).ir = c.ir := rfl
@[simp] theorem Cpu.setSp_pd (v : Byte) : (c.setSp v).pd = c.pd := rfl
@[simp] theorem Cpu.setSp_addrBus (v : Byte) : (c.setSp v).addrBus = c.addrBus := rfl
@[simp] theorem Cpu.setSp_dataBus (v : Byte) : (c.setSp v).dataBus = c.dataBus := rfl
@[simp] theorem Cpu.setSp_readIntent (v : Byte) : (c.setSp v).readIntent = c.readIntent := rfl
@[simp] theorem Cpu.setSp_tcu (v : Byte) : (c.setSp v).tcu = c.tcu := rfl
@[simp] theorem Cpu.setSp_cyc (v : Byte) : (c.setSp v).cyc = c.cyc := rfl
@[simp] theorem Cpu.setSp_nextMicroOp (v : Byte) : (c.setSp v).nextMicroOp = c.nextMicroOp := rfl
@[simp] theorem Cpu.setSp_jsrLo (v : Byte) : (c.setSp v).jsrLo = c.jsrLo := rfl

/-! `decSp`. -/

@[simp] theorem Cpu.decSp_regs : c.decSp.regs = { c.regs with sp := c.regs.sp - 1#8 } := rfl
@[simp] theorem Cpu.decSp_ir : c.decSp.ir = c.ir := rfl
@[simp] theorem Cpu.decSp_pd : c.decSp.pd = c.pd := rfl
@[simp] theorem Cpu.decSp_addrBus : c.decSp.addrBus = c.addrBus := rfl
@[simp] theorem Cpu.decSp_dataBus : c.decSp.dataBus = c.dataBus := rfl
@[simp] theorem Cpu.decSp_readIntent : c.decSp.readIntent = c.readIntent := rfl
@[simp] theorem Cpu.decSp_tcu : c.decSp.tcu = c.tcu := rfl
@[simp] theorem Cpu.decSp_cyc : c.decSp.cyc = c.cyc := rfl
@[simp] theorem Cpu.decSp_nextMicroOp : c.decSp.nextMicroOp = c.nextMicroOp := rfl
@[simp] theorem Cpu.decSp_jsrLo : c.decSp.jsrLo = c.jsrLo := rfl

/-! `incSp`. -/

@[simp] theorem Cpu.incSp_regs : c.incSp.regs = { c.regs with sp := c.regs.sp + 1#8 } := rfl
@[simp] theorem Cpu.incSp_ir : c.incSp.ir = c.ir := rfl
@[simp] theorem Cpu.incSp_pd : c.incSp.pd = c.pd := rfl
@[simp] theorem Cpu.incSp_addrBus : c.incSp.addrBus = c.addrBus := rfl
@[simp] theorem Cpu.incSp_dataBus : c.incSp.dataBus = c.dataBus := rfl
@[simp] theorem Cpu.incSp_readIntent : c.incSp.readIntent = c.readIntent := rfl
@[simp] theorem Cpu.incSp_tcu : c.incSp.tcu = c.tcu := rfl
@[simp] theorem Cpu.incSp_cyc : c.incSp.cyc = c.cyc := rfl
@[simp] theorem Cpu.incSp_nextMicroOp : c.incSp.nextMicroOp = c.nextMicroOp := rfl
@[simp] theorem Cpu.incSp_jsrLo : c.incSp.jsrLo = c.jsrLo := rfl

/-! `onRegs`. -/

@[simp] theorem Cpu.onRegs_regs (f : Regs → Regs) : (c.onRegs f).regs = f c.regs := rfl
@[simp] theorem Cpu.onRegs_ir (f : Regs → Regs) : (c.onRegs f).ir = c.ir := rfl
@[simp] theorem Cpu.onRegs_pd (f : Regs → Regs) : (c.onRegs f).pd = c.pd := rfl
@[simp] theorem Cpu.onRegs_addrBus (f : Regs → Regs) : (c.onRegs f).addrBus = c.addrBus := rfl
@[simp] theorem Cpu.onRegs_dataBus (f : Regs → Regs) : (c.onRegs f).dataBus = c.dataBus := rfl
@[simp] theorem Cpu.onRegs_readIntent (f : Regs → Regs) : (c.onRegs f).readIntent = c.readIntent := rfl
@[simp] theorem Cpu.onRegs_tcu (f : Regs → Regs) : (c.onRegs f).tcu = c.tcu := rfl
@[simp] theorem Cpu.onRegs_cyc (f : Regs → Regs) : (c.onRegs f).cyc = c.cyc := rfl
@[simp] theorem Cpu.onRegs_nextMicroOp (f : Regs → Regs) : (c.onRegs f).nextMicroOp = c.nextMicroOp := rfl
@[simp] theorem Cpu.onRegs_jsrLo (f : Regs → Regs) : (c.onRegs f).jsrLo = c.jsrLo := rfl

/-! `rdPc`. -/

@[simp] theorem Cpu.rdPc_regs : c.rdPc.regs = c.regs := rfl
@[simp] theorem Cpu.rdPc_ir : c.rdPc.ir = c.ir := rfl
@[simp] theorem Cpu.rdPc_pd : c.rdPc.pd = c.pd := rfl
@[simp] theorem Cpu.rdPc_addrBus : c.rdPc.addrBus = c.regs.pc := rfl
@[simp] theorem Cpu.rdPc_dataBus : c.rdPc.dataBus = c.dataBus := rfl
@[simp] theorem Cpu.rdPc_readIntent : c.rdPc.readIntent = true := rfl
@[simp] theorem Cpu.rdPc_tcu : c.rdPc.tcu = c.tcu := rfl
@[simp] theorem Cpu.rdPc_cyc : c.rdPc.cyc = c.cyc := rfl
@[simp] theorem Cpu.rdPc_nextMicroOp : c.rdPc.nextMicroOp = c.nextMicroOp := rfl
@[simp] theorem Cpu.rdPc_jsrLo : c.rdPc.jsrLo = c.jsrLo := rfl

/-! `rdStack`. -/

@[simp] theorem Cpu.rdStack_regs : c.rdStack.regs = c.regs := rfl
@[simp] theorem Cpu.rdStack_ir : c.rdStack.ir = c.ir := rfl
@[simp] theorem Cpu.rdStack_pd : c.rdStack.pd = c.pd := rfl
@[simp] theorem Cpu.rdStack_addrBus : c.rdStack.addrBus = stackAddr c.regs.sp := rfl
@[simp] theorem Cpu.rdStack_dataBus : c.rdStack.dataBus = c.dataBus := rfl
@[simp] theorem Cpu.rdStack_readIntent : c.rdStack.readIntent = true := rfl
@[simp] theorem Cpu.rdStack_tcu : c.rdStack.tcu = c.tcu := rfl
@[simp] theorem Cpu.rdStack_cyc : c.rdStack.cyc = c.cyc := rfl
@[simp] theorem Cpu.rdStack_nextMicroOp : c.rdStack.nextMicroOp = c.nextMicroOp := rfl
@[simp] theorem Cpu.rdStack_jsrLo : c.rdStack.jsrLo = c.jsrLo := rfl

/-! `wrStack`. -/

@[simp] theorem Cpu.wrStack_regs (v : Byte) : (c.wrStack v).regs = c.regs := rfl
@[simp] theorem Cpu.wrStack_ir (v : Byte) : (c.wrStack v).ir = c.ir := rfl
@[simp] theorem Cpu.wrStack_pd (v : Byte) : (c.wrStack v).pd = c.pd := rfl
@[simp] theorem Cpu.wrStack_addrBus (v : Byte) : (c.wrStack v).addrBus = stackAddr c.regs.sp := rfl
@[simp] theorem Cpu.wrStack_dataBus (v : Byte) : (c.wrStack v).dataBus = v := rfl
@[simp] theorem Cpu.wrStack_readIntent (v : Byte) : (c.wrStack v).readIntent = false := rfl
@[simp] theorem Cpu.wrStack_tcu (v : Byte) : (c.wrStack v).tcu = c.tcu := rfl
@[simp] theorem Cpu.wrStack_cyc (v : Byte) : (c.wrStack v).cyc = c.cyc := rfl
@[simp] theorem Cpu.wrStack_nextMicroOp (v : Byte) : (c.wrStack v).nextMicroOp = c.nextMicroOp := rfl
@[simp] theorem Cpu.wrStack_jsrLo (v : Byte) : (c.wrStack v).jsrLo = c.jsrLo := rfl

/-! `loadPc`. -/

@[simp] theorem Cpu.loadPc_regs : c.loadPc.regs = { c.regs with pc := cat c.dataBus c.pd } := rfl
@[simp] theorem Cpu.loadPc_ir : c.loadPc.ir = c.ir := rfl
@[simp] theorem Cpu.loadPc_pd : c.loadPc.pd = c.pd := rfl
@[simp] theorem Cpu.loadPc_addrBus : c.loadPc.addrBus = c.addrBus := rfl
@[simp] theorem Cpu.loadPc_dataBus : c.loadPc.dataBus = c.dataBus := rfl
@[simp] theorem Cpu.loadPc_readIntent : c.loadPc.readIntent = c.readIntent := rfl
@[simp] theorem Cpu.loadPc_tcu : c.loadPc.tcu = c.tcu := rfl
@[simp] theorem Cpu.loadPc_cyc : c.loadPc.cyc = c.cyc := rfl
@[simp] theorem Cpu.loadPc_nextMicroOp : c.loadPc.nextMicroOp = c.nextMicroOp := rfl
@[simp] theorem Cpu.loadPc_jsrLo : c.loadPc.jsrLo = c.jsrLo := rfl

/-! `tick`. -/

@[simp] theorem Cpu.tick_regs : c.tick.regs = c.regs := rfl
@[simp] theorem Cpu.tick_ir : c.tick.ir = c.ir := rfl
@[simp] theorem Cpu.tick_pd : c.tick.pd = c.dataBus := rfl
@[simp] theorem Cpu.tick_addrBus : c.tick.addrBus = c.addrBus := rfl
@[simp] theorem Cpu.tick_dataBus : c.tick.dataBus = c.dataBus := rfl
@[simp] theorem Cpu.tick_readIntent : c.tick.readIntent = c.readIntent := rfl
@[simp] theorem Cpu.tick_tcu : c.tick.tcu = c.tcu + 1#8 := rfl
@[simp] theorem Cpu.tick_cyc : c.tick.cyc = c.cyc + 1#64 := rfl
@[simp] theorem Cpu.tick_nextMicroOp : c.tick.nextMicroOp = c.nextMicroOp := rfl
@[simp] theorem Cpu.tick_jsrLo : c.tick.jsrLo = c.jsrLo := rfl

/-! `resetTo`. -/

@[simp] theorem Cpu.resetTo_regs (lo hi : Byte) : (c.resetTo lo hi).regs = { c.regs.resetP with pc := cat hi lo } := rfl
@[simp] theorem Cpu.resetTo_ir (lo hi : Byte) : (c.resetTo lo hi).ir = c.ir := rfl
@[simp] theorem Cpu.resetTo_pd (lo hi : Byte) : (c.resetTo lo hi).pd = c.pd := rfl
@[simp] theorem Cpu.resetTo_addrBus (lo hi : Byte) : (c.resetTo lo hi).addrBus = cat hi lo := rfl
@[simp] theorem Cpu.resetTo_dataBus (lo hi : Byte) : (c.resetTo lo hi).dataBus = c.dataBus := rfl
@[simp] theorem Cpu.resetTo_readIntent (lo hi : Byte) : (c.resetTo lo hi).readIntent = true := rfl
@[simp] theorem Cpu.resetTo_tcu (lo hi : Byte) : (c.resetTo lo hi).tcu = 0#8 := rfl
@[simp] theorem Cpu.resetTo_cyc (lo hi : Byte) : (c.resetTo lo hi).cyc = c.cyc := rfl
@[simp] theorem Cpu.resetTo_nextMicroOp (lo hi : Byte) : (c.resetTo lo hi).nextMicroOp = .fetchOpcode := rfl
@[simp] theorem Cpu.resetTo_jsrLo (lo hi : Byte) : (c.resetTo lo hi).jsrLo = c.jsrLo := rfl

/-! The register file: a flag update touches `p` alone. -/

@[simp] theorem Regs.setFlag_pc (f : Flag) (b : Bool) : (r.setFlag f b).pc = r.pc := rfl
@[simp] theorem Regs.setFlag_a (f : Flag) (b : Bool) : (r.setFlag f b).a = r.a := rfl
@[simp] theorem Regs.setFlag_x (f : Flag) (b : Bool) : (r.setFlag f b).x = r.x := rfl
@[simp] theorem Regs.setFlag_y (f : Flag) (b : Bool) : (r.setFlag f b).y = r.y := rfl
@[simp] theorem Regs.setFlag_sp (f : Flag) (b : Bool) : (r.setFlag f b).sp = r.sp := rfl
@[simp] theorem Regs.updateNz_pc (v : Byte) : (r.updateNz v).pc = r.pc := rfl
@[simp] theorem Regs.updateNz_a (v : Byte) : (r.updateNz v).a = r.a := rfl
@[simp] theorem Regs.updateNz_x (v : Byte) : (r.updateNz v).x = r.x := rfl
@[simp] theorem Regs.updateNz_y (v : Byte) : (r.updateNz v).y = r.y := rfl
@[simp] theorem Regs.updateNz_sp (v : Byte) : (r.updateNz v).sp = r.sp := rfl
@[simp] theorem Regs.compare_pc (g v : Byte) : (r.compare g v).pc = r.pc := rfl
@[simp] theorem Regs.compare_a (g v : Byte) : (r.compare g v).a = r.a := rfl
@[simp] theorem Regs.compare_x (g v : Byte) : (r.compare g v).x = r.x := rfl
@[simp] theorem Regs.compare_y (g v : Byte) : (r.compare g v).y = r.y := rfl
@[simp] theorem Regs.compare_sp (g v : Byte) : (r.compare g v).sp = r.sp := rfl
@[simp] theorem Regs.bitTest_pc (v : Byte) : (r.bitTest v).pc = r.pc := rfl
@[simp] theorem Regs.bitTest_a (v : Byte) : (r.bitTest v).a = r.a := rfl
@[simp] theorem Regs.bitTest_x (v : Byte) : (r.bitTest v).x = r.x := rfl
@[simp] theorem Regs.bitTest_y (v : Byte) : (r.bitTest v).y = r.y := rfl
@[simp] theorem Regs.bitTest_sp (v : Byte) : (r.bitTest v).sp = r.sp := rfl
@[simp] theorem Regs.pullP_pc (v : Byte) : (r.pullP v).pc = r.pc := rfl
@[simp] theorem Regs.pullP_a (v : Byte) : (r.pullP v).a = r.a := rfl
@[simp] theorem Regs.pullP_x (v : Byte) : (r.pullP v).x = r.x := rfl
@[simp] theorem Regs.pullP_y (v : Byte) : (r.pullP v).y = r.y := rfl
@[simp] theorem Regs.pullP_sp (v : Byte) : (r.pullP v).sp = r.sp := rfl
@[simp] theorem Regs.loadA_pc (v : Byte) : (r.loadA v).pc = r.pc := rfl
@[simp] theorem Regs.loadA_a (v : Byte) : (r.loadA v).a = v := rfl
@[simp] theorem Regs.loadA_x (v : Byte) : (r.loadA v).x = r.x := rfl
@[simp] theorem Regs.loadA_y (v : Byte) : (r.loadA v).y = r.y := rfl
@[simp] theorem Regs.loadA_sp (v : Byte) : (r.loadA v).sp = r.sp := rfl
@[simp] theorem Regs.loadX_pc (v : Byte) : (r.loadX v).pc = r.pc := rfl
@[simp] theorem Regs.loadX_a (v : Byte) : (r.loadX v).a = r.a := rfl
@[simp] theorem Regs.loadX_x (v : Byte) : (r.loadX v).x = v := rfl
@[simp] theorem Regs.loadX_y (v : Byte) : (r.loadX v).y = r.y := rfl
@[simp] theorem Regs.loadX_sp (v : Byte) : (r.loadX v).sp = r.sp := rfl
@[simp] theorem Regs.loadY_pc (v : Byte) : (r.loadY v).pc = r.pc := rfl
@[simp] theorem Regs.loadY_a (v : Byte) : (r.loadY v).a = r.a := rfl
@[simp] theorem Regs.loadY_x (v : Byte) : (r.loadY v).x = r.x := rfl
@[simp] theorem Regs.loadY_y (v : Byte) : (r.loadY v).y = v := rfl
@[simp] theorem Regs.loadY_sp (v : Byte) : (r.loadY v).sp = r.sp := rfl
@[simp] theorem Regs.loadAX_pc (v : Byte) : (r.loadAX v).pc = r.pc := rfl
@[simp] theorem Regs.loadAX_a (v : Byte) : (r.loadAX v).a = v := rfl
@[simp] theorem Regs.loadAX_x (v : Byte) : (r.loadAX v).x = v := rfl
@[simp] theorem Regs.loadAX_y (v : Byte) : (r.loadAX v).y = r.y := rfl
@[simp] theorem Regs.loadAX_sp (v : Byte) : (r.loadAX v).sp = r.sp := rfl
@[simp] theorem Regs.ora_pc (v : Byte) : (r.ora v).pc = r.pc := rfl
@[simp] theorem Regs.ora_a (v : Byte) : (r.ora v).a = r.a ||| v := rfl
@[simp] theorem Regs.ora_x (v : Byte) : (r.ora v).x = r.x := rfl
@[simp] theorem Regs.ora_y (v : Byte) : (r.ora v).y = r.y := rfl
@[simp] theorem Regs.ora_sp (v : Byte) : (r.ora v).sp = r.sp := rfl
@[simp] theorem Regs.and_pc (v : Byte) : (r.and v).pc = r.pc := rfl
@[simp] theorem Regs.and_a (v : Byte) : (r.and v).a = r.a &&& v := rfl
@[simp] theorem Regs.and_x (v : Byte) : (r.and v).x = r.x := rfl
@[simp] theorem Regs.and_y (v : Byte) : (r.and v).y = r.y := rfl
@[simp] theorem Regs.and_sp (v : Byte) : (r.and v).sp = r.sp := rfl
@[simp] theorem Regs.eor_pc (v : Byte) : (r.eor v).pc = r.pc := rfl
@[simp] theorem Regs.eor_a (v : Byte) : (r.eor v).a = r.a ^^^ v := rfl
@[simp] theorem Regs.eor_x (v : Byte) : (r.eor v).x = r.x := rfl
@[simp] theorem Regs.eor_y (v : Byte) : (r.eor v).y = r.y := rfl
@[simp] theorem Regs.eor_sp (v : Byte) : (r.eor v).sp = r.sp := rfl
@[simp] theorem Regs.adc_pc (v : Byte) : (r.adc v).pc = r.pc := rfl
@[simp] theorem Regs.adc_x (v : Byte) : (r.adc v).x = r.x := rfl
@[simp] theorem Regs.adc_y (v : Byte) : (r.adc v).y = r.y := rfl
@[simp] theorem Regs.adc_sp (v : Byte) : (r.adc v).sp = r.sp := rfl
@[simp] theorem Regs.sbc_pc (v : Byte) : (r.sbc v).pc = r.pc := rfl
@[simp] theorem Regs.sbc_x (v : Byte) : (r.sbc v).x = r.x := rfl
@[simp] theorem Regs.sbc_y (v : Byte) : (r.sbc v).y = r.y := rfl
@[simp] theorem Regs.sbc_sp (v : Byte) : (r.sbc v).sp = r.sp := rfl
@[simp] theorem Regs.asl_pc (v : Byte) : (r.asl v).2.pc = r.pc := rfl
@[simp] theorem Regs.asl_a (v : Byte) : (r.asl v).2.a = r.a := rfl
@[simp] theorem Regs.asl_x (v : Byte) : (r.asl v).2.x = r.x := rfl
@[simp] theorem Regs.asl_y (v : Byte) : (r.asl v).2.y = r.y := rfl
@[simp] theorem Regs.asl_sp (v : Byte) : (r.asl v).2.sp = r.sp := rfl
@[simp] theorem Regs.lsr_pc (v : Byte) : (r.lsr v).2.pc = r.pc := rfl
@[simp] theorem Regs.lsr_a (v : Byte) : (r.lsr v).2.a = r.a := rfl
@[simp] theorem Regs.lsr_x (v : Byte) : (r.lsr v).2.x = r.x := rfl
@[simp] theorem Regs.lsr_y (v : Byte) : (r.lsr v).2.y = r.y := rfl
@[simp] theorem Regs.lsr_sp (v : Byte) : (r.lsr v).2.sp = r.sp := rfl
@[simp] theorem Regs.rol_pc (v : Byte) : (r.rol v).2.pc = r.pc := rfl
@[simp] theorem Regs.rol_a (v : Byte) : (r.rol v).2.a = r.a := rfl
@[simp] theorem Regs.rol_x (v : Byte) : (r.rol v).2.x = r.x := rfl
@[simp] theorem Regs.rol_y (v : Byte) : (r.rol v).2.y = r.y := rfl
@[simp] theorem Regs.rol_sp (v : Byte) : (r.rol v).2.sp = r.sp := rfl
@[simp] theorem Regs.ror_pc (v : Byte) : (r.ror v).2.pc = r.pc := rfl
@[simp] theorem Regs.ror_a (v : Byte) : (r.ror v).2.a = r.a := rfl
@[simp] theorem Regs.ror_x (v : Byte) : (r.ror v).2.x = r.x := rfl
@[simp] theorem Regs.ror_y (v : Byte) : (r.ror v).2.y = r.y := rfl
@[simp] theorem Regs.ror_sp (v : Byte) : (r.ror v).2.sp = r.sp := rfl

/-! The execution tables never write `pc`; only TXS writes `sp`. -/

@[simp] theorem readExec_pc (op : ReadOp) (v : Byte) : (readExec op v r).pc = r.pc := by cases op <;> rfl
@[simp] theorem readExec_sp (op : ReadOp) (v : Byte) : (readExec op v r).sp = r.sp := by cases op <;> rfl
@[simp] theorem rmwExec_pc (op : RmwOp) (v : Byte) : (rmwExec op v r).2.pc = r.pc := by cases op <;> rfl
@[simp] theorem rmwExec_x (op : RmwOp) (v : Byte) : (rmwExec op v r).2.x = r.x := by cases op <;> rfl
@[simp] theorem rmwExec_y (op : RmwOp) (v : Byte) : (rmwExec op v r).2.y = r.y := by cases op <;> rfl
@[simp] theorem rmwExec_sp (op : RmwOp) (v : Byte) : (rmwExec op v r).2.sp = r.sp := by cases op <;> rfl
@[simp] theorem impliedExec_pc (op : ImpliedOp) : (impliedExec op r).pc = r.pc := by cases op <;> rfl
@[simp] theorem pullExec_pc (op : PullOp) (v : Byte) : (pullExec op v r).pc = r.pc := by cases op <;> rfl

/-- `pc` is no input of the execution tables. -/
theorem readExec_setPc (op : ReadOp) (v : Byte) (pc : Addr) :
    readExec op v { r with pc := pc } = { readExec op v r with pc := pc } := by cases op <;> rfl

theorem rmwExec_setPc (op : RmwOp) (v : Byte) (pc : Addr) :
    rmwExec op v { r with pc := pc } = ((rmwExec op v r).1, { (rmwExec op v r).2 with pc := pc }) := by
  cases op <;> rfl

theorem impliedExec_setPc (op : ImpliedOp) (pc : Addr) :
    impliedExec op { r with pc := pc } = { impliedExec op r with pc := pc } := by cases op <;> rfl

theorem pullExec_setPc (op : PullOp) (v : Byte) (pc : Addr) :
    pullExec op v { r with pc := pc } = { pullExec op v r with pc := pc } := by cases op <;> rfl

theorem storeValue_setPc (op : WriteOp) (pc : Addr) : storeValue op { r with pc := pc } = storeValue op r := by
  cases op <;> rfl

theorem pushValue_setPc (op : PushOp) (pc : Addr) : pushValue op { r with pc := pc } = pushValue op r := by
  cases op <;> rfl

theorem taken_setPc (op : BranchOp) (pc : Addr) : Regs.taken { r with pc := pc } op = r.taken op := rfl

/-! The machine. -/

theorem State.atBoundary_iff (s : State) :
    s.atBoundary = true ↔
      s.cpu.tcu = 0#8 ∧ s.cpu.nextMicroOp = .fetchOpcode ∧ s.cpu.readIntent = true ∧ s.cpu.addrBus = s.cpu.regs.pc := by
  simp [State.atBoundary, Cpu.atFetch, and_assoc]

/-- At a boundary the byte fetched is the one at `pc`. -/
theorem State.fetchByte_of_atBoundary (s : State) (h : s.atBoundary = true) :
    s.fetchByte = Memory.read s.mem s.cpu.regs.pc := by
  obtain ⟨-, -, hr, ha⟩ := (State.atBoundary_iff s).mp h
  simp [State.fetchByte, hr, ha]

end Sys2Proof.Machine
end

