-- ==== Sys2Proof/Laws/Chains.lean ====
section
/-! SUPPORT. What each shared chain of micro-ops does from a boundary to the next: one lemma per chain, over every
operation and mode. A proof about an instruction cites its chain's lemma and never unfolds a pulse. -/

namespace Sys2Proof.Machine

set_option linter.unusedSimpArgs false

/-- `t` is the boundary reached from `s` with this register file, memory and JSR scratch after `cycles` pulses. -/
structure Ends (s t : State) (regs : Regs) (mem : Memory) (jsrLo : Byte) (cycles : Nat) : Prop where
  boundary : t.atBoundary = true
  regs : t.cpu.regs = regs
  mem : t.mem = mem
  ir : t.cpu.ir = s.fetchByte
  jsrLo : t.cpu.jsrLo = jsrLo
  cyc : t.cpu.cyc = s.cpu.cyc + BitVec.ofNat 64 cycles
  params : t.params = s.params

/-- The register file with `pc` moved past `n` bytes. -/
def Regs.advance (r : Regs) (n : Nat) : Regs := { r with pc := r.pc + BitVec.ofNat 16 n }

/-- Under `UNDOC_SUPPORT` an undocumented instruction runs its chain. -/
theorem State.runUndocumented_of_support (s : State) (m : MicroOp) (h : s.params.undocSupport = true) :
    s.runUndocumented m = s.runDocumented m := by
  simp [State.runUndocumented, State.runDocumented, h]

/-- Without it, it is an unimplemented opcode. -/
theorem State.runUndocumented_of_no_support (s : State) (m : MicroOp) (h : s.params.undocSupport = false) :
    s.runUndocumented m = s.runUnimplemented := by
  simp [State.runUndocumented, State.runUnimplemented, h]

/-! The data modes: the address phase, then the tail of the operation's kind. -/

/-- The pulses of an instruction up to the one whose micro-op has the effective address ready. -/
def State.addressCycles (s : State) (op : MemOp) : DataMode → Nat
  | .zp => 2
  | .zpX | .zpY | .abs => 3
  | .absX => match op with | .read _ => 3 + s.crossPenalty .absX | _ => 4
  | .absY => match op with | .read _ => 3 + s.crossPenalty .absY | _ => 4
  | .indX => 5
  | .indY => match op with | .read _ => 4 + s.crossPenalty .indY | _ => 5

/-- One more pulse of a chain. -/
theorem runOn_step {σ : Type} (M : MemAgent σ) (params : Params) (n : Nat) (c : Cpu) (mem : σ)
    (hf : c.nextMicroOp ≠ .fetchOpcode) (hu : ∀ op, c.nextMicroOp ≠ .unimplemented op) :
    runOn M params (n + 1) (c, mem) = runOn M params n (busCycle M (runMicroOp params c.nextMicroOp) c mem) := by
  have hp : pulseOn M params (c, mem) = .next (busCycle M (runMicroOp params c.nextMicroOp) c mem) := by
    unfold pulseOn
    split
    · rename_i op h
      exact absurd h (hu op)
    · rfl
  simp [runOn, Cpu.atFetch, hf, hp]

/-- A chain that is at a boundary is over. -/
theorem runOn_stop {σ : Type} (M : MemAgent σ) (params : Params) (n : Nat) (c : Cpu) (mem : σ)
    (hf : c.nextMicroOp = .fetchOpcode) : runOn M params n (c, mem) = .next (c, mem) := by
  cases n <;> simp [runOn, Cpu.atFetch, hf]

theorem State.runDocumented_eq (s : State) (m : MicroOp) :
    s.runDocumented m =
      s.lift (runOn ramAgent s.params 7 (busCycle ramAgent (fetchInto fun _ => m) s.cpu s.mem)) := rfl

theorem Addr.add_one_one (v : Addr) : v + 1#16 + 1#16 = v + 2#16 := by rw [BitVec.add_assoc]; rfl

theorem Addr.add_two_one (v : Addr) : v + 2#16 + 1#16 = v + 3#16 := by rw [BitVec.add_assoc]; rfl

/-- From the opcode fetch, `n` pulses arrive at `ea_ready` with the effective address, `pc` past the operand bytes and
memory untouched. -/
def Arrives (s : State) (op : MemOp) (m : DataMode) (n : Nat) : Prop :=
  ∀ k, ∃ c, runOn ramAgent s.params (k + n) (busCycle ramAgent (fetchInto fun _ => firstMem op m) s.cpu s.mem) =
      runOn ramAgent s.params k (eaReady op (s.effectiveAddress m) c, s.mem) ∧
    c.regs = s.cpu.regs.advance (1 + m.operandCount) ∧ c.ir = s.fetchByte ∧ c.jsrLo = s.cpu.jsrLo ∧
    c.cyc = s.cpu.cyc + BitVec.ofNat 64 (n + 1)

/-- `index_hi` and `IdxFix` (41_addressing.md R172, R173) arrive at `ea_ready` with the 16-bit sum; a read that stays
in the page takes the un-fixed address at once. -/
def indexPulses (op : MemOp) (crossed : Bool) : Nat :=
  match op with
  | .read _ => if crossed then 1 else 0
  | _ => 1

theorem indexHi_arrives (params : Params) (op : MemOp) (i lo hi : Byte) (c : Cpu) (mem : Memory) (k : Nat) :
    ∃ c', runOn ramAgent params (k + indexPulses op (carriesOut lo i)) (indexHi op i lo hi c, mem) =
        runOn ramAgent params k (eaReady op (cat hi lo + zext16 i) c', mem) ∧
      c'.regs = c.regs ∧ c'.ir = c.ir ∧ c'.jsrLo = c.jsrLo ∧
      c'.cyc = c.cyc + BitVec.ofNat 64 (indexPulses op (carriesOut lo i)) := by
  cases hc : carriesOut lo i
  · rw [← indexed_within _ _ _ hc]
    rcases op with r | w | m
    · exact ⟨c, by simp [indexHi, eaReady, hc, indexPulses], rfl, by rfl, by rfl, by simp [indexPulses]⟩
    all_goals
      exact ⟨_, by
        simp only [indexHi, hc, runOn, pulseOn, busCycle, transact, runMicroOp, idxFix, Cpu.rd, Cpu.goto, Cpu.tick,
          ramAgent, Cpu.atFetch, beq_iff_eq, reduceCtorEq, if_true, if_false, BitVec.add_zero, indexPulses]
        rfl, by rfl, by rfl, by rfl, by rfl⟩
  · rw [← indexed_crossing _ _ _ hc]
    cases op
    all_goals
      exact ⟨_, by
        simp only [indexHi, hc, runOn, pulseOn, busCycle, transact, runMicroOp, idxFix, Cpu.rd, Cpu.goto, Cpu.tick,
          ramAgent, Cpu.atFetch, beq_iff_eq, reduceCtorEq, if_true, if_false, indexPulses]
        rfl, by rfl, by rfl, by rfl, by rfl⟩

/-- The pulses between the opcode fetch and `ea_ready`. -/
def State.addressPulses (s : State) (op : MemOp) : DataMode → Nat
  | .zp => 1
  | .zpX | .zpY | .abs => 2
  | .absX => 2 + indexPulses op (s.crosses .absX)
  | .absY => 2 + indexPulses op (s.crosses .absY)
  | .indX => 4
  | .indY => 3 + indexPulses op (s.crosses .indY)

theorem zp_arrives (s : State) (h : s.atBoundary = true) (op : MemOp) : Arrives s op .zp 1 := by
  obtain ⟨⟨⟨pc, a, x, y, sp, p⟩, ir, pd, ab, db, ri, tcu, cyc, nx, jl⟩, mem, pr⟩ := s
  simp only [State.atBoundary_iff] at h
  obtain ⟨rfl, rfl, rfl, rfl⟩ := h
  exact fun k => ⟨_, by
    simp only [runOn, busCycle, transact, fetchInto, pulseOn, runMicroOp, firstMem, zpAddr, Cpu.rd, Cpu.goto,
      Cpu.setPc, Cpu.incPc, Cpu.rdPc, Cpu.tick, ramAgent, Cpu.atFetch, beq_iff_eq, reduceCtorEq, if_true, if_false,
      Addr.add_one_one, Addr.add_two_one, loByte_zext16]
    rfl, by simp [Regs.advance, DataMode.operandCount], by simp [State.fetchByte], by rfl,
    by simp [BitVec.add_assoc]⟩

theorem zpX_arrives (s : State) (h : s.atBoundary = true) (op : MemOp) : Arrives s op .zpX 2 := by
  obtain ⟨⟨⟨pc, a, x, y, sp, p⟩, ir, pd, ab, db, ri, tcu, cyc, nx, jl⟩, mem, pr⟩ := s
  simp only [State.atBoundary_iff] at h
  obtain ⟨rfl, rfl, rfl, rfl⟩ := h
  exact fun k => ⟨_, by
    simp only [runOn, busCycle, transact, fetchInto, pulseOn, runMicroOp, firstMem, zpIdxBase, zpIdxAdd, Cpu.rd, Cpu.goto,
      Cpu.setPc, Cpu.incPc, Cpu.rdPc, Cpu.tick, ramAgent, Cpu.atFetch, beq_iff_eq, reduceCtorEq, if_true, if_false,
      Addr.add_one_one, Addr.add_two_one, loByte_zext16]
    rfl, by simp [Regs.advance, DataMode.operandCount], by simp [State.fetchByte], by rfl,
    by simp [BitVec.add_assoc]⟩

theorem zpY_arrives (s : State) (h : s.atBoundary = true) (op : MemOp) : Arrives s op .zpY 2 := by
  obtain ⟨⟨⟨pc, a, x, y, sp, p⟩, ir, pd, ab, db, ri, tcu, cyc, nx, jl⟩, mem, pr⟩ := s
  simp only [State.atBoundary_iff] at h
  obtain ⟨rfl, rfl, rfl, rfl⟩ := h
  exact fun k => ⟨_, by
    simp only [runOn, busCycle, transact, fetchInto, pulseOn, runMicroOp, firstMem, zpIdxBase, zpIdxAdd, Cpu.rd, Cpu.goto,
      Cpu.setPc, Cpu.incPc, Cpu.rdPc, Cpu.tick, ramAgent, Cpu.atFetch, beq_iff_eq, reduceCtorEq, if_true, if_false,
      Addr.add_one_one, Addr.add_two_one, loByte_zext16]
    rfl, by simp [Regs.advance, DataMode.operandCount], by simp [State.fetchByte], by rfl,
    by simp [BitVec.add_assoc]⟩

theorem abs_arrives (s : State) (h : s.atBoundary = true) (op : MemOp) : Arrives s op .abs 2 := by
  obtain ⟨⟨⟨pc, a, x, y, sp, p⟩, ir, pd, ab, db, ri, tcu, cyc, nx, jl⟩, mem, pr⟩ := s
  simp only [State.atBoundary_iff] at h
  obtain ⟨rfl, rfl, rfl, rfl⟩ := h
  exact fun k => ⟨_, by
    simp only [runOn, busCycle, transact, fetchInto, pulseOn, runMicroOp, firstMem, absLo, absHi, Cpu.rd, Cpu.goto,
      Cpu.setPc, Cpu.incPc, Cpu.rdPc, Cpu.tick, ramAgent, Cpu.atFetch, beq_iff_eq, reduceCtorEq, if_true, if_false,
      Addr.add_one_one, Addr.add_two_one, loByte_zext16]
    rfl, by simp [Regs.advance, DataMode.operandCount], by simp [State.fetchByte], by rfl,
    by simp [BitVec.add_assoc]⟩

theorem indX_arrives (s : State) (h : s.atBoundary = true) (op : MemOp) : Arrives s op .indX 4 := by
  obtain ⟨⟨⟨pc, a, x, y, sp, p⟩, ir, pd, ab, db, ri, tcu, cyc, nx, jl⟩, mem, pr⟩ := s
  simp only [State.atBoundary_iff] at h
  obtain ⟨rfl, rfl, rfl, rfl⟩ := h
  exact fun k => ⟨_, by
    simp only [runOn, busCycle, transact, fetchInto, pulseOn, runMicroOp, firstMem, izxPtr, izxAdd, izxLo, izxHi, Cpu.rd, Cpu.goto,
      Cpu.setPc, Cpu.incPc, Cpu.rdPc, Cpu.tick, ramAgent, Cpu.atFetch, beq_iff_eq, reduceCtorEq, if_true, if_false,
      Addr.add_one_one, Addr.add_two_one, loByte_zext16]
    rfl, by simp [Regs.advance, DataMode.operandCount], by simp [State.fetchByte], by rfl,
    by simp [BitVec.add_assoc]⟩

theorem absX_arrives (s : State) (h : s.atBoundary = true) (op : MemOp) :
    Arrives s op .absX (2 + indexPulses op (s.crosses .absX)) := by
  obtain ⟨⟨⟨pc, a, x, y, sp, p⟩, ir, pd, ab, db, ri, tcu, cyc, nx, jl⟩, mem, pr⟩ := s
  simp only [State.atBoundary_iff] at h
  obtain ⟨rfl, rfl, rfl, rfl⟩ := h
  intro k
  have hcross : State.crosses ⟨⟨⟨ab, a, x, y, sp, p⟩, ir, pd, ab, db, true, 0#8, cyc, .fetchOpcode, jl⟩, mem, pr⟩ .absX =
      carriesOut (Memory.read mem (ab + 1#16)) x := by
    simp [State.crosses, State.baseAddress, State.zeroPagePointer, State.operand1, State.operand2]
  rw [hcross, Nat.add_comm 2, ← Nat.add_assoc]
  have head : ∀ k, ∃ c, runOn ramAgent pr (k + 2) (busCycle ramAgent (fetchInto fun _ => firstMem op .absX)
      ⟨⟨ab, a, x, y, sp, p⟩, ir, pd, ab, db, true, 0#8, cyc, .fetchOpcode, jl⟩ mem) =
        runOn ramAgent pr k (indexHi op x (Memory.read mem (ab + 1#16)) (Memory.read mem (ab + 2#16)) c, mem) ∧
      c.regs = ⟨ab + 3#16, a, x, y, sp, p⟩ ∧ c.ir = Memory.read mem ab ∧ c.jsrLo = jl ∧
      c.cyc = cyc + 3#64 := fun k => ⟨_, by
    simp only [runOn, busCycle, transact, fetchInto, pulseOn, runMicroOp, firstMem, absLo, absHi, Cpu.rd, Cpu.goto,
      Cpu.setPc, Cpu.incPc, Cpu.rdPc, Cpu.tick, ramAgent, Cpu.atFetch, beq_iff_eq, reduceCtorEq, if_true, if_false,
      Addr.add_one_one, Addr.add_two_one, loByte_zext16]
    rfl, rfl, by rfl, by rfl, by simp [BitVec.add_assoc]⟩
  obtain ⟨c, e, h1, h2, h3, h4⟩ := head (k + indexPulses op (carriesOut (Memory.read mem (ab + 1#16)) x))
  obtain ⟨c', e', h1', h2', h3', h4'⟩ := indexHi_arrives pr op x (Memory.read mem (ab + 1#16)) (Memory.read mem (ab + 2#16)) c mem k
  refine ⟨c', e.trans e', h1'.trans h1, h2'.trans h2, h3'.trans h3, ?_⟩
  rw [h4', h4, Nat.add_assoc, BitVec.ofNat_add, BitVec.add_assoc, BitVec.add_comm (BitVec.ofNat 64 _)]

theorem absY_arrives (s : State) (h : s.atBoundary = true) (op : MemOp) :
    Arrives s op .absY (2 + indexPulses op (s.crosses .absY)) := by
  obtain ⟨⟨⟨pc, a, x, y, sp, p⟩, ir, pd, ab, db, ri, tcu, cyc, nx, jl⟩, mem, pr⟩ := s
  simp only [State.atBoundary_iff] at h
  obtain ⟨rfl, rfl, rfl, rfl⟩ := h
  intro k
  have hcross : State.crosses ⟨⟨⟨ab, a, x, y, sp, p⟩, ir, pd, ab, db, true, 0#8, cyc, .fetchOpcode, jl⟩, mem, pr⟩ .absY =
      carriesOut (Memory.read mem (ab + 1#16)) y := by
    simp [State.crosses, State.baseAddress, State.zeroPagePointer, State.operand1, State.operand2]
  rw [hcross, Nat.add_comm 2, ← Nat.add_assoc]
  have head : ∀ k, ∃ c, runOn ramAgent pr (k + 2) (busCycle ramAgent (fetchInto fun _ => firstMem op .absY)
      ⟨⟨ab, a, x, y, sp, p⟩, ir, pd, ab, db, true, 0#8, cyc, .fetchOpcode, jl⟩ mem) =
        runOn ramAgent pr k (indexHi op y (Memory.read mem (ab + 1#16)) (Memory.read mem (ab + 2#16)) c, mem) ∧
      c.regs = ⟨ab + 3#16, a, x, y, sp, p⟩ ∧ c.ir = Memory.read mem ab ∧ c.jsrLo = jl ∧
      c.cyc = cyc + 3#64 := fun k => ⟨_, by
    simp only [runOn, busCycle, transact, fetchInto, pulseOn, runMicroOp, firstMem, absLo, absHi, Cpu.rd, Cpu.goto,
      Cpu.setPc, Cpu.incPc, Cpu.rdPc, Cpu.tick, ramAgent, Cpu.atFetch, beq_iff_eq, reduceCtorEq, if_true, if_false,
      Addr.add_one_one, Addr.add_two_one, loByte_zext16]
    rfl, rfl, by rfl, by rfl, by simp [BitVec.add_assoc]⟩
  obtain ⟨c, e, h1, h2, h3, h4⟩ := head (k + indexPulses op (carriesOut (Memory.read mem (ab + 1#16)) y))
  obtain ⟨c', e', h1', h2', h3', h4'⟩ := indexHi_arrives pr op y (Memory.read mem (ab + 1#16)) (Memory.read mem (ab + 2#16)) c mem k
  refine ⟨c', e.trans e', h1'.trans h1, h2'.trans h2, h3'.trans h3, ?_⟩
  rw [h4', h4, Nat.add_assoc, BitVec.ofNat_add, BitVec.add_assoc, BitVec.add_comm (BitVec.ofNat 64 _)]

theorem indY_arrives (s : State) (h : s.atBoundary = true) (op : MemOp) :
    Arrives s op .indY (3 + indexPulses op (s.crosses .indY)) := by
  obtain ⟨⟨⟨pc, a, x, y, sp, p⟩, ir, pd, ab, db, ri, tcu, cyc, nx, jl⟩, mem, pr⟩ := s
  simp only [State.atBoundary_iff] at h
  obtain ⟨rfl, rfl, rfl, rfl⟩ := h
  intro k
  have hcross : State.crosses ⟨⟨⟨ab, a, x, y, sp, p⟩, ir, pd, ab, db, true, 0#8, cyc, .fetchOpcode, jl⟩, mem, pr⟩ .indY =
      carriesOut (Memory.read mem (zext16 (Memory.read mem (ab + 1#16)))) y := by
    simp [State.crosses, State.baseAddress, State.zeroPagePointer, State.operand1, State.operand2]
  rw [hcross, Nat.add_comm 3, ← Nat.add_assoc]
  have head : ∀ k, ∃ c, runOn ramAgent pr (k + 3) (busCycle ramAgent (fetchInto fun _ => firstMem op .indY)
      ⟨⟨ab, a, x, y, sp, p⟩, ir, pd, ab, db, true, 0#8, cyc, .fetchOpcode, jl⟩ mem) =
        runOn ramAgent pr k (indexHi op y (Memory.read mem (zext16 (Memory.read mem (ab + 1#16)))) (Memory.read mem (zext16 ((Memory.read mem (ab + 1#16)) + 1#8))) c, mem) ∧
      c.regs = ⟨ab + 2#16, a, x, y, sp, p⟩ ∧ c.ir = Memory.read mem ab ∧ c.jsrLo = jl ∧
      c.cyc = cyc + 4#64 := fun k => ⟨_, by
    simp only [runOn, busCycle, transact, fetchInto, pulseOn, runMicroOp, firstMem, izyPtr, izyLo, izyHi, Cpu.rd, Cpu.goto,
      Cpu.setPc, Cpu.incPc, Cpu.rdPc, Cpu.tick, ramAgent, Cpu.atFetch, beq_iff_eq, reduceCtorEq, if_true, if_false,
      Addr.add_one_one, Addr.add_two_one, loByte_zext16]
    rfl, rfl, by rfl, by rfl, by simp [BitVec.add_assoc]⟩
  obtain ⟨c, e, h1, h2, h3, h4⟩ := head (k + indexPulses op (carriesOut (Memory.read mem (zext16 (Memory.read mem (ab + 1#16)))) y))
  obtain ⟨c', e', h1', h2', h3', h4'⟩ := indexHi_arrives pr op y (Memory.read mem (zext16 (Memory.read mem (ab + 1#16)))) (Memory.read mem (zext16 ((Memory.read mem (ab + 1#16)) + 1#8))) c mem k
  refine ⟨c', e.trans e', h1'.trans h1, h2'.trans h2, h3'.trans h3, ?_⟩
  rw [h4', h4, Nat.add_assoc, BitVec.ofNat_add, BitVec.add_assoc, BitVec.add_comm (BitVec.ofNat 64 _)]

/-- Every data mode arrives at `ea_ready` (41_addressing.md R167 to R181). -/
theorem address_phase (s : State) (h : s.atBoundary = true) (op : MemOp) (m : DataMode) :
    Arrives s op m (s.addressPulses op m) := by
  cases m
  case zp => exact zp_arrives s h op
  case zpX => exact zpX_arrives s h op
  case zpY => exact zpY_arrives s h op
  case abs => exact abs_arrives s h op
  case absX => exact absX_arrives s h op
  case absY => exact absY_arrives s h op
  case indX => exact indX_arrives s h op
  case indY => exact indY_arrives s h op

/-! The tails (R162 to R166). -/

/-- The core is at a boundary with this register file, `pd` and `data_bus` aside. -/
structure Cpu.Rests (c : Cpu) (regs : Regs) (ir jsrLo : Byte) (cyc : Count) : Prop where
  tcu : c.tcu = 0#8
  next : c.nextMicroOp = .fetchOpcode
  intent : c.readIntent = true
  addr : c.addrBus = c.regs.pc
  regs : c.regs = regs
  ir : c.ir = ir
  jsrLo : c.jsrLo = jsrLo
  cyc : c.cyc = cyc

theorem read_tail (params : Params) (op : ReadOp) (ea : Addr) (c : Cpu) (mem : Memory) (k : Nat) :
    ∃ c', runOn ramAgent params (k + 1) (eaReady (.read op) ea c, mem) = .next (c', mem) ∧
      c'.Rests (readExec op (Memory.read mem ea) c.regs) c.ir c.jsrLo (c.cyc + 1#64) := by
  refine ⟨_, by
    rw [runOn_step _ _ _ _ _ (by nofun) (by nofun), runOn_stop]
    all_goals rfl, ?_⟩
  constructor <;> rfl

theorem write_tail (params : Params) (op : WriteOp) (ea : Addr) (c : Cpu) (mem : Memory) (k : Nat) :
    ∃ c', runOn ramAgent params (k + 1) (eaReady (.write op) ea c, mem) =
        .next (c', Memory.write mem ea (storeValue op c.regs)) ∧
      c'.Rests c.regs c.ir c.jsrLo (c.cyc + 1#64) := by
  refine ⟨_, by
    rw [runOn_step _ _ _ _ _ (by nofun) (by nofun), runOn_stop]
    all_goals rfl, ?_⟩
  constructor <;> rfl

theorem rmw_tail (params : Params) (op : RmwOp) (ea : Addr) (c : Cpu) (mem : Memory) (k : Nat) :
    ∃ c', runOn ramAgent params (k + 3) (eaReady (.rmw op) ea c, mem) =
        .next (c', Memory.write (Memory.write mem ea (Memory.read mem ea)) ea
          (rmwExec op (Memory.read mem ea) c.regs).1) ∧
      c'.Rests (rmwExec op (Memory.read mem ea) c.regs).2 c.ir c.jsrLo (c.cyc + 3#64) := by
  refine ⟨_, by
    simp only [runOn, pulseOn, busCycle, transact, runMicroOp, eaReady, rmwRead, rmwModify, storeDone, Cpu.finish,
      Cpu.rd, Cpu.goto, Cpu.tick, ramAgent, Cpu.atFetch, beq_iff_eq, reduceCtorEq, if_true, if_false,
      Bool.false_eq_true]
    rw [runOn_stop]
    all_goals rfl, ?_⟩
  constructor
  case cyc => simp [BitVec.add_assoc]
  all_goals rfl

/-- A chain that comes to rest ends its instruction. -/
theorem Cpu.Rests.ends {s : State} {c : Cpu} {mem : Memory} {regs : Regs} {ir jsrLo : Byte} {cyc : Count} {n : Nat}
    (r : c.Rests regs ir jsrLo cyc) (hi : ir = s.fetchByte) (hc : cyc = s.cpu.cyc + BitVec.ofNat 64 n) :
    Ends s { s with cpu := c, mem := mem } regs mem jsrLo n where
  boundary := by simp [State.atBoundary, Cpu.atFetch, r.tcu, r.next, r.intent, r.addr]
  regs := r.regs
  mem := rfl
  ir := r.ir.trans hi
  jsrLo := r.jsrLo
  cyc := r.cyc.trans hc
  params := rfl

/-- Enough pulses are left for every tail. -/
theorem State.pulses_after_address (s : State) (op : MemOp) (m : DataMode) :
    ∃ k, 7 - s.addressPulses op m = k + 3 := by
  have hle : s.addressPulses op m ≤ 4 := by
    rcases m <;> simp [State.addressPulses, indexPulses] <;> split <;> (try split) <;> omega
  exact ⟨4 - s.addressPulses op m, by omega⟩

/-- The chain's head and tail in one. -/
theorem chain_ends (s : State) (h : s.atBoundary = true) (op : MemOp) (m : DataMode) (regs : Regs) (mem : Memory)
    (tail : ∀ c, c.regs = s.cpu.regs.advance (1 + m.operandCount) →
      ∃ c', runOn ramAgent s.params (7 - s.addressPulses op m) (eaReady op (s.effectiveAddress m) c, s.mem) =
          .next (c', mem) ∧
        c'.Rests regs c.ir c.jsrLo (c.cyc + BitVec.ofNat 64 op.tail)) :
    ∃ t, s.runDocumented (firstMem op m) = .next t ∧
      Ends s t regs mem s.cpu.jsrLo (s.addressPulses op m + 1 + op.tail) := by
  obtain ⟨c, e, hr, hi, hj, hc⟩ := address_phase s h op m (7 - s.addressPulses op m)
  obtain ⟨c', e', r⟩ := tail c hr
  obtain ⟨k, hk⟩ := s.pulses_after_address op m
  have e7 : 7 - s.addressPulses op m + s.addressPulses op m = 7 := by omega
  rw [e7] at e
  refine ⟨{ s with cpu := c', mem := mem }, ?_, ?_⟩
  · rw [State.runDocumented_eq, e, e']
    rfl
  · refine hj ▸ r.ends hi ?_
    rw [hc, BitVec.add_assoc, ← BitVec.ofNat_add]

/-- Kind R (R160, R163, R181, R183): the operand byte goes through `read_exec`; memory is untouched. -/
theorem read_chain (s : State) (h : s.atBoundary = true) (op : ReadOp) (m : ReadMode) :
    ∃ t, s.runDocumented (firstRead op m) = .next t ∧
      Ends s t (readExec op (s.operandByte m) (s.cpu.regs.advance (1 + m.operandCount))) s.mem s.cpu.jsrLo
        (s.readCycles m) := by
  cases m with
  | imm =>
    obtain ⟨⟨⟨pc, a, x, y, sp, p⟩, ir, pd, ab, db, ri, tcu, cyc, nx, jl⟩, mem, pr⟩ := s
    simp only [State.atBoundary_iff] at h
    obtain ⟨rfl, rfl, rfl, rfl⟩ := h
    refine ⟨_, by
      rw [State.runDocumented_eq, runOn_step _ _ _ _ _ (by nofun) (by nofun), runOn_stop]
      all_goals rfl, ?_⟩
    constructor
    case cyc => exact BitVec.add_assoc cyc 1#64 1#64
    case regs =>
      refine congrArg (readExec op _) ?_
      simp [Regs.advance, ReadMode.operandCount, Cpu.tick, fetchInto, busCycle, transact, Addr.add_one_one, ramAgent]
    case boundary => exact (State.atBoundary_iff _).mpr ⟨rfl, rfl, rfl, rfl⟩
    all_goals rfl
  | mem m =>
    have hcyc : s.readCycles (.mem m) = s.addressPulses (.read op) m + 1 + 1 := by
      cases m <;> simp [State.readCycles, State.addressPulses, indexPulses, State.crossPenalty] <;> omega
    rw [hcyc]
    refine chain_ends s h (.read op) m _ _ fun c hr => ?_
    obtain ⟨k, hk⟩ := s.pulses_after_address (.read op) m
    obtain ⟨c', e, r⟩ := read_tail s.params op (s.effectiveAddress m) c s.mem (k + 2)
    rw [hk]
    exact ⟨c', e, hr ▸ r⟩

/-- Kind W (R160, R164): the register is stored at the effective address. -/
theorem write_chain (s : State) (h : s.atBoundary = true) (op : WriteOp) (m : DataMode) :
    ∃ t, s.runDocumented (firstMem (.write op) m) = .next t ∧
      Ends s t (s.cpu.regs.advance (1 + m.operandCount))
        (Memory.write s.mem (s.effectiveAddress m) (storeValue op s.cpu.regs)) s.cpu.jsrLo (writeCycles m) := by
  have hcyc : writeCycles m = s.addressPulses (.write op) m + 1 + 1 := by
    cases m <;> simp [writeCycles, State.addressPulses, indexPulses]
  rw [hcyc]
  refine chain_ends s h (.write op) m _ _ fun c hr => ?_
  obtain ⟨k, hk⟩ := s.pulses_after_address (.write op) m
  obtain ⟨c', e, r⟩ := write_tail s.params op (s.effectiveAddress m) c s.mem (k + 2)
  rw [hk, ← storeValue_setPc s.cpu.regs op (s.cpu.regs.pc + BitVec.ofNat 16 (1 + m.operandCount))]
  rw [hr] at e r
  exact ⟨c', e, r⟩

/-- Kind M (R160, R165, R166): the unmodified byte is stored, then the result. -/
theorem rmw_chain (s : State) (h : s.atBoundary = true) (op : RmwOp) (m : DataMode) :
    ∃ t, s.runDocumented (firstMem (.rmw op) m) = .next t ∧
      Ends s t (rmwExec op (s.operandByte (.mem m)) (s.cpu.regs.advance (1 + m.operandCount))).2
        (Memory.write (Memory.write s.mem (s.effectiveAddress m) (s.operandByte (.mem m))) (s.effectiveAddress m)
          (rmwExec op (s.operandByte (.mem m)) s.cpu.regs).1) s.cpu.jsrLo (rmwCycles m) := by
  have hcyc : rmwCycles m = s.addressPulses (.rmw op) m + 1 + 3 := by
    cases m <;> simp [rmwCycles, State.addressPulses, indexPulses]
  rw [hcyc]
  refine chain_ends s h (.rmw op) m _ _ fun c hr => ?_
  obtain ⟨k, hk⟩ := s.pulses_after_address (.rmw op) m
  obtain ⟨c', e, r⟩ := rmw_tail s.params op (s.effectiveAddress m) c s.mem k
  rw [hr] at e r
  have hv : (rmwExec op (s.operandByte (.mem m)) (s.cpu.regs.advance (1 + m.operandCount))).1 =
      (rmwExec op (s.operandByte (.mem m)) s.cpu.regs).1 := by cases op <;> rfl
  rw [hk, ← hv]
  exact ⟨c', e, r⟩

/-! The other shapes. -/

theorem Byte.sub_one_one (v : Byte) : v - 1#8 - 1#8 = v - 2#8 := by rw [BitVec.sub_sub]; rfl

theorem Byte.sub_two_one (v : Byte) : v - 2#8 - 1#8 = v - 3#8 := by rw [BitVec.sub_sub]; rfl

theorem Byte.add_one_one (v : Byte) : v + 1#8 + 1#8 = v + 2#8 := by rw [BitVec.add_assoc]; rfl

theorem Byte.add_two_one (v : Byte) : v + 2#8 + 1#8 = v + 3#8 := by rw [BitVec.add_assoc]; rfl

/-- Memory after the two pushes of JSR (45_control_flow.md R331, R332). -/
def jsrMemory (s : State) : Memory :=
  Memory.write (Memory.write s.mem (stackAddr s.cpu.regs.sp) (hiByte (s.cpu.regs.pc + 2#16)))
    (stackAddr (s.cpu.regs.sp - 1#8)) (loByte (s.cpu.regs.pc + 2#16))

/-- Memory after the three pushes of BRK (R342 to R344). -/
def brkMemory (s : State) : Memory :=
  Memory.write (jsrMemory s) (stackAddr (s.cpu.regs.sp - 2#8)) s.cpu.regs.pushedP

/-- The address pulled from `n` bytes above the stack pointer, low byte first (R338, R352). -/
def State.pulledPc (s : State) (n : Byte) : Addr :=
  cat (Memory.read s.mem (stackAddr (s.cpu.regs.sp + (n + 1#8)))) (Memory.read s.mem (stackAddr (s.cpu.regs.sp + n)))

/-- Implied and accumulator forms (40_sequencer.md R139). -/
theorem implied_chain (s : State) (h : s.atBoundary = true) (op : ImpliedOp) :
    ∃ t, s.runDocumented (.implied op) = .next t ∧
      Ends s t (impliedExec op (s.cpu.regs.advance 1)) s.mem s.cpu.jsrLo 2 := by
  obtain ⟨⟨⟨pc, a, x, y, sp, p⟩, ir, pd, ab, db, ri, tcu, cyc, nx, jl⟩, mem, pr⟩ := s
  simp only [State.atBoundary_iff] at h
  obtain ⟨rfl, rfl, rfl, rfl⟩ := h
  refine ⟨_, by
    rw [State.runDocumented_eq, runOn_step _ _ _ _ _ (by nofun) (by nofun), runOn_stop]
    all_goals rfl, ?_⟩
  constructor
  case boundary => exact (State.atBoundary_iff _).mpr ⟨rfl, rfl, rfl, rfl⟩
  case cyc => exact (show cyc + 1#64 + 1#64 = cyc + 2#64 by simp [BitVec.add_assoc])
  all_goals rfl

/-- PHA, PHP (46_stack_flag_nop.md R360, R361). -/
theorem push_chain (s : State) (h : s.atBoundary = true) (op : PushOp) :
    ∃ t, s.runDocumented (.pushDummy op) = .next t ∧
      Ends s t { s.cpu.regs.advance 1 with sp := s.cpu.regs.sp - 1#8 }
        (Memory.write s.mem (stackAddr s.cpu.regs.sp) (pushValue op s.cpu.regs)) s.cpu.jsrLo 3 := by
  obtain ⟨⟨⟨pc, a, x, y, sp, p⟩, ir, pd, ab, db, ri, tcu, cyc, nx, jl⟩, mem, pr⟩ := s
  simp only [State.atBoundary_iff] at h
  obtain ⟨rfl, rfl, rfl, rfl⟩ := h
  refine ⟨_, by
    rw [State.runDocumented_eq, runOn_step _ _ _ _ _ (by nofun) (by nofun), runOn_step _ _ _ _ _ (by nofun) (by nofun), runOn_stop]
    all_goals rfl, ?_⟩
  constructor
  case boundary => exact (State.atBoundary_iff _).mpr ⟨rfl, rfl, rfl, rfl⟩
  case cyc => exact (show cyc + 1#64 + 1#64 + 1#64 = cyc + 3#64 by simp [BitVec.add_assoc])
  case mem => exact congrArg (Memory.write mem _) (pushValue_setPc ⟨ab, a, x, y, sp, p⟩ op _)
  all_goals rfl

/-- PLA, PLP (R362 to R364). -/
theorem pull_chain (s : State) (h : s.atBoundary = true) (op : PullOp) :
    ∃ t, s.runDocumented (.pullDummy op) = .next t ∧
      Ends s t (pullExec op (Memory.read s.mem (stackAddr (s.cpu.regs.sp + 1#8)))
        { s.cpu.regs.advance 1 with sp := s.cpu.regs.sp + 1#8 }) s.mem s.cpu.jsrLo 4 := by
  obtain ⟨⟨⟨pc, a, x, y, sp, p⟩, ir, pd, ab, db, ri, tcu, cyc, nx, jl⟩, mem, pr⟩ := s
  simp only [State.atBoundary_iff] at h
  obtain ⟨rfl, rfl, rfl, rfl⟩ := h
  refine ⟨_, by
    rw [State.runDocumented_eq, runOn_step _ _ _ _ _ (by nofun) (by nofun), runOn_step _ _ _ _ _ (by nofun) (by nofun),
      runOn_step _ _ _ _ _ (by nofun) (by nofun), runOn_stop]
    all_goals rfl, ?_⟩
  constructor
  case boundary => exact (State.atBoundary_iff _).mpr ⟨rfl, rfl, rfl, rfl⟩
  case cyc => exact (show cyc + 1#64 + 1#64 + 1#64 + 1#64 = cyc + 4#64 by simp [BitVec.add_assoc])
  all_goals rfl

/-- JMP absolute (45_control_flow.md R322 to R324). -/
theorem jmpAbs_chain (s : State) (h : s.atBoundary = true) :
    ∃ t, s.runDocumented .jmpLo = .next t ∧
      Ends s t { s.cpu.regs with pc := cat s.operand2 s.operand1 } s.mem s.cpu.jsrLo 3 := by
  obtain ⟨⟨⟨pc, a, x, y, sp, p⟩, ir, pd, ab, db, ri, tcu, cyc, nx, jl⟩, mem, pr⟩ := s
  simp only [State.atBoundary_iff] at h
  obtain ⟨rfl, rfl, rfl, rfl⟩ := h
  refine ⟨_, by
    rw [State.runDocumented_eq, runOn_step _ _ _ _ _ (by nofun) (by nofun), runOn_step _ _ _ _ _ (by nofun) (by nofun), runOn_stop]
    all_goals rfl, ?_⟩
  constructor
  case boundary => exact (State.atBoundary_iff _).mpr ⟨rfl, rfl, rfl, rfl⟩
  case cyc => exact (show cyc + 1#64 + 1#64 + 1#64 = cyc + 3#64 by simp [BitVec.add_assoc])
  case regs => simp [busCycle, transact, fetchInto, runMicroOp, ramAgent, Cpu.tick, jmpLo, jmpHi, Addr.add_one_one, State.operand1, State.operand2]
  all_goals rfl

/-- JMP indirect (R325 to R329): the pointer's high byte takes no carry. -/
theorem jmpInd_chain (s : State) (h : s.atBoundary = true) :
    ∃ t, s.runDocumented .jmpIndLo = .next t ∧
      Ends s t { s.cpu.regs with
          pc := cat (Memory.read s.mem (pointerNext (cat s.operand2 s.operand1)))
            (Memory.read s.mem (cat s.operand2 s.operand1)) } s.mem s.cpu.jsrLo 5 := by
  obtain ⟨⟨⟨pc, a, x, y, sp, p⟩, ir, pd, ab, db, ri, tcu, cyc, nx, jl⟩, mem, pr⟩ := s
  simp only [State.atBoundary_iff] at h
  obtain ⟨rfl, rfl, rfl, rfl⟩ := h
  refine ⟨_, by
    rw [State.runDocumented_eq, runOn_step _ _ _ _ _ (by nofun) (by nofun), runOn_step _ _ _ _ _ (by nofun) (by nofun),
      runOn_step _ _ _ _ _ (by nofun) (by nofun), runOn_step _ _ _ _ _ (by nofun) (by nofun), runOn_stop]
    all_goals rfl, ?_⟩
  constructor
  case boundary => exact (State.atBoundary_iff _).mpr ⟨rfl, rfl, rfl, rfl⟩
  case cyc => exact (show cyc + 1#64 + 1#64 + 1#64 + 1#64 + 1#64 = cyc + 5#64 by simp [BitVec.add_assoc])
  case regs => simp [busCycle, transact, fetchInto, runMicroOp, ramAgent, Cpu.tick, jmpIndLo, jmpIndHi, jmpIndTgtLo, jmpIndTgtHi, Addr.add_one_one, State.operand1, State.operand2]
  all_goals rfl

/-- JSR (R330 to R335): the target's high byte is read after the pushes. -/
theorem jsr_chain (s : State) (h : s.atBoundary = true) :
    ∃ t, s.runDocumented .jsrLo = .next t ∧
      Ends s t { s.cpu.regs with
          pc := cat (Memory.read (jsrMemory s) (s.cpu.regs.pc + 2#16)) s.operand1
          sp := s.cpu.regs.sp - 2#8 } (jsrMemory s) s.operand1 6 := by
  obtain ⟨⟨⟨pc, a, x, y, sp, p⟩, ir, pd, ab, db, ri, tcu, cyc, nx, jl⟩, mem, pr⟩ := s
  simp only [State.atBoundary_iff] at h
  obtain ⟨rfl, rfl, rfl, rfl⟩ := h
  refine ⟨_, by
    rw [State.runDocumented_eq, runOn_step _ _ _ _ _ (by nofun) (by nofun), runOn_step _ _ _ _ _ (by nofun) (by nofun),
      runOn_step _ _ _ _ _ (by nofun) (by nofun), runOn_step _ _ _ _ _ (by nofun) (by nofun),
      runOn_step _ _ _ _ _ (by nofun) (by nofun), runOn_stop]
    all_goals rfl, ?_⟩
  constructor
  case boundary => exact (State.atBoundary_iff _).mpr ⟨rfl, rfl, rfl, rfl⟩
  case cyc => exact (show cyc + 1#64 + 1#64 + 1#64 + 1#64 + 1#64 + 1#64 = cyc + 6#64 by simp [BitVec.add_assoc])
  case regs => simp [busCycle, transact, fetchInto, runMicroOp, ramAgent, Cpu.tick, jsrLo, jsrStack, jsrPushHi, jsrPushLo, jsrHi, jsrMemory, Byte.sub_one_one, Addr.add_one_one, State.operand1, State.operand2]
  case mem => simp [busCycle, transact, fetchInto, runMicroOp, ramAgent, Cpu.tick, jsrLo, jsrStack, jsrPushHi, jsrPushLo, jsrHi, jsrMemory, Addr.add_one_one]
  all_goals rfl

/-- RTS (R336 to R341). -/
theorem rts_chain (s : State) (h : s.atBoundary = true) :
    ∃ t, s.runDocumented .rtsDummy = .next t ∧
      Ends s t { s.cpu.regs with pc := s.pulledPc 1#8 + 1#16, sp := s.cpu.regs.sp + 2#8 } s.mem s.cpu.jsrLo 6 := by
  obtain ⟨⟨⟨pc, a, x, y, sp, p⟩, ir, pd, ab, db, ri, tcu, cyc, nx, jl⟩, mem, pr⟩ := s
  simp only [State.atBoundary_iff] at h
  obtain ⟨rfl, rfl, rfl, rfl⟩ := h
  refine ⟨_, by
    rw [State.runDocumented_eq, runOn_step _ _ _ _ _ (by nofun) (by nofun), runOn_step _ _ _ _ _ (by nofun) (by nofun),
      runOn_step _ _ _ _ _ (by nofun) (by nofun), runOn_step _ _ _ _ _ (by nofun) (by nofun),
      runOn_step _ _ _ _ _ (by nofun) (by nofun), runOn_stop]
    all_goals rfl, ?_⟩
  constructor
  case boundary => exact (State.atBoundary_iff _).mpr ⟨rfl, rfl, rfl, rfl⟩
  case cyc => exact (show cyc + 1#64 + 1#64 + 1#64 + 1#64 + 1#64 + 1#64 = cyc + 6#64 by simp [BitVec.add_assoc])
  case regs => simp [busCycle, transact, fetchInto, runMicroOp, ramAgent, Cpu.tick, rtsDummy, rtsStack, rtsPullLo, rtsPullHi, rtsInc, State.pulledPc, Byte.add_one_one, Addr.add_one_one, State.operand1, State.operand2]
  all_goals rfl

/-- BRK (R342 to R348). -/
theorem brk_chain (s : State) (h : s.atBoundary = true) :
    ∃ t, s.runDocumented .brkSig = .next t ∧
      Ends s t { s.cpu.regs.setFlag .i true with
          pc := cat (Memory.read (brkMemory s) Config.brkVectorHi) (Memory.read (brkMemory s) Config.brkVectorLo)
          sp := s.cpu.regs.sp - 3#8 } (brkMemory s) s.cpu.jsrLo 7 := by
  obtain ⟨⟨⟨pc, a, x, y, sp, p⟩, ir, pd, ab, db, ri, tcu, cyc, nx, jl⟩, mem, pr⟩ := s
  simp only [State.atBoundary_iff] at h
  obtain ⟨rfl, rfl, rfl, rfl⟩ := h
  refine ⟨_, by
    rw [State.runDocumented_eq, runOn_step _ _ _ _ _ (by nofun) (by nofun), runOn_step _ _ _ _ _ (by nofun) (by nofun),
      runOn_step _ _ _ _ _ (by nofun) (by nofun), runOn_step _ _ _ _ _ (by nofun) (by nofun),
      runOn_step _ _ _ _ _ (by nofun) (by nofun), runOn_step _ _ _ _ _ (by nofun) (by nofun), runOn_stop]
    all_goals rfl, ?_⟩
  constructor
  case boundary => exact (State.atBoundary_iff _).mpr ⟨rfl, rfl, rfl, rfl⟩
  case cyc => exact (show cyc + 1#64 + 1#64 + 1#64 + 1#64 + 1#64 + 1#64 + 1#64 = cyc + 7#64 by simp [BitVec.add_assoc])
  case regs => simp [busCycle, transact, fetchInto, runMicroOp, ramAgent, Cpu.tick, brkSig, brkPushHi, brkPushLo, brkPushP, brkVecLo, brkVecHi, brkMemory, jsrMemory, Byte.sub_one_one, Byte.sub_two_one, Regs.setFlag, Regs.pushedP, Addr.add_one_one, State.operand1, State.operand2]
  case mem => simp [busCycle, transact, fetchInto, runMicroOp, ramAgent, Cpu.tick, brkSig, brkPushHi, brkPushLo, brkPushP, brkVecLo, brkVecHi, brkMemory, jsrMemory, Addr.add_one_one, Byte.sub_one_one, Regs.pushedP]
  all_goals rfl

/-- RTI (R349 to R354). -/
theorem rti_chain (s : State) (h : s.atBoundary = true) :
    ∃ t, s.runDocumented .rtiDummy = .next t ∧
      Ends s t { s.cpu.regs.pullP (Memory.read s.mem (stackAddr (s.cpu.regs.sp + 1#8))) with
          pc := s.pulledPc 2#8, sp := s.cpu.regs.sp + 3#8 } s.mem s.cpu.jsrLo 6 := by
  obtain ⟨⟨⟨pc, a, x, y, sp, p⟩, ir, pd, ab, db, ri, tcu, cyc, nx, jl⟩, mem, pr⟩ := s
  simp only [State.atBoundary_iff] at h
  obtain ⟨rfl, rfl, rfl, rfl⟩ := h
  refine ⟨_, by
    rw [State.runDocumented_eq, runOn_step _ _ _ _ _ (by nofun) (by nofun), runOn_step _ _ _ _ _ (by nofun) (by nofun),
      runOn_step _ _ _ _ _ (by nofun) (by nofun), runOn_step _ _ _ _ _ (by nofun) (by nofun),
      runOn_step _ _ _ _ _ (by nofun) (by nofun), runOn_stop]
    all_goals rfl, ?_⟩
  constructor
  case boundary => exact (State.atBoundary_iff _).mpr ⟨rfl, rfl, rfl, rfl⟩
  case cyc => exact (show cyc + 1#64 + 1#64 + 1#64 + 1#64 + 1#64 + 1#64 = cyc + 6#64 by simp [BitVec.add_assoc])
  case regs => simp [busCycle, transact, fetchInto, runMicroOp, ramAgent, Cpu.tick, rtiDummy, rtiStack, rtiPullP, rtiPullLo, rtiPullHi, State.pulledPc, Byte.add_one_one, Byte.add_two_one, Regs.pullP, Addr.add_one_one, State.operand1, State.operand2]
  all_goals rfl

/-- A branch not taken (R311). -/
theorem branch_not_taken (s : State) (h : s.atBoundary = true) (op : BranchOp) (ht : s.cpu.regs.taken op = false) :
    ∃ t, s.runDocumented (.branch op) = .next t ∧ Ends s t (s.cpu.regs.advance 2) s.mem s.cpu.jsrLo 2 := by
  obtain ⟨⟨⟨pc, a, x, y, sp, p⟩, ir, pd, ab, db, ri, tcu, cyc, nx, jl⟩, mem, pr⟩ := s
  simp only [State.atBoundary_iff] at h
  obtain ⟨rfl, rfl, rfl, rfl⟩ := h
  have ht' : Regs.taken ⟨ab + 1#16, a, x, y, sp, p⟩ op = false := ht
  refine ⟨_, by
    simp only [State.runDocumented_eq, runOn, busCycle, transact, fetchInto, pulseOn, runMicroOp, branch, branchTaken,
      branchFix, Cpu.finish, Cpu.rd, Cpu.goto, Cpu.setPc, Cpu.incPc, Cpu.rdPc, Cpu.tick, ramAgent, Cpu.atFetch,
      beq_iff_eq, reduceCtorEq, if_true, if_false, ht', Bool.false_eq_true, Addr.add_one_one]
    rfl, ?_⟩
  constructor
  case boundary => exact (State.atBoundary_iff _).mpr ⟨rfl, rfl, rfl, rfl⟩
  case cyc => exact (show cyc + 1#64 + 1#64 = cyc + 2#64 by simp [BitVec.add_assoc])
  all_goals rfl

/-- A branch taken inside the page (R312). -/
theorem branch_in_page (s : State) (h : s.atBoundary = true) (op : BranchOp) (ht : s.cpu.regs.taken op = true)
    (hp : hiByte s.target = hiByte (s.cpu.regs.pc + 2#16)) :
    ∃ t, s.runDocumented (.branch op) = .next t ∧ Ends s t { s.cpu.regs with pc := s.target } s.mem s.cpu.jsrLo 3 := by
  obtain ⟨⟨⟨pc, a, x, y, sp, p⟩, ir, pd, ab, db, ri, tcu, cyc, nx, jl⟩, mem, pr⟩ := s
  simp only [State.atBoundary_iff] at h
  obtain ⟨rfl, rfl, rfl, rfl⟩ := h
  have ht' : Regs.taken ⟨ab + 1#16, a, x, y, sp, p⟩ op = true := ht
  have hp' : hiByte (branchTarget (ab + 2#16) (Memory.read mem (ab + 1#16))) = hiByte (ab + 2#16) := hp
  refine ⟨_, by
    simp only [State.runDocumented_eq, runOn, busCycle, transact, fetchInto, pulseOn, runMicroOp, branch, branchTaken,
      branchFix, Cpu.finish, Cpu.rd, Cpu.goto, Cpu.setPc, Cpu.incPc, Cpu.rdPc, Cpu.tick, ramAgent, Cpu.atFetch,
      beq_iff_eq, reduceCtorEq, if_true, if_false, ht', Bool.false_eq_true, Addr.add_one_one, hp']
    rfl, ?_⟩
  constructor
  case boundary => exact (State.atBoundary_iff _).mpr ⟨rfl, rfl, rfl, rfl⟩
  case cyc => exact (show cyc + 1#64 + 1#64 + 1#64 = cyc + 3#64 by simp [BitVec.add_assoc])
  all_goals rfl

/-- A branch taken into another page (R312, R313). -/
theorem branch_crossing (s : State) (h : s.atBoundary = true) (op : BranchOp) (ht : s.cpu.regs.taken op = true)
    (hp : ¬hiByte s.target = hiByte (s.cpu.regs.pc + 2#16)) :
    ∃ t, s.runDocumented (.branch op) = .next t ∧ Ends s t { s.cpu.regs with pc := s.target } s.mem s.cpu.jsrLo 4 := by
  obtain ⟨⟨⟨pc, a, x, y, sp, p⟩, ir, pd, ab, db, ri, tcu, cyc, nx, jl⟩, mem, pr⟩ := s
  simp only [State.atBoundary_iff] at h
  obtain ⟨rfl, rfl, rfl, rfl⟩ := h
  have ht' : Regs.taken ⟨ab + 1#16, a, x, y, sp, p⟩ op = true := ht
  have hp' : ¬hiByte (branchTarget (ab + 2#16) (Memory.read mem (ab + 1#16))) = hiByte (ab + 2#16) := hp
  refine ⟨_, by
    simp only [State.runDocumented_eq, runOn, busCycle, transact, fetchInto, pulseOn, runMicroOp, branch, branchTaken,
      branchFix, Cpu.finish, Cpu.rd, Cpu.goto, Cpu.setPc, Cpu.incPc, Cpu.rdPc, Cpu.tick, ramAgent, Cpu.atFetch,
      beq_iff_eq, reduceCtorEq, if_true, if_false, ht', Bool.false_eq_true, Addr.add_one_one, hp']
    rfl, ?_⟩
  constructor
  case boundary => exact (State.atBoundary_iff _).mpr ⟨rfl, rfl, rfl, rfl⟩
  case cyc => exact (show cyc + 1#64 + 1#64 + 1#64 + 1#64 = cyc + 4#64 by simp [BitVec.add_assoc])
  all_goals rfl

/-- The outcome of a branch (R309, R311 to R313). -/
theorem branch_chain (s : State) (h : s.atBoundary = true) (op : BranchOp) :
    ∃ t, s.runDocumented (.branch op) = .next t ∧
      Ends s t { s.cpu.regs with pc := if s.cpu.regs.taken op then s.target else s.cpu.regs.pc + 2#16 } s.mem s.cpu.jsrLo
        (s.branchCycles op) := by
  cases ht : s.cpu.regs.taken op
  · simpa [State.branchCycles, ht, Regs.advance] using branch_not_taken s h op ht
  · by_cases hp : hiByte s.target = hiByte (s.cpu.regs.pc + 2#16)
    · simpa [State.branchCycles, ht, hp] using branch_in_page s h op ht hp
    · simpa [State.branchCycles, ht, hp] using branch_crossing s h op ht hp

/-- An unimplemented opcode faults with the byte fetched (40_sequencer.md R138, 60_exceptions.md R411). -/
theorem unimplemented_faults (s : State) : s.runUnimplemented = .fault (.unimplementedOpcode s.fetchByte) := by
  cases hr : s.cpu.readIntent <;>
    simp [State.runUnimplemented, State.runInstr, instrOn, busCycle, transact, fetchInto, Config.maxPulses, runOn, pulseOn,
      Cpu.atFetch, ramAgent, State.fetchByte, State.lift, hr]

end Sys2Proof.Machine
end

