-- ==== Sys2Proof/Laws/Flags.lean ====
section
/-! SUPPORT. The flag computations (42_alu_flags.md) by the bits of `p` (10_state.md R26): for each helper one lemma
that says which bits it writes and that it leaves every other bit. -/

namespace Sys2Proof.Machine

/-- The bit of `p` that holds a flag (10_state.md R26). -/
def Flag.bit : Flag → Nat
  | .n => 7
  | .v => 6
  | .u => 5
  | .b => 4
  | .d => 3
  | .i => 2
  | .z => 1
  | .c => 0

/-- `r'` has the bits of `r` but for those listed, the first entry of a bit counting. -/
def SetsFlags (r r' : Regs) (l : List (Nat × Bool)) : Prop :=
  ∀ k, k < 8 → r'.p.getLsbD k = (l.lookup k).getD (r.p.getLsbD k)

theorem getFlag_eq (r : Regs) (f : Flag) : r.getFlag f = r.p.getLsbD f.bit := by
  have h : ∀ p : Byte, (p &&& f.mask != 0#8) = p.getLsbD f.bit := by cases f <;> decide
  exact h r.p

theorem setFlag_getLsbD (r : Regs) (f : Flag) (b : Bool) (k : Nat) (h : k < 8) :
    (r.setFlag f b).p.getLsbD k = if k = f.bit then b else r.p.getLsbD k := by
  rcases k with _ | _ | _ | _ | _ | _ | _ | _ | k
  all_goals first
    | omega
    | (cases f <;> cases b <;> simp [Regs.setFlag, Flag.mask, Flag.bit])

/-- The same in the spelling `simp` gives a literal bit number. -/
theorem setFlag_getElem (r : Regs) (f : Flag) (b : Bool) (k : Nat) (h : k < 8) :
    (r.setFlag f b).p[k] = if k = f.bit then b else r.p[k] := by
  simpa [BitVec.getLsbD_eq_getElem h] using setFlag_getLsbD r f b k h

theorem setsFlags_nil (r : Regs) : SetsFlags r r [] := fun _ _ => rfl

theorem setFlag_setsFlags (r : Regs) (f : Flag) (b : Bool) : SetsFlags r (r.setFlag f b) [(f.bit, b)] := by
  intro k h
  rw [setFlag_getLsbD r f b k h]
  by_cases hk : k = f.bit
  · simp [List.lookup, hk]
  · simp [List.lookup, hk, beq_eq_false_iff_ne.mpr hk]

/-- What the first lists, the second writes over. -/
theorem SetsFlags.trans {r r' r'' : Regs} {l l' : List (Nat × Bool)} (h : SetsFlags r r' l) (h' : SetsFlags r' r'' l') :
    SetsFlags r r'' (l' ++ l) := by
  intro k hk
  rw [h' k hk, h k hk, List.lookup_append]
  cases l'.lookup k <;> rfl

/-- Two lists with the same bits say the same. -/
theorem SetsFlags.congr {r r' : Regs} {l l' : List (Nat × Bool)} (h : SetsFlags r r' l)
    (e : ∀ k, k < 8 → (l.lookup k).getD (r.p.getLsbD k) = (l'.lookup k).getD (r.p.getLsbD k)) : SetsFlags r r' l' :=
  fun k hk => (h k hk).trans (e k hk)

theorem SetsFlags.perm {r r' : Regs} {l l' : List (Nat × Bool)} (h : SetsFlags r r' l)
    (e : ∀ k, k < 8 → l.lookup k = l'.lookup k) : SetsFlags r r' l' :=
  h.congr fun k hk => by rw [e k hk]

theorem Regs.updateNz_sets (r : Regs) (v : Byte) : SetsFlags r (r.updateNz v) (nzFlags v) := by
  refine ((setFlag_setsFlags r .n v.msb).trans (setFlag_setsFlags _ .z (v == 0#8))).perm fun k hk => ?_
  rcases k with _ | _ | _ | _ | _ | _ | _ | _ | k <;>
    simp [Flag.bit, nzFlags, List.lookup, BitVec.msb_eq_getLsbD_last, beq_eq_decide]

theorem Regs.compare_sets (r : Regs) (reg m : Byte) : SetsFlags r (r.compare reg m) (compareFlags reg m) := by
  refine ((setFlag_setsFlags r .c _).trans (Regs.updateNz_sets _ (reg - m))).perm fun k hk => ?_
  rcases k with _ | _ | _ | _ | _ | _ | _ | _ | k <;> simp [Flag.bit, nzFlags, compareFlags, List.lookup]

/-- R220. -/
theorem Regs.bitTest_sets (r : Regs) (m : Byte) : SetsFlags r (r.bitTest m)
    [(7, m.getLsbD 7), (6, m.getLsbD 6), (1, decide (r.a &&& m = 0#8))] := by
  refine (((setFlag_setsFlags r .z _).trans (setFlag_setsFlags _ .n (m.getLsbD 7))).trans
    (setFlag_setsFlags _ .v (m.getLsbD 6))).perm fun k hk => ?_
  rcases k with _ | _ | _ | _ | _ | _ | _ | _ | k <;> simp [Flag.bit, List.lookup, beq_eq_decide]

/-- R210: C is bit 8 of the sum, V says that equal signs gave the other sign, N and Z are the result's. -/
theorem Regs.adc_sets (r : Regs) (m : Byte) :
    let sum := r.a.toNat + m.toNat + (r.p.getLsbD 0).toNat
    SetsFlags r (r.adc m) (nzFlags (BitVec.ofNat 8 sum) ++
      [(6, r.a.msb == m.msb && (BitVec.ofNat 8 sum).msb != r.a.msb), (0, decide (0xFF < sum))]) := by
  intro sum
  have hc : (r.getFlag .c).toNat = (r.p.getLsbD 0).toNat := by rw [getFlag_eq]; rfl
  have h := ((setFlag_setsFlags r .c (decide (0xFF < sum))).trans
    (setFlag_setsFlags _ .v (r.a.msb == m.msb && (BitVec.ofNat 8 sum).msb != r.a.msb))).trans
    (Regs.updateNz_sets _ (BitVec.ofNat 8 sum))
  intro k hk
  simp only [Regs.adc, hc]
  exact h k hk

/-- R210. -/
theorem Regs.adc_a (r : Regs) (m : Byte) :
    (r.adc m).a = BitVec.ofNat 8 (r.a.toNat + m.toNat + (r.p.getLsbD 0).toNat) := by
  simp [Regs.adc, Regs.updateNz, Regs.setFlag, getFlag_eq, Flag.bit]

/-- R215. -/
theorem Regs.asl_sets (r : Regs) (v : Byte) : SetsFlags r (r.asl v).2 (nzFlags (v <<< 1) ++ [(0, v.getLsbD 7)]) :=
  (setFlag_setsFlags r .c _).trans (Regs.updateNz_sets _ _)

/-- R216. -/
theorem Regs.lsr_sets (r : Regs) (v : Byte) : SetsFlags r (r.lsr v).2 (nzFlags (v >>> 1) ++ [(0, v.getLsbD 0)]) :=
  (setFlag_setsFlags r .c _).trans (Regs.updateNz_sets _ _)

theorem Regs.carryByte_eq (r : Regs) : r.carryByte = BitVec.ofNat 8 (r.p.getLsbD 0).toNat := by
  simp only [Regs.carryByte, getFlag_eq, Flag.bit]
  cases r.p.getLsbD 0 <;> rfl

/-- R217. -/
theorem Regs.rol_sets (r : Regs) (v : Byte) : SetsFlags r (r.rol v).2 (nzFlags (r.rol v).1 ++ [(0, v.getLsbD 7)]) :=
  (setFlag_setsFlags r .c _).trans (Regs.updateNz_sets _ _)

/-- R218. -/
theorem Regs.ror_sets (r : Regs) (v : Byte) : SetsFlags r (r.ror v).2 (nzFlags (r.ror v).1 ++ [(0, v.getLsbD 0)]) :=
  (setFlag_setsFlags r .c _).trans (Regs.updateNz_sets _ _)

/-- What a pull does to `p` (10_state.md R28). -/
theorem Regs.pullP_sets (r : Regs) (m : Byte) : SetsFlags r (r.pullP m) (pulledFlags m) := by
  intro k hk
  rcases k with _ | _ | _ | _ | _ | _ | _ | _ | k
  all_goals first
    | omega
    | simp [Regs.pullP, pulledFlags, List.lookup]

end Sys2Proof.Machine
end

