-- ==== Sys2Proof/Laws/Traces.lean ====
section
/-! SUPPORT. The bus trace of each shared chain (41_addressing.md R182, 45_control_flow.md, 46_stack_flag_nop.md): one
lemma per chain, over every operation and mode, as Laws/Chains.lean has one for its outcome. -/

namespace Sys2Proof.Machine

set_option linter.unusedSimpArgs false

/-- The transaction of the next pulse. -/
def transactionOf (c : Cpu) (mem : Memory) : BusCycle :=
  if c.readIntent then ⟨c.addrBus, .read, Memory.read mem c.addrBus⟩ else ⟨c.addrBus, .write, c.dataBus⟩

/-- The rest of an instruction's trace: at most `n` pulses, up to the boundary. -/
def traceOn (params : Params) : Nat → Cpu × Memory → List BusCycle
  | 0, _ => []
  | n + 1, r =>
    if r.1.atFetch then []
    else transactionOf r.1 r.2 :: traceOn params n (busCycle ramAgent (runMicroOp params r.1.nextMicroOp) r.1 r.2)

/-- The continuation is one a pulse runs. -/
def Cpu.runs (c : Cpu) : Bool :=
  match c.nextMicroOp with
  | .unimplemented _ => false
  | _ => true

theorem pulseOn_of_runs {σ : Type} (M : MemAgent σ) (params : Params) (c : Cpu) (mem : σ) (h : c.runs = true) :
    pulseOn M params (c, mem) = .next (busCycle M (runMicroOp params c.nextMicroOp) c mem) := by
  unfold pulseOn
  split
  · rename_i op e
    exact absurd h (by simp [Cpu.runs, show c.nextMicroOp = .unimplemented op from e])
  · rfl

/-- Where an executing opcode is at `pc`, the opcode fetch goes to the first micro-op of its chain (40_sequencer.md
R135, R136). -/
theorem fetch_dispatches (s : State) (h : s.atBoundary = true) (i : Instr) (hd : decodeOpcode s.fetchByte = i) (m : MicroOp)
    (hm : dispatchTo s.params.undocSupport i s.fetchByte = m) :
    busCycle ramAgent (runMicroOp s.params s.cpu.nextMicroOp) s.cpu s.mem =
      busCycle ramAgent (fetchInto fun _ => m) s.cpu s.mem := by
  obtain ⟨-, hn, hr, -⟩ := (State.atBoundary_iff s).mp h
  simp only [State.fetchByte, hr, if_true] at hd hm
  simp [hn, runMicroOp, fetchOpcode, busCycle, transact, fetchInto, hr, ramAgent, hd, hm]

/-- Only the opcode fetch leads to `Unimplemented` (R135). -/
theorem runMicroOp_runs (params : Params) (m : MicroOp) (c : Cpu) (hf : m ≠ .fetchOpcode)
    (hu : ∀ op, m ≠ .unimplemented op) : (runMicroOp params m c).runs = true := by
  have hea : ∀ op ea (c : Cpu), (eaReady op ea c).runs = true := by
    intro op ea c
    cases op <;> rfl
  have hidx : ∀ op i lo hi (c : Cpu), (indexHi op i lo hi c).runs = true := by
    intro op i lo hi c
    simp only [indexHi]
    split <;> rfl
  cases m
  case fetchOpcode => exact absurd rfl hf
  case unimplemented op => exact absurd rfl (hu op)
  case absHi op idx =>
    cases idx
    · exact hea _ _ _
    · exact hidx _ _ _ _ _
  case izyHi op => exact hidx _ _ _ _ _
  case branch op =>
    simp only [runMicroOp, branch]
    split <;> rfl
  case branchTaken =>
    simp only [runMicroOp, branchTaken]
    split <;> rfl
  all_goals first | rfl | exact hea _ _ _

/-- In the middle of a chain the two traces agree. -/
theorem traceFor_eq_traceOn (n : Nat) (s : State) (hr : s.cpu.runs = true) (hf : s.cpu.atFetch = false) :
    State.traceFor n s = traceOn s.params n (s.cpu, s.mem) := by
  induction n generalizing s with
  | zero => rfl
  | succ n ih =>
    obtain ⟨c, mem, pr⟩ := s
    have hf' : c.nextMicroOp ≠ .fetchOpcode := by simpa [Cpu.atFetch] using hf
    have hu : ∀ op, c.nextMicroOp ≠ .unimplemented op := by
      intro op e
      simp [Cpu.runs, e] at hr
    have hruns := runMicroOp_runs pr c.nextMicroOp (transact ramAgent c.tick mem).1 hf' hu
    simp only [State.traceFor, traceOn, State.pulse, State.lift, pulseOn_of_runs _ _ _ _ hr, hf, Bool.false_eq_true,
      if_false]
    refine congrArg₂ _ rfl ?_
    split
    · rename_i hat
      cases n
      · rfl
      · simp only [traceOn]
        exact (if_pos hat).symm
    · rename_i hat
      exact ih _ hruns (by simpa using hat)

/-- The trace of an instruction whose opcode is at `pc`: the opcode read, and the trace of its chain. -/
theorem busTrace_eq (s : State) (h : s.atBoundary = true) (i : Instr) (hd : decodeOpcode s.fetchByte = i) (m : MicroOp)
    (hm : dispatchTo s.params.undocSupport i s.fetchByte = m) (hf : m ≠ .fetchOpcode) (hu : ∀ op, m ≠ .unimplemented op) :
    s.busTrace =
      s.reads s.cpu.regs.pc :: traceOn s.params 7 (busCycle ramAgent (fetchInto fun _ => m) s.cpu s.mem) := by
  have hdisp := fetch_dispatches s h i hd m hm
  obtain ⟨c, mem, pr⟩ := s
  obtain ⟨-, hn, hi, ha⟩ := (State.atBoundary_iff _).mp h
  have hrun : c.runs = true := by simp [Cpu.runs, show c.nextMicroOp = .fetchOpcode from hn]
  have hat : ∀ c' : Cpu, c' = (busCycle ramAgent (fetchInto fun _ => m) c mem).1 → c'.atFetch = false ∧ c'.runs = true := by
    rintro c' rfl
    refine ⟨by simpa [Cpu.atFetch, busCycle, fetchInto] using hf, ?_⟩
    cases m
    case unimplemented op => exact absurd rfl (hu op)
    all_goals rfl
  suffices hn : ∀ n, State.traceFor (n + 1) ⟨c, mem, pr⟩ =
      State.reads ⟨c, mem, pr⟩ c.regs.pc :: traceOn pr n (busCycle ramAgent (fetchInto fun _ => m) c mem) from hn 7
  intro n
  simp only [State.traceFor, State.pulse, State.lift, pulseOn_of_runs _ _ _ _ hrun]
  simp only [hdisp, (hat _ rfl).1, Bool.false_eq_true, if_false]
  refine congrArg₂ _ ?_ (traceFor_eq_traceOn n _ (hat _ rfl).2 (hat _ rfl).1)
  simp only [State.nextTransaction, State.reads]
  rw [show c.readIntent = true from hi, show c.addrBus = c.regs.pc from ha]
  rfl

/-! The data modes. -/

/-- Kinds W and M always take the fix-up cycle (41_addressing.md R172). -/
def MemOp.alwaysFixes : MemOp → Bool
  | .read _ => false
  | _ => true

/-- From the opcode fetch to `ea_ready`, the bus shows the mode's address cycles. -/
def TracesTo (s : State) (op : MemOp) (m : DataMode) (n : Nat) : Prop :=
  ∀ k, ∃ c, s.reads s.cpu.regs.pc ::
        traceOn s.params (k + n) (busCycle ramAgent (fetchInto fun _ => firstMem op m) s.cpu s.mem) =
      s.addressTrace op.alwaysFixes m ++ traceOn s.params k (eaReady op (s.effectiveAddress m) c, s.mem) ∧
    c.regs = s.cpu.regs.advance (1 + m.operandCount)

theorem indexHi_traces (params : Params) (op : MemOp) (i lo hi : Byte) (c : Cpu) (mem : Memory) (k : Nat) :
    ∃ c', traceOn params (k + indexPulses op (carriesOut lo i)) (indexHi op i lo hi c, mem) =
        (if op.alwaysFixes || carriesOut lo i then
            [⟨cat hi (lo + i), .read, Memory.read mem (cat hi (lo + i))⟩] else []) ++
          traceOn params k (eaReady op (cat hi lo + zext16 i) c', mem) ∧
      c'.regs = c.regs := by
  cases hc : carriesOut lo i
  · rw [← indexed_within _ _ _ hc]
    rcases op with r | w | m
    · exact ⟨c, by simp [indexHi, eaReady, hc, indexPulses, MemOp.alwaysFixes], by rfl⟩
    all_goals
      exact ⟨_, by
        simp only [indexHi, hc, traceOn, transactionOf, busCycle, transact, runMicroOp, idxFix, Cpu.rd, Cpu.goto, Cpu.tick,
          ramAgent, Cpu.atFetch, beq_iff_eq, reduceCtorEq, if_true, if_false, BitVec.add_zero, indexPulses,
          MemOp.alwaysFixes, Bool.or_false, Bool.true_or, List.cons_append, List.nil_append]
        rfl, by rfl⟩
  · rw [← indexed_crossing _ _ _ hc]
    rcases op with r | w | m
    all_goals
      exact ⟨_, by
        simp only [indexHi, hc, traceOn, transactionOf, busCycle, transact, runMicroOp, idxFix, Cpu.rd, Cpu.goto, Cpu.tick,
          ramAgent, Cpu.atFetch, beq_iff_eq, reduceCtorEq, if_true, if_false, indexPulses, Bool.or_true, List.cons_append,
          List.nil_append]
        rfl, by rfl⟩

theorem zp_traces (s : State) (h : s.atBoundary = true) (op : MemOp) : TracesTo s op .zp 1 := by
  obtain ⟨⟨⟨pc, a, x, y, sp, p⟩, ir, pd, ab, db, ri, tcu, cyc, nx, jl⟩, mem, pr⟩ := s
  simp only [State.atBoundary_iff] at h
  obtain ⟨rfl, rfl, rfl, rfl⟩ := h
  exact fun k => ⟨_, by
    simp only [traceOn, transactionOf, busCycle, transact, fetchInto, runMicroOp, firstMem, zpAddr, Cpu.rd,
      Cpu.goto, Cpu.setPc, Cpu.incPc, Cpu.rdPc, Cpu.tick, ramAgent, Cpu.atFetch, beq_iff_eq, reduceCtorEq, if_true,
      if_false, Addr.add_one_one, Addr.add_two_one, loByte_zext16, State.addressTrace, State.reads, State.operand1,
      State.operand2, State.effectiveAddress, State.zeroPagePointer, Regs.index, List.cons_append, List.nil_append]
    rfl, by rfl⟩

theorem zpX_traces (s : State) (h : s.atBoundary = true) (op : MemOp) : TracesTo s op .zpX 2 := by
  obtain ⟨⟨⟨pc, a, x, y, sp, p⟩, ir, pd, ab, db, ri, tcu, cyc, nx, jl⟩, mem, pr⟩ := s
  simp only [State.atBoundary_iff] at h
  obtain ⟨rfl, rfl, rfl, rfl⟩ := h
  exact fun k => ⟨_, by
    simp only [traceOn, transactionOf, busCycle, transact, fetchInto, runMicroOp, firstMem, zpIdxBase, zpIdxAdd, Cpu.rd,
      Cpu.goto, Cpu.setPc, Cpu.incPc, Cpu.rdPc, Cpu.tick, ramAgent, Cpu.atFetch, beq_iff_eq, reduceCtorEq, if_true,
      if_false, Addr.add_one_one, Addr.add_two_one, loByte_zext16, State.addressTrace, State.reads, State.operand1,
      State.operand2, State.effectiveAddress, State.zeroPagePointer, Regs.index, List.cons_append, List.nil_append]
    rfl, by rfl⟩

theorem zpY_traces (s : State) (h : s.atBoundary = true) (op : MemOp) : TracesTo s op .zpY 2 := by
  obtain ⟨⟨⟨pc, a, x, y, sp, p⟩, ir, pd, ab, db, ri, tcu, cyc, nx, jl⟩, mem, pr⟩ := s
  simp only [State.atBoundary_iff] at h
  obtain ⟨rfl, rfl, rfl, rfl⟩ := h
  exact fun k => ⟨_, by
    simp only [traceOn, transactionOf, busCycle, transact, fetchInto, runMicroOp, firstMem, zpIdxBase, zpIdxAdd, Cpu.rd,
      Cpu.goto, Cpu.setPc, Cpu.incPc, Cpu.rdPc, Cpu.tick, ramAgent, Cpu.atFetch, beq_iff_eq, reduceCtorEq, if_true,
      if_false, Addr.add_one_one, Addr.add_two_one, loByte_zext16, State.addressTrace, State.reads, State.operand1,
      State.operand2, State.effectiveAddress, State.zeroPagePointer, Regs.index, List.cons_append, List.nil_append]
    rfl, by rfl⟩

theorem abs_traces (s : State) (h : s.atBoundary = true) (op : MemOp) : TracesTo s op .abs 2 := by
  obtain ⟨⟨⟨pc, a, x, y, sp, p⟩, ir, pd, ab, db, ri, tcu, cyc, nx, jl⟩, mem, pr⟩ := s
  simp only [State.atBoundary_iff] at h
  obtain ⟨rfl, rfl, rfl, rfl⟩ := h
  exact fun k => ⟨_, by
    simp only [traceOn, transactionOf, busCycle, transact, fetchInto, runMicroOp, firstMem, absLo, absHi, Cpu.rd,
      Cpu.goto, Cpu.setPc, Cpu.incPc, Cpu.rdPc, Cpu.tick, ramAgent, Cpu.atFetch, beq_iff_eq, reduceCtorEq, if_true,
      if_false, Addr.add_one_one, Addr.add_two_one, loByte_zext16, State.addressTrace, State.reads, State.operand1,
      State.operand2, State.effectiveAddress, State.zeroPagePointer, Regs.index, List.cons_append, List.nil_append]
    rfl, by rfl⟩

theorem indX_traces (s : State) (h : s.atBoundary = true) (op : MemOp) : TracesTo s op .indX 4 := by
  obtain ⟨⟨⟨pc, a, x, y, sp, p⟩, ir, pd, ab, db, ri, tcu, cyc, nx, jl⟩, mem, pr⟩ := s
  simp only [State.atBoundary_iff] at h
  obtain ⟨rfl, rfl, rfl, rfl⟩ := h
  exact fun k => ⟨_, by
    simp only [traceOn, transactionOf, busCycle, transact, fetchInto, runMicroOp, firstMem, izxPtr, izxAdd, izxLo, izxHi, Cpu.rd,
      Cpu.goto, Cpu.setPc, Cpu.incPc, Cpu.rdPc, Cpu.tick, ramAgent, Cpu.atFetch, beq_iff_eq, reduceCtorEq, if_true,
      if_false, Addr.add_one_one, Addr.add_two_one, loByte_zext16, State.addressTrace, State.reads, State.operand1,
      State.operand2, State.effectiveAddress, State.zeroPagePointer, Regs.index, List.cons_append, List.nil_append]
    rfl, by rfl⟩

theorem absX_traces (s : State) (h : s.atBoundary = true) (op : MemOp) :
    TracesTo s op .absX (2 + indexPulses op (s.crosses .absX)) := by
  obtain ⟨⟨⟨pc, a, x, y, sp, p⟩, ir, pd, ab, db, ri, tcu, cyc, nx, jl⟩, mem, pr⟩ := s
  simp only [State.atBoundary_iff] at h
  obtain ⟨rfl, rfl, rfl, rfl⟩ := h
  intro k
  have hcross : ∀ c, State.crosses ⟨⟨⟨ab, a, x, y, sp, p⟩, ir, pd, ab, db, true, 0#8, cyc, .fetchOpcode, jl⟩, mem, c⟩
      .absX = carriesOut (Memory.read mem (ab + 1#16)) x := by
    simp [State.crosses, State.baseAddress, State.zeroPagePointer, State.operand1, State.operand2]
  rw [hcross, Nat.add_comm 2, ← Nat.add_assoc]
  have head : ∀ k, ∃ c, traceOn pr (k + 2) (busCycle ramAgent (fetchInto fun _ => firstMem op .absX)
      ⟨⟨ab, a, x, y, sp, p⟩, ir, pd, ab, db, true, 0#8, cyc, .fetchOpcode, jl⟩ mem) =
        ⟨ab + 1#16, .read, Memory.read mem (ab + 1#16)⟩ :: ⟨ab + 2#16, .read, Memory.read mem (ab + 2#16)⟩ ::
          traceOn pr k (indexHi op x (Memory.read mem (ab + 1#16))
            (Memory.read mem (ab + 2#16)) c, mem) ∧
      c.regs = ⟨ab + 3#16, a, x, y, sp, p⟩ := fun k => ⟨_, by
    simp only [traceOn, transactionOf, busCycle, transact, fetchInto, runMicroOp, firstMem, absLo, absHi, Cpu.rd,
      Cpu.goto, Cpu.setPc, Cpu.incPc, Cpu.rdPc, Cpu.tick, ramAgent, Cpu.atFetch, beq_iff_eq, reduceCtorEq, if_true,
      if_false, Addr.add_one_one, Addr.add_two_one, loByte_zext16, State.addressTrace, State.reads, State.operand1,
      State.operand2, State.effectiveAddress, State.zeroPagePointer, Regs.index, List.cons_append, List.nil_append]
    rfl, by rfl⟩
  obtain ⟨c, e, h1⟩ := head (k + indexPulses op (carriesOut (Memory.read mem (ab + 1#16)) x))
  obtain ⟨c', e', h1'⟩ := indexHi_traces pr op x (Memory.read mem (ab + 1#16))
    (Memory.read mem (ab + 2#16)) c mem k
  refine ⟨c', ?_, h1'.trans h1⟩
  rw [e, e']
  simp [State.addressTrace, State.fixupTrace, hcross, State.unfixedAddress, State.baseAddress, State.reads, State.operand1,
    State.operand2, State.zeroPagePointer, State.effectiveAddress]

theorem absY_traces (s : State) (h : s.atBoundary = true) (op : MemOp) :
    TracesTo s op .absY (2 + indexPulses op (s.crosses .absY)) := by
  obtain ⟨⟨⟨pc, a, x, y, sp, p⟩, ir, pd, ab, db, ri, tcu, cyc, nx, jl⟩, mem, pr⟩ := s
  simp only [State.atBoundary_iff] at h
  obtain ⟨rfl, rfl, rfl, rfl⟩ := h
  intro k
  have hcross : ∀ c, State.crosses ⟨⟨⟨ab, a, x, y, sp, p⟩, ir, pd, ab, db, true, 0#8, cyc, .fetchOpcode, jl⟩, mem, c⟩
      .absY = carriesOut (Memory.read mem (ab + 1#16)) y := by
    simp [State.crosses, State.baseAddress, State.zeroPagePointer, State.operand1, State.operand2]
  rw [hcross, Nat.add_comm 2, ← Nat.add_assoc]
  have head : ∀ k, ∃ c, traceOn pr (k + 2) (busCycle ramAgent (fetchInto fun _ => firstMem op .absY)
      ⟨⟨ab, a, x, y, sp, p⟩, ir, pd, ab, db, true, 0#8, cyc, .fetchOpcode, jl⟩ mem) =
        ⟨ab + 1#16, .read, Memory.read mem (ab + 1#16)⟩ :: ⟨ab + 2#16, .read, Memory.read mem (ab + 2#16)⟩ ::
          traceOn pr k (indexHi op y (Memory.read mem (ab + 1#16))
            (Memory.read mem (ab + 2#16)) c, mem) ∧
      c.regs = ⟨ab + 3#16, a, x, y, sp, p⟩ := fun k => ⟨_, by
    simp only [traceOn, transactionOf, busCycle, transact, fetchInto, runMicroOp, firstMem, absLo, absHi, Cpu.rd,
      Cpu.goto, Cpu.setPc, Cpu.incPc, Cpu.rdPc, Cpu.tick, ramAgent, Cpu.atFetch, beq_iff_eq, reduceCtorEq, if_true,
      if_false, Addr.add_one_one, Addr.add_two_one, loByte_zext16, State.addressTrace, State.reads, State.operand1,
      State.operand2, State.effectiveAddress, State.zeroPagePointer, Regs.index, List.cons_append, List.nil_append]
    rfl, by rfl⟩
  obtain ⟨c, e, h1⟩ := head (k + indexPulses op (carriesOut (Memory.read mem (ab + 1#16)) y))
  obtain ⟨c', e', h1'⟩ := indexHi_traces pr op y (Memory.read mem (ab + 1#16))
    (Memory.read mem (ab + 2#16)) c mem k
  refine ⟨c', ?_, h1'.trans h1⟩
  rw [e, e']
  simp [State.addressTrace, State.fixupTrace, hcross, State.unfixedAddress, State.baseAddress, State.reads, State.operand1,
    State.operand2, State.zeroPagePointer, State.effectiveAddress]

theorem indY_traces (s : State) (h : s.atBoundary = true) (op : MemOp) :
    TracesTo s op .indY (3 + indexPulses op (s.crosses .indY)) := by
  obtain ⟨⟨⟨pc, a, x, y, sp, p⟩, ir, pd, ab, db, ri, tcu, cyc, nx, jl⟩, mem, pr⟩ := s
  simp only [State.atBoundary_iff] at h
  obtain ⟨rfl, rfl, rfl, rfl⟩ := h
  intro k
  have hcross : ∀ c, State.crosses ⟨⟨⟨ab, a, x, y, sp, p⟩, ir, pd, ab, db, true, 0#8, cyc, .fetchOpcode, jl⟩, mem, c⟩
      .indY = carriesOut (Memory.read mem (zext16 (Memory.read mem (ab + 1#16)))) y := by
    simp [State.crosses, State.baseAddress, State.zeroPagePointer, State.operand1, State.operand2]
  rw [hcross, Nat.add_comm 3, ← Nat.add_assoc]
  have head : ∀ k, ∃ c, traceOn pr (k + 3) (busCycle ramAgent (fetchInto fun _ => firstMem op .indY)
      ⟨⟨ab, a, x, y, sp, p⟩, ir, pd, ab, db, true, 0#8, cyc, .fetchOpcode, jl⟩ mem) =
        ⟨ab + 1#16, .read, Memory.read mem (ab + 1#16)⟩ ::
        ⟨zext16 (Memory.read mem (ab + 1#16)), .read, Memory.read mem (zext16 (Memory.read mem (ab + 1#16)))⟩ ::
        ⟨zext16 ((Memory.read mem (ab + 1#16)) + 1#8), .read, Memory.read mem (zext16 ((Memory.read mem (ab + 1#16)) + 1#8))⟩ ::
          traceOn pr k (indexHi op y (Memory.read mem (zext16 (Memory.read mem (ab + 1#16))))
            (Memory.read mem (zext16 ((Memory.read mem (ab + 1#16)) + 1#8))) c, mem) ∧
      c.regs = ⟨ab + 2#16, a, x, y, sp, p⟩ := fun k => ⟨_, by
    simp only [traceOn, transactionOf, busCycle, transact, fetchInto, runMicroOp, firstMem, izyPtr, izyLo, izyHi, Cpu.rd,
      Cpu.goto, Cpu.setPc, Cpu.incPc, Cpu.rdPc, Cpu.tick, ramAgent, Cpu.atFetch, beq_iff_eq, reduceCtorEq, if_true,
      if_false, Addr.add_one_one, Addr.add_two_one, loByte_zext16, State.addressTrace, State.reads, State.operand1,
      State.operand2, State.effectiveAddress, State.zeroPagePointer, Regs.index, List.cons_append, List.nil_append]
    rfl, by rfl⟩
  obtain ⟨c, e, h1⟩ := head (k + indexPulses op (carriesOut (Memory.read mem (zext16 (Memory.read mem (ab + 1#16)))) y))
  obtain ⟨c', e', h1'⟩ := indexHi_traces pr op y (Memory.read mem (zext16 (Memory.read mem (ab + 1#16))))
    (Memory.read mem (zext16 ((Memory.read mem (ab + 1#16)) + 1#8))) c mem k
  refine ⟨c', ?_, h1'.trans h1⟩
  rw [e, e']
  simp [State.addressTrace, State.fixupTrace, hcross, State.unfixedAddress, State.baseAddress, State.reads, State.operand1,
    State.operand2, State.zeroPagePointer, State.effectiveAddress]

/-- Every data mode shows its address cycles (41_addressing.md R182). -/
theorem address_traces (s : State) (h : s.atBoundary = true) (op : MemOp) (m : DataMode) :
    TracesTo s op m (s.addressPulses op m) := by
  cases m
  case zp => exact zp_traces s h op
  case zpX => exact zpX_traces s h op
  case zpY => exact zpY_traces s h op
  case abs => exact abs_traces s h op
  case absX => exact absX_traces s h op
  case absY => exact absY_traces s h op
  case indX => exact indX_traces s h op
  case indY => exact indY_traces s h op

/-- The chain that starts with `m` shows this trace, opcode read first. -/
def ShowsTrace (s : State) (m : MicroOp) (trace : List BusCycle) : Prop :=
  s.reads s.cpu.regs.pc :: traceOn s.params 7 (busCycle ramAgent (fetchInto fun _ => m) s.cpu s.mem) = trace

/-- The address cycles and the tail in one. -/
theorem chain_shows (s : State) (h : s.atBoundary = true) (op : MemOp) (m : DataMode) (tail : List BusCycle)
    (ht : ∀ k c, c.regs = s.cpu.regs.advance (1 + m.operandCount) →
      traceOn s.params (k + 3) (eaReady op (s.effectiveAddress m) c, s.mem) = tail) :
    ShowsTrace s (firstMem op m) (s.addressTrace op.alwaysFixes m ++ tail) := by
  obtain ⟨c, e, hr⟩ := address_traces s h op m (7 - s.addressPulses op m)
  obtain ⟨k, hk⟩ := s.pulses_after_address op m
  rw [show 7 - s.addressPulses op m + s.addressPulses op m = 7 by omega, hk, ht k c hr] at e
  exact e

/-- Kind R (R182). -/
theorem read_shows (s : State) (h : s.atBoundary = true) (op : ReadOp) (m : ReadMode) :
    ShowsTrace s (firstRead op m) (s.readTrace m) := by
  cases m with
  | imm =>
    obtain ⟨⟨⟨pc, a, x, y, sp, p⟩, ir, pd, ab, db, ri, tcu, cyc, nx, jl⟩, mem, pr⟩ := s
    simp only [State.atBoundary_iff] at h
    obtain ⟨rfl, rfl, rfl, rfl⟩ := h
    rfl
  | mem m => exact chain_shows s h (.read op) m _ fun k c _ => rfl

/-- Kind W (R182). -/
theorem write_shows (s : State) (h : s.atBoundary = true) (op : WriteOp) (m : DataMode) :
    ShowsTrace s (firstMem (.write op) m) (s.writeTrace m (storeValue op s.cpu.regs)) := by
  refine chain_shows s h (.write op) m _ fun k c hr => ?_
  rw [← storeValue_setPc s.cpu.regs op (s.cpu.regs.pc + BitVec.ofNat 16 (1 + m.operandCount))]
  change _ = [BusCycle.mk _ _ (storeValue op (s.cpu.regs.advance (1 + m.operandCount)))]
  rw [← hr]
  rfl

/-- Kind M (R182). -/
theorem rmw_shows (s : State) (h : s.atBoundary = true) (op : RmwOp) (m : DataMode) :
    ShowsTrace s (firstMem (.rmw op) m) (s.rmwTrace m (rmwExec op (s.operandByte (.mem m)) s.cpu.regs).1) := by
  refine chain_shows s h (.rmw op) m _ fun k c hr => ?_
  have hv : (rmwExec op (s.operandByte (.mem m)) s.cpu.regs).1 =
      (rmwExec op (s.operandByte (.mem m)) (s.cpu.regs.advance (1 + m.operandCount))).1 := by cases op <;> rfl
  rw [hv, ← hr]
  simp [traceOn, transactionOf, busCycle, transact, runMicroOp, eaReady, rmwRead, rmwModify, ramAgent, Cpu.atFetch,
    State.reads, State.operandByte]
  cases k <;> rfl

/-! The other shapes. -/

/-- Implied and accumulator (40_sequencer.md R139). -/
theorem implied_shows (s : State) (h : s.atBoundary = true) (op : ImpliedOp) :
    ShowsTrace s (.implied op)
      s.shortTrace := by
  obtain ⟨⟨⟨pc, a, x, y, sp, p⟩, ir, pd, ab, db, ri, tcu, cyc, nx, jl⟩, mem, pr⟩ := s
  simp only [State.atBoundary_iff] at h
  obtain ⟨rfl, rfl, rfl, rfl⟩ := h
  rfl

/-- PHA, PHP (46_stack_flag_nop.md R365, R366). -/
theorem push_shows (s : State) (h : s.atBoundary = true) (op : PushOp) :
    ShowsTrace s (.pushDummy op)
      (s.shortTrace ++ [⟨stackAddr s.cpu.regs.sp, .write, pushValue op s.cpu.regs⟩]) := by
  obtain ⟨⟨⟨pc, a, x, y, sp, p⟩, ir, pd, ab, db, ri, tcu, cyc, nx, jl⟩, mem, pr⟩ := s
  simp only [State.atBoundary_iff] at h
  obtain ⟨rfl, rfl, rfl, rfl⟩ := h
  rw [← pushValue_setPc _ op (ab + 1#16)]
  rfl

/-- PLA, PLP (R367, R368). -/
theorem pull_shows (s : State) (h : s.atBoundary = true) (op : PullOp) :
    ShowsTrace s (.pullDummy op)
      (s.shortTrace ++ [s.reads (stackAddr s.cpu.regs.sp), s.reads (stackAddr (s.cpu.regs.sp + 1#8))]) := by
  obtain ⟨⟨⟨pc, a, x, y, sp, p⟩, ir, pd, ab, db, ri, tcu, cyc, nx, jl⟩, mem, pr⟩ := s
  simp only [State.atBoundary_iff] at h
  obtain ⟨rfl, rfl, rfl, rfl⟩ := h
  rfl

/-- JMP absolute (45_control_flow.md R324). -/
theorem jmpAbs_shows (s : State) (h : s.atBoundary = true) :
    ShowsTrace s .jmpLo
      (s.shortTrace ++ [s.reads (s.cpu.regs.pc + 2#16)]) := by
  obtain ⟨⟨⟨pc, a, x, y, sp, p⟩, ir, pd, ab, db, ri, tcu, cyc, nx, jl⟩, mem, pr⟩ := s
  simp only [State.atBoundary_iff] at h
  obtain ⟨rfl, rfl, rfl, rfl⟩ := h
  simp [ShowsTrace, traceOn, transactionOf, busCycle, transact, fetchInto, runMicroOp, Cpu.tick, ramAgent, Cpu.atFetch, beq_iff_eq, reduceCtorEq,
    State.reads, State.operand1, State.operand2, State.shortTrace, jmpLo, jmpHi, Addr.add_one_one]

/-- JMP indirect (R329). -/
theorem jmpInd_shows (s : State) (h : s.atBoundary = true) :
    ShowsTrace s .jmpIndLo
      (s.shortTrace ++ [s.reads (s.cpu.regs.pc + 2#16), s.reads (cat s.operand2 s.operand1),
        s.reads (pointerNext (cat s.operand2 s.operand1))]) := by
  obtain ⟨⟨⟨pc, a, x, y, sp, p⟩, ir, pd, ab, db, ri, tcu, cyc, nx, jl⟩, mem, pr⟩ := s
  simp only [State.atBoundary_iff] at h
  obtain ⟨rfl, rfl, rfl, rfl⟩ := h
  simp [ShowsTrace, traceOn, transactionOf, busCycle, transact, fetchInto, runMicroOp, Cpu.tick, ramAgent, Cpu.atFetch, beq_iff_eq, reduceCtorEq,
    State.reads, State.operand1, State.operand2, State.shortTrace, jmpIndLo, jmpIndHi, jmpIndTgtLo, jmpIndTgtHi, Addr.add_one_one]

/-- JSR (R335). -/
theorem jsr_shows (s : State) (h : s.atBoundary = true) :
    ShowsTrace s .jsrLo
      (s.shortTrace ++ [s.reads (stackAddr s.cpu.regs.sp),
        ⟨stackAddr s.cpu.regs.sp, .write, hiByte (s.cpu.regs.pc + 2#16)⟩,
        ⟨stackAddr (s.cpu.regs.sp - 1#8), .write, loByte (s.cpu.regs.pc + 2#16)⟩,
        ⟨s.cpu.regs.pc + 2#16, .read, Memory.read (jsrMemory s) (s.cpu.regs.pc + 2#16)⟩]) := by
  obtain ⟨⟨⟨pc, a, x, y, sp, p⟩, ir, pd, ab, db, ri, tcu, cyc, nx, jl⟩, mem, pr⟩ := s
  simp only [State.atBoundary_iff] at h
  obtain ⟨rfl, rfl, rfl, rfl⟩ := h
  simp [ShowsTrace, traceOn, transactionOf, busCycle, transact, fetchInto, runMicroOp, Cpu.tick, ramAgent, Cpu.atFetch, beq_iff_eq, reduceCtorEq,
    State.reads, State.operand1, State.operand2, State.shortTrace, jsrLo, jsrStack, jsrPushHi, jsrPushLo, jsrHi, jsrMemory, Addr.add_one_one]

/-- RTS (R341). -/
theorem rts_shows (s : State) (h : s.atBoundary = true) :
    ShowsTrace s .rtsDummy
      (s.shortTrace ++ [s.reads (stackAddr s.cpu.regs.sp), s.reads (stackAddr (s.cpu.regs.sp + 1#8)),
        s.reads (stackAddr (s.cpu.regs.sp + 2#8)), s.reads (s.pulledPc 1#8)]) := by
  obtain ⟨⟨⟨pc, a, x, y, sp, p⟩, ir, pd, ab, db, ri, tcu, cyc, nx, jl⟩, mem, pr⟩ := s
  simp only [State.atBoundary_iff] at h
  obtain ⟨rfl, rfl, rfl, rfl⟩ := h
  simp [ShowsTrace, traceOn, transactionOf, busCycle, transact, fetchInto, runMicroOp, Cpu.tick, ramAgent, Cpu.atFetch, beq_iff_eq, reduceCtorEq,
    State.reads, State.operand1, State.operand2, State.shortTrace, rtsDummy, rtsStack, rtsPullLo, rtsPullHi, rtsInc, State.pulledPc, Byte.add_one_one, Addr.add_one_one]

/-- BRK (R348). -/
theorem brk_shows (s : State) (h : s.atBoundary = true) :
    ShowsTrace s .brkSig
      (s.shortTrace ++ [⟨stackAddr s.cpu.regs.sp, .write, hiByte (s.cpu.regs.pc + 2#16)⟩,
        ⟨stackAddr (s.cpu.regs.sp - 1#8), .write, loByte (s.cpu.regs.pc + 2#16)⟩,
        ⟨stackAddr (s.cpu.regs.sp - 2#8), .write, s.cpu.regs.pushedP⟩,
        ⟨Config.brkVectorLo, .read, Memory.read (brkMemory s) Config.brkVectorLo⟩,
        ⟨Config.brkVectorHi, .read, Memory.read (brkMemory s) Config.brkVectorHi⟩]) := by
  obtain ⟨⟨⟨pc, a, x, y, sp, p⟩, ir, pd, ab, db, ri, tcu, cyc, nx, jl⟩, mem, pr⟩ := s
  simp only [State.atBoundary_iff] at h
  obtain ⟨rfl, rfl, rfl, rfl⟩ := h
  simp [ShowsTrace, traceOn, transactionOf, busCycle, transact, fetchInto, runMicroOp, Cpu.tick, ramAgent, Cpu.atFetch, beq_iff_eq, reduceCtorEq,
    State.reads, State.operand1, State.operand2, State.shortTrace, brkSig, brkPushHi, brkPushLo, brkPushP, brkVecLo, brkVecHi, brkMemory, jsrMemory, Byte.sub_one_one,
    Regs.pushedP, Addr.add_one_one]

/-- RTI (R354). -/
theorem rti_shows (s : State) (h : s.atBoundary = true) :
    ShowsTrace s .rtiDummy
      (s.shortTrace ++ [s.reads (stackAddr s.cpu.regs.sp), s.reads (stackAddr (s.cpu.regs.sp + 1#8)),
        s.reads (stackAddr (s.cpu.regs.sp + 2#8)), s.reads (stackAddr (s.cpu.regs.sp + 3#8))]) := by
  obtain ⟨⟨⟨pc, a, x, y, sp, p⟩, ir, pd, ab, db, ri, tcu, cyc, nx, jl⟩, mem, pr⟩ := s
  simp only [State.atBoundary_iff] at h
  obtain ⟨rfl, rfl, rfl, rfl⟩ := h
  simp [ShowsTrace, traceOn, transactionOf, busCycle, transact, fetchInto, runMicroOp, Cpu.tick, ramAgent, Cpu.atFetch, beq_iff_eq, reduceCtorEq,
    State.reads, State.operand1, State.operand2, State.shortTrace, rtiDummy, rtiStack, rtiPullP, rtiPullLo, rtiPullHi, Byte.add_one_one, Byte.add_two_one, Addr.add_one_one]

/-- The branches (R309, R311 to R313). -/
theorem branch_shows (s : State) (h : s.atBoundary = true) (op : BranchOp) :
    ShowsTrace s (.branch op) (s.branchTrace op) := by
  obtain ⟨⟨⟨pc, a, x, y, sp, p⟩, ir, pd, ab, db, ri, tcu, cyc, nx, jl⟩, mem, pr⟩ := s
  simp only [State.atBoundary_iff] at h
  obtain ⟨rfl, rfl, rfl, rfl⟩ := h
  have hb : ∀ q : Params, State.branchTrace ⟨⟨⟨ab, a, x, y, sp, p⟩, ir, pd, ab, db, true, 0#8, cyc, .fetchOpcode, jl⟩, mem, q⟩ op =
      ⟨ab, .read, Memory.read mem ab⟩ :: ⟨ab + 1#16, .read, Memory.read mem (ab + 1#16)⟩ ::
        if Regs.taken ⟨ab + 1#16, a, x, y, sp, p⟩ op then
          ⟨ab + 2#16, .read, Memory.read mem (ab + 2#16)⟩ ::
            if hiByte (branchTarget (ab + 2#16) (Memory.read mem (ab + 1#16))) = hiByte (ab + 2#16) then []
            else [⟨cat (hiByte (ab + 2#16)) (loByte (branchTarget (ab + 2#16) (Memory.read mem (ab + 1#16)))), .read,
              Memory.read mem (cat (hiByte (ab + 2#16)) (loByte (branchTarget (ab + 2#16) (Memory.read mem (ab + 1#16)))))⟩]
        else [] := fun _ => rfl
  rw [hb]
  cases ht : Regs.taken ⟨ab + 1#16, a, x, y, sp, p⟩ op
  · simp [ShowsTrace, traceOn, transactionOf, busCycle, transact, fetchInto, runMicroOp, Cpu.tick, ramAgent, Cpu.atFetch, beq_iff_eq, reduceCtorEq,
    State.reads, State.operand1, State.operand2, State.shortTrace, branch, ht, Addr.add_one_one]
  · by_cases hp : hiByte (branchTarget (ab + 2#16) (Memory.read mem (ab + 1#16))) = hiByte (ab + 2#16)
    · simp [ShowsTrace, traceOn, transactionOf, busCycle, transact, fetchInto, runMicroOp, Cpu.tick, ramAgent, Cpu.atFetch, beq_iff_eq, reduceCtorEq,
    State.reads, State.operand1, State.operand2, State.shortTrace, branch, branchTaken, ht, hp, Addr.add_one_one]
    · simp [ShowsTrace, traceOn, transactionOf, busCycle, transact, fetchInto, runMicroOp, Cpu.tick, ramAgent, Cpu.atFetch, beq_iff_eq, reduceCtorEq,
    State.reads, State.operand1, State.operand2, State.shortTrace, branch, branchTaken, branchFix, ht, hp, Addr.add_one_one]

end Sys2Proof.Machine
end

