-- ==== Sys2Proof/Laws/Effects.lean ====
section
/-! SUPPORT. From a chain's lemmas to the effect of the instruction that runs it: what is left to show is the
instruction's own registers, flags and stores. -/

namespace Sys2Proof.Machine

/-- The end of a chain is the boundary with effect `e`, once the registers, flags and stores agree. -/
theorem Ends.reaches {s t : State} {regs : Regs} {mem : Memory} {jl : Byte} {n : Nat} (h : Ends s t regs mem jl n)
    {e : Effect} (pc : regs.pc = e.pc) (a : regs.a = e.a) (x : regs.x = e.x) (y : regs.y = e.y) (sp : regs.sp = e.sp)
    (flags : SetsFlags s.cpu.regs regs e.flags)
    (memory : ∀ ad, Memory.read mem ad = afterStores (Memory.read s.mem) e.stores ad) (jsrLo : jl = e.jsrLo)
    (cycles : n = e.cycles) : Reaches s t e where
  boundary := h.boundary
  pc := by rw [h.regs, pc]
  a := by rw [h.regs, a]
  x := by rw [h.regs, x]
  y := by rw [h.regs, y]
  sp := by rw [h.regs, sp]
  flags := by rw [h.regs]; exact flags
  memory := by rw [h.mem]; exact memory
  ir := h.ir
  jsrLo := by rw [h.jsrLo, jsrLo]
  cyc := by rw [h.cyc, cycles]
  params := h.params

/-- An instruction performs what its chain ends with and shows what its chain shows. -/
theorem performs_of_chain {s : State} (h : s.atBoundary = true) {i : Instr} {m : MicroOp} {e : Effect}
    {trace : List BusCycle} (hx : exec i s = s.runDocumented m)
    (hd : dispatchTo s.params.undocSupport i s.fetchByte = m) (hf : m ≠ .fetchOpcode)
    (hu : ∀ op, m ≠ .unimplemented op) (hc : ∃ t, s.runDocumented m = .next t ∧ Reaches s t e)
    (ht : ShowsTrace s m trace) : Performs s i e trace := by
  obtain ⟨t, ht', hr⟩ := hc
  exact ⟨⟨t, hx.trans ht', hr⟩, fun hdec => (busTrace_eq s h i hdec m hd hf hu).trans ht⟩

/-- One store, in a memory in its canonical form. -/
theorem read_after_store (s : State) (hw : Memory.wf s.mem = true) (ea : Addr) (v : Byte) (ad : Addr) :
    Memory.read (Memory.write s.mem ea v) ad = afterStores (Memory.read s.mem) [(ea, v)] ad := by
  simp [afterStores, Memory.read_write _ _ _ _ hw]

/-- The two stores of a read-modify-write leave the second (41_addressing.md R166). -/
theorem read_after_rmw (s : State) (hw : Memory.wf s.mem = true) (ea : Addr) (v r : Byte) (ad : Addr) :
    Memory.read (Memory.write (Memory.write s.mem ea v) ea r) ad = afterStores (Memory.read s.mem) [(ea, r)] ad := by
  rw [Memory.read_write _ _ _ _ (Memory.write_wf _ _ _ hw)]
  by_cases e : ad = ea
  · simp [afterStores, e]
  · simp [afterStores, e, Memory.read_write_other]

end Sys2Proof.Machine
end

