-- ==== Sys2Proof/Laws/Dispatch.lean ====
section
/-! SUPPORT. What a pulse and a micro-op can do, said once: the meaning of every instruction as its dispatch, the one
next state of a pulse, and that every micro-op ends its instruction or comes closer to its end. -/

namespace Sys2Proof.Machine

/-- Every meaning is the run of the instruction's dispatch (40_sequencer.md R135, R136). -/
theorem exec_eq_runInstr (i : Instr) (s : State) :
    exec i s = s.runInstr fun ir => dispatchTo s.params.undocSupport i ir := by
  cases i <;> rfl

theorem firstMem_ne_fetch (op : MemOp) (m : DataMode) : firstMem op m ≠ .fetchOpcode := by
  cases m <;> simp [firstMem]

theorem firstMicroOp_ne_fetch (i : Instr) (ir : Byte) : firstMicroOp i ir ≠ .fetchOpcode := by
  have hr : ∀ op m, firstRead op m ≠ .fetchOpcode := by
    rintro op (_ | m)
    · simp [firstRead]
    · exact firstMem_ne_fetch _ m
  have hs : ∀ a op m, firstShift a op m ≠ .fetchOpcode := by
    rintro a op (_ | m)
    · simp [firstShift]
    · exact firstMem_ne_fetch _ m
  cases i <;> simp [firstMicroOp, firstMem_ne_fetch, hr, hs]

/-- The opcode fetch never leads to an opcode fetch. -/
theorem dispatchTo_ne_fetch (b : Bool) (i : Instr) (ir : Byte) : dispatchTo b i ir ≠ .fetchOpcode := by
  unfold dispatchTo
  cases i.opClass
  · exact firstMicroOp_ne_fetch i ir
  · cases b
    · simp
    · exact firstMicroOp_ne_fetch i ir
  · simp

/-- An instruction takes at most 8 pulses, its opcode fetch among them. -/
theorem dispatchTo_pulsesLeft (b : Bool) (i : Instr) (ir : Byte) : (dispatchTo b i ir).pulsesLeft ≤ 7 := by
  have hm : ∀ op m, (firstMem op m).pulsesLeft ≤ 7 := by
    intro op m
    cases m <;> cases op <;> simp [firstMem, MicroOp.pulsesLeft, MemOp.tail]
  have hi : (firstMicroOp i ir).pulsesLeft ≤ 7 := by
    have hr : ∀ op m, (firstRead op m).pulsesLeft ≤ 7 := by
      rintro op (_ | m)
      · simp [firstRead, MicroOp.pulsesLeft]
      · exact hm _ m
    have hs : ∀ a op m, (firstShift a op m).pulsesLeft ≤ 7 := by
      rintro a op (_ | m)
      · simp [firstShift, MicroOp.pulsesLeft]
      · exact hm _ m
    cases i <;> simp only [firstMicroOp]
    all_goals first
      | exact hm _ _
      | exact hr _ _
      | exact hs _ _ _
      | simp [MicroOp.pulsesLeft]
  unfold dispatchTo
  cases i.opClass
  · exact hi
  · cases b
    · simp [MicroOp.pulsesLeft]
    · exact hi
  · simp [MicroOp.pulsesLeft]

/-- The one next state of a pulse (R130). -/
theorem pulseOn_next {σ : Type} {M : MemAgent σ} {params : Params} {c c' : Cpu} {m m' : σ}
    (h : pulseOn M params (c, m) = .next (c', m')) :
    (∀ op, c.nextMicroOp ≠ .unimplemented op) ∧
      c' = runMicroOp params c.nextMicroOp (transact M c.tick m).1 ∧ m' = (transact M c.tick m).2 := by
  unfold pulseOn at h
  split at h
  · cases h
  · rename_i hne
    simp only [busCycle] at h
    injection h with h
    injection h with h1 h2
    exact ⟨fun op e => hne op e, h1.symm, h2.symm⟩

/-- What a transaction leaves in the core: only `data_bus` can change (R144). -/
theorem transact_core {σ : Type} (M : MemAgent σ) (c : Cpu) (m : σ) :
    (transact M c m).1 = { c with dataBus := if c.readIntent then (M.read m c.addrBus).1 else c.dataBus } := by
  obtain ⟨regs, ir, pd, ab, db, ri, tcu, cyc, nx, jl⟩ := c
  cases ri <;> rfl

/-- A property that every pulse keeps holds after a run of pulses. -/
theorem runOn_keeps {σ : Type} {M : MemAgent σ} {params : Params} {P : Cpu × σ → Prop}
    (hp : ∀ r r', P r → pulseOn M params r = .next r' → P r') (n : Nat) {r r' : Cpu × σ} (h : P r)
    (e : runOn M params n r = .next r') : P r' := by
  induction n generalizing r with
  | zero =>
    cases e
    exact h
  | succ n ih =>
    simp only [runOn] at e
    split at e
    · cases e
      exact h
    · split at e
      · rename_i r1 hr1
        exact ih (hp r r1 h hr1) e
      · cases e
      · cases e

/-- The core after a micro-op other than the opcode fetch: either it is at a boundary, by `finish` (R133), or the
counter stands and the chain is shorter. -/
def Advances (m : MicroOp) (c c' : Cpu) : Prop :=
  (c'.nextMicroOp = .fetchOpcode ∧ c'.tcu = 0#8 ∧ c'.readIntent = true ∧ c'.addrBus = c'.regs.pc) ∨
    (c'.nextMicroOp ≠ .fetchOpcode ∧ (∀ op, c'.nextMicroOp ≠ .unimplemented op) ∧ c'.tcu = c.tcu ∧
      c'.nextMicroOp.pulsesLeft + 1 ≤ m.pulsesLeft)

theorem eaReady_advances (m : MicroOp) (op : MemOp) (ea : Addr) (c : Cpu) (h : op.tail + 1 ≤ m.pulsesLeft) :
    Advances m c (eaReady op ea c) := by
  cases op <;> exact .inr ⟨nofun, nofun, rfl, h⟩

theorem indexHi_advances (m : MicroOp) (op : MemOp) (i lo hi : Byte) (c : Cpu) (h : op.tail + 2 ≤ m.pulsesLeft) :
    Advances m c (indexHi op i lo hi c) := by
  simp only [indexHi]
  split
  · exact .inr ⟨nofun, nofun, rfl, by simp [MicroOp.pulsesLeft, MemOp.tail] at h ⊢; omega⟩
  · exact .inr ⟨nofun, nofun, rfl, h⟩

theorem runMicroOp_advances (params : Params) (m : MicroOp) (c : Cpu) (hf : m ≠ .fetchOpcode)
    (hu : ∀ op, m ≠ .unimplemented op) : Advances m c (runMicroOp params m c) := by
  cases m
  case fetchOpcode => exact absurd rfl hf
  case unimplemented op => exact absurd rfl (hu op)
  case absHi op idx =>
    cases idx
    · exact eaReady_advances (.absHi op none) op _ c.incPc (Nat.le_refl _)
    · rename_i r
      exact indexHi_advances (.absHi op (some r)) op _ _ _ c.incPc (Nat.le_refl _)
  case absLo op idx => cases idx <;> exact .inr ⟨nofun, nofun, rfl, Nat.le_refl _⟩
  case izyHi op => exact indexHi_advances (.izyHi op) op _ _ _ c (Nat.le_refl _)
  case branch op =>
    simp only [runMicroOp, branch]
    split
    · exact .inr ⟨nofun, nofun, rfl, Nat.le_refl _⟩
    · exact .inl ⟨rfl, rfl, rfl, rfl⟩
  case branchTaken =>
    simp only [runMicroOp, branchTaken]
    split
    · exact .inl ⟨rfl, rfl, rfl, rfl⟩
    · exact .inr ⟨nofun, nofun, rfl, Nat.le_refl _⟩
  case zpAddr op => exact eaReady_advances (.zpAddr op) op _ c.incPc (Nat.le_refl _)
  case zpIdxAdd op idx => exact eaReady_advances (.zpIdxAdd op idx) op _ c (Nat.le_refl _)
  case idxFix op b => exact eaReady_advances (.idxFix op b) op _ c (Nat.le_refl _)
  case izxHi op => exact eaReady_advances (.izxHi op) op _ c (Nat.le_refl _)
  all_goals first
    | exact .inl ⟨rfl, rfl, rfl, rfl⟩
    | exact .inr ⟨nofun, nofun, rfl, Nat.le_refl _⟩

end Sys2Proof.Machine
end

