-- ==== Sys2Proof/Laws/Outcomes.lean ====
section
/-! SUPPORT. Everything an instruction can do, said once: its end state, in one table over all instructions. A claim
about all instructions cases on the instruction and reads this table. -/

namespace Sys2Proof.Machine

/-- Whether the opcode of `i` executes (30_encoding.md R103 to R105). -/
def State.executes (s : State) (i : Instr) : Bool :=
  match i.opClass with
  | .documented => true
  | .undocumented => s.params.undocSupport
  | .unimplemented => false

/-- What an instruction leaves at the next boundary. -/
structure After where
  regs : Regs
  mem : Memory
  jsrLo : Byte
  cycles : Nat

/-- Kind R. -/
def State.afterRead (s : State) (op : ReadOp) (m : ReadMode) : After :=
  ⟨readExec op (s.operandByte m) (s.cpu.regs.advance (1 + m.operandCount)), s.mem, s.cpu.jsrLo, s.readCycles m⟩

/-- Kind W. -/
def State.afterWrite (s : State) (op : WriteOp) (m : DataMode) : After :=
  ⟨s.cpu.regs.advance (1 + m.operandCount), Memory.write s.mem (s.effectiveAddress m) (storeValue op s.cpu.regs),
    s.cpu.jsrLo, writeCycles m⟩

/-- Kind M. -/
def State.afterRmw (s : State) (op : RmwOp) (m : DataMode) : After :=
  ⟨(rmwExec op (s.operandByte (.mem m)) (s.cpu.regs.advance (1 + m.operandCount))).2,
    Memory.write (Memory.write s.mem (s.effectiveAddress m) (s.operandByte (.mem m))) (s.effectiveAddress m)
      (rmwExec op (s.operandByte (.mem m)) s.cpu.regs).1, s.cpu.jsrLo, rmwCycles m⟩

/-- Implied and accumulator. -/
def State.afterImplied (s : State) (op : ImpliedOp) : After :=
  ⟨impliedExec op (s.cpu.regs.advance 1), s.mem, s.cpu.jsrLo, 2⟩

/-- The shifts and rotates. -/
def State.afterShift (s : State) (acc : ImpliedOp) (op : RmwOp) : ShiftMode → After
  | .acc => s.afterImplied acc
  | .mem m => s.afterRmw op m

/-- The branches. -/
def State.afterBranch (s : State) (op : BranchOp) : After :=
  ⟨{ s.cpu.regs with pc := if s.cpu.regs.taken op then s.target else s.cpu.regs.pc + 2#16 }, s.mem, s.cpu.jsrLo,
    s.branchCycles op⟩

/-- PHA, PHP. -/
def State.afterPush (s : State) (op : PushOp) : After :=
  ⟨{ s.cpu.regs.advance 1 with sp := s.cpu.regs.sp - 1#8 },
    Memory.write s.mem (stackAddr s.cpu.regs.sp) (pushValue op s.cpu.regs), s.cpu.jsrLo, 3⟩

/-- PLA, PLP. -/
def State.afterPull (s : State) (op : PullOp) : After :=
  ⟨pullExec op (Memory.read s.mem (stackAddr (s.cpu.regs.sp + 1#8)))
    { s.cpu.regs.advance 1 with sp := s.cpu.regs.sp + 1#8 }, s.mem, s.cpu.jsrLo, 4⟩

/-- What each instruction leaves, where it executes. -/
def State.after (s : State) : Instr → After
  | .lda m => s.afterRead .lda m
  | .ldx m => s.afterRead .ldx m
  | .ldy m => s.afterRead .ldy m
  | .ora m => s.afterRead .ora m
  | .and m => s.afterRead .and m
  | .eor m => s.afterRead .eor m
  | .adc m => s.afterRead .adc m
  | .sbc m => s.afterRead .sbc m
  | .cmp m => s.afterRead .cmp m
  | .cpx m => s.afterRead .cpx m
  | .cpy m => s.afterRead .cpy m
  | .sta m => s.afterWrite .sta m
  | .stx m => s.afterWrite .stx m
  | .sty m => s.afterWrite .sty m
  | .tax => s.afterImplied .tax
  | .tay => s.afterImplied .tay
  | .txa => s.afterImplied .txa
  | .tya => s.afterImplied .tya
  | .tsx => s.afterImplied .tsx
  | .txs => s.afterImplied .txs
  | .bit m => s.afterRead .bit (.mem m)
  | .inc m => s.afterRmw .inc m
  | .dec m => s.afterRmw .dec m
  | .inx => s.afterImplied .inx
  | .iny => s.afterImplied .iny
  | .dex => s.afterImplied .dex
  | .dey => s.afterImplied .dey
  | .asl m => s.afterShift .asl .asl m
  | .lsr m => s.afterShift .lsr .lsr m
  | .rol m => s.afterShift .rol .rol m
  | .ror m => s.afterShift .ror .ror m
  | .bpl => s.afterBranch .bpl
  | .bmi => s.afterBranch .bmi
  | .bvc => s.afterBranch .bvc
  | .bvs => s.afterBranch .bvs
  | .bcc => s.afterBranch .bcc
  | .bcs => s.afterBranch .bcs
  | .bne => s.afterBranch .bne
  | .beq => s.afterBranch .beq
  | .jmpAbs => ⟨{ s.cpu.regs with pc := cat s.operand2 s.operand1 }, s.mem, s.cpu.jsrLo, 3⟩
  | .jmpInd =>
    ⟨{ s.cpu.regs with
        pc := cat (Memory.read s.mem (pointerNext (cat s.operand2 s.operand1)))
          (Memory.read s.mem (cat s.operand2 s.operand1)) }, s.mem, s.cpu.jsrLo, 5⟩
  | .jsr =>
    ⟨{ s.cpu.regs with
        pc := cat (Memory.read (jsrMemory s) (s.cpu.regs.pc + 2#16)) s.operand1
        sp := s.cpu.regs.sp - 2#8 }, jsrMemory s, s.operand1, 6⟩
  | .rts => ⟨{ s.cpu.regs with pc := s.pulledPc 1#8 + 1#16, sp := s.cpu.regs.sp + 2#8 }, s.mem, s.cpu.jsrLo, 6⟩
  | .brk =>
    ⟨{ s.cpu.regs.setFlag .i true with
        pc := cat (Memory.read (brkMemory s) Config.brkVectorHi) (Memory.read (brkMemory s) Config.brkVectorLo)
        sp := s.cpu.regs.sp - 3#8 }, brkMemory s, s.cpu.jsrLo, 7⟩
  | .rti =>
    ⟨{ s.cpu.regs.pullP (Memory.read s.mem (stackAddr (s.cpu.regs.sp + 1#8))) with
        pc := s.pulledPc 2#8, sp := s.cpu.regs.sp + 3#8 }, s.mem, s.cpu.jsrLo, 6⟩
  | .pha => s.afterPush .pha
  | .php => s.afterPush .php
  | .pla => s.afterPull .pla
  | .plp => s.afterPull .plp
  | .clc => s.afterImplied .clc
  | .sec => s.afterImplied .sec
  | .cli => s.afterImplied .cli
  | .sei => s.afterImplied .sei
  | .clv => s.afterImplied .clv
  | .cld => s.afterImplied .cld
  | .sed => s.afterImplied .sed
  | .nop => s.afterImplied .nop
  | .lax m => s.afterRead .lax (.mem m)
  | .sax m => s.afterWrite .sax m
  | .slo m => s.afterRmw .slo m
  | .rla m => s.afterRmw .rla m
  | .sre m => s.afterRmw .sre m
  | .rra m => s.afterRmw .rra m
  | .dcp m => s.afterRmw .dcp m
  | .isb m => s.afterRmw .isb m
  | .nopImplied _ => s.afterImplied .nop
  | .nopImm _ => s.afterRead .nop .imm
  | .nopZp _ => s.afterRead .nop (.mem .zp)
  | .nopZpX _ => s.afterRead .nop (.mem .zpX)
  | .nopAbs => s.afterRead .nop (.mem .abs)
  | .nopAbsX _ => s.afterRead .nop (.mem .absX)
  | .sbcDup => s.afterRead .sbc .imm
  | .jam _ | .anc _ | .alr | .arr | .xaa | .lxa | .axs | .sha _ | .tas | .shy | .shx | .las =>
    ⟨s.cpu.regs, s.mem, s.cpu.jsrLo, 0⟩

theorem shift_chain (s : State) (h : s.atBoundary = true) (acc : ImpliedOp) (op : RmwOp) (m : ShiftMode) :
    ∃ t, s.runDocumented (firstShift acc op m) = .next t ∧
      Ends s t (s.afterShift acc op m).regs (s.afterShift acc op m).mem (s.afterShift acc op m).jsrLo
        (s.afterShift acc op m).cycles := by
  cases m with
  | acc => exact implied_chain s h acc
  | mem m => exact rmw_chain s h op m

/-- An instruction whose opcode executes runs its chain. -/
theorem exec_of_executes (i : Instr) (s : State) (h : s.executes i = true) :
    exec i s = s.runDocumented (firstMicroOp i s.fetchByte) := by
  rw [exec_eq_runInstr]
  unfold State.executes at h
  cases hc : i.opClass
  · simp only [dispatchTo, hc]
    cases i <;> first | rfl | cases hc
  · rw [hc] at h
    simp only [dispatchTo, hc, show s.params.undocSupport = true from h]
    cases i <;> first | rfl | cases hc
  · rw [hc] at h
    cases h

/-- Every other opcode faults. -/
theorem exec_of_not_executes (i : Instr) (s : State) (h : s.executes i = false) :
    exec i s = .fault (.unimplementedOpcode s.fetchByte) := by
  rw [← unimplemented_faults s, exec_eq_runInstr]
  unfold State.executes at h
  cases hc : i.opClass
  · rw [hc] at h
    cases h
  · rw [hc] at h
    simp only [dispatchTo, hc, show s.params.undocSupport = false from h]
    rfl
  · simp only [dispatchTo, hc]
    rfl

/-- Where the opcode executes, the instruction ends as the table says. -/
theorem exec_ends (i : Instr) (s : State) (h : s.atBoundary = true) (hx : s.executes i = true) :
    ∃ t, exec i s = .next t ∧ Ends s t (s.after i).regs (s.after i).mem (s.after i).jsrLo (s.after i).cycles := by
  rw [exec_of_executes i s hx]
  cases i
  case lda m => exact read_chain s h .lda m
  case ldx m => exact read_chain s h .ldx m
  case ldy m => exact read_chain s h .ldy m
  case ora m => exact read_chain s h .ora m
  case and m => exact read_chain s h .and m
  case eor m => exact read_chain s h .eor m
  case adc m => exact read_chain s h .adc m
  case sbc m => exact read_chain s h .sbc m
  case cmp m => exact read_chain s h .cmp m
  case cpx m => exact read_chain s h .cpx m
  case cpy m => exact read_chain s h .cpy m
  case sta m => exact write_chain s h .sta m
  case stx m => exact write_chain s h .stx m
  case sty m => exact write_chain s h .sty m
  case tax => exact implied_chain s h .tax
  case tay => exact implied_chain s h .tay
  case txa => exact implied_chain s h .txa
  case tya => exact implied_chain s h .tya
  case tsx => exact implied_chain s h .tsx
  case txs => exact implied_chain s h .txs
  case bit m => exact read_chain s h .bit (.mem m)
  case inc m => exact rmw_chain s h .inc m
  case dec m => exact rmw_chain s h .dec m
  case inx => exact implied_chain s h .inx
  case iny => exact implied_chain s h .iny
  case dex => exact implied_chain s h .dex
  case dey => exact implied_chain s h .dey
  case asl m => exact shift_chain s h .asl .asl m
  case lsr m => exact shift_chain s h .lsr .lsr m
  case rol m => exact shift_chain s h .rol .rol m
  case ror m => exact shift_chain s h .ror .ror m
  case bpl => exact branch_chain s h .bpl
  case bmi => exact branch_chain s h .bmi
  case bvc => exact branch_chain s h .bvc
  case bvs => exact branch_chain s h .bvs
  case bcc => exact branch_chain s h .bcc
  case bcs => exact branch_chain s h .bcs
  case bne => exact branch_chain s h .bne
  case beq => exact branch_chain s h .beq
  case jmpAbs => exact jmpAbs_chain s h
  case jmpInd => exact jmpInd_chain s h
  case jsr => exact jsr_chain s h
  case rts => exact rts_chain s h
  case brk => exact brk_chain s h
  case rti => exact rti_chain s h
  case pha => exact push_chain s h .pha
  case php => exact push_chain s h .php
  case pla => exact pull_chain s h .pla
  case plp => exact pull_chain s h .plp
  case clc => exact implied_chain s h .clc
  case sec => exact implied_chain s h .sec
  case cli => exact implied_chain s h .cli
  case sei => exact implied_chain s h .sei
  case clv => exact implied_chain s h .clv
  case cld => exact implied_chain s h .cld
  case sed => exact implied_chain s h .sed
  case nop => exact implied_chain s h .nop
  case lax m => exact read_chain s h .lax (.mem m)
  case sax m => exact write_chain s h .sax m
  case slo m => exact rmw_chain s h .slo m
  case rla m => exact rmw_chain s h .rla m
  case sre m => exact rmw_chain s h .sre m
  case rra m => exact rmw_chain s h .rra m
  case dcp m => exact rmw_chain s h .dcp m
  case isb m => exact rmw_chain s h .isb m
  case nopImplied k => exact implied_chain s h .nop
  case nopImm k => exact read_chain s h .nop .imm
  case nopZp k => exact read_chain s h .nop (.mem .zp)
  case nopZpX k => exact read_chain s h .nop (.mem .zpX)
  case nopAbs => exact read_chain s h .nop (.mem .abs)
  case nopAbsX k => exact read_chain s h .nop (.mem .absX)
  case sbcDup => exact read_chain s h .sbc .imm
  all_goals cases hx

/-- The trace of a shift or rotate. -/
def State.shiftTrace (s : State) (op : RmwOp) : ShiftMode → List BusCycle
  | .acc => s.shortTrace
  | .mem m => s.rmwTrace m (rmwExec op (s.operandByte (.mem m)) s.cpu.regs).1

/-- The bus trace of each instruction, where it executes. -/
def State.shown (s : State) : Instr → List BusCycle
  | .lda m => s.readTrace m
  | .ldx m => s.readTrace m
  | .ldy m => s.readTrace m
  | .ora m => s.readTrace m
  | .and m => s.readTrace m
  | .eor m => s.readTrace m
  | .adc m => s.readTrace m
  | .sbc m => s.readTrace m
  | .cmp m => s.readTrace m
  | .cpx m => s.readTrace m
  | .cpy m => s.readTrace m
  | .sta m => s.writeTrace m (storeValue .sta s.cpu.regs)
  | .stx m => s.writeTrace m (storeValue .stx s.cpu.regs)
  | .sty m => s.writeTrace m (storeValue .sty s.cpu.regs)
  | .tax => s.shortTrace
  | .tay => s.shortTrace
  | .txa => s.shortTrace
  | .tya => s.shortTrace
  | .tsx => s.shortTrace
  | .txs => s.shortTrace
  | .bit m => s.readTrace (.mem m)
  | .inc m => s.rmwTrace m (rmwExec .inc (s.operandByte (.mem m)) s.cpu.regs).1
  | .dec m => s.rmwTrace m (rmwExec .dec (s.operandByte (.mem m)) s.cpu.regs).1
  | .inx => s.shortTrace
  | .iny => s.shortTrace
  | .dex => s.shortTrace
  | .dey => s.shortTrace
  | .asl m => s.shiftTrace .asl m
  | .lsr m => s.shiftTrace .lsr m
  | .rol m => s.shiftTrace .rol m
  | .ror m => s.shiftTrace .ror m
  | .bpl => s.branchTrace .bpl
  | .bmi => s.branchTrace .bmi
  | .bvc => s.branchTrace .bvc
  | .bvs => s.branchTrace .bvs
  | .bcc => s.branchTrace .bcc
  | .bcs => s.branchTrace .bcs
  | .bne => s.branchTrace .bne
  | .beq => s.branchTrace .beq
  | .jmpAbs => s.shortTrace ++ [s.reads (s.cpu.regs.pc + 2#16)]
  | .jmpInd =>
    s.shortTrace ++ [s.reads (s.cpu.regs.pc + 2#16), s.reads (cat s.operand2 s.operand1),
      s.reads (pointerNext (cat s.operand2 s.operand1))]
  | .jsr =>
    s.shortTrace ++ [s.reads (stackAddr s.cpu.regs.sp),
      ⟨stackAddr s.cpu.regs.sp, .write, hiByte (s.cpu.regs.pc + 2#16)⟩,
      ⟨stackAddr (s.cpu.regs.sp - 1#8), .write, loByte (s.cpu.regs.pc + 2#16)⟩,
      ⟨s.cpu.regs.pc + 2#16, .read, Memory.read (jsrMemory s) (s.cpu.regs.pc + 2#16)⟩]
  | .rts =>
    s.shortTrace ++ [s.reads (stackAddr s.cpu.regs.sp), s.reads (stackAddr (s.cpu.regs.sp + 1#8)),
      s.reads (stackAddr (s.cpu.regs.sp + 2#8)), s.reads (s.pulledPc 1#8)]
  | .brk =>
    s.shortTrace ++ [⟨stackAddr s.cpu.regs.sp, .write, hiByte (s.cpu.regs.pc + 2#16)⟩,
      ⟨stackAddr (s.cpu.regs.sp - 1#8), .write, loByte (s.cpu.regs.pc + 2#16)⟩,
      ⟨stackAddr (s.cpu.regs.sp - 2#8), .write, s.cpu.regs.pushedP⟩,
      ⟨Config.brkVectorLo, .read, Memory.read (brkMemory s) Config.brkVectorLo⟩,
      ⟨Config.brkVectorHi, .read, Memory.read (brkMemory s) Config.brkVectorHi⟩]
  | .rti =>
    s.shortTrace ++ [s.reads (stackAddr s.cpu.regs.sp), s.reads (stackAddr (s.cpu.regs.sp + 1#8)),
      s.reads (stackAddr (s.cpu.regs.sp + 2#8)), s.reads (stackAddr (s.cpu.regs.sp + 3#8))]
  | .pha => s.shortTrace ++ [⟨stackAddr s.cpu.regs.sp, .write, pushValue .pha s.cpu.regs⟩]
  | .php => s.shortTrace ++ [⟨stackAddr s.cpu.regs.sp, .write, pushValue .php s.cpu.regs⟩]
  | .pla => s.shortTrace ++ [s.reads (stackAddr s.cpu.regs.sp), s.reads (stackAddr (s.cpu.regs.sp + 1#8))]
  | .plp => s.shortTrace ++ [s.reads (stackAddr s.cpu.regs.sp), s.reads (stackAddr (s.cpu.regs.sp + 1#8))]
  | .clc => s.shortTrace
  | .sec => s.shortTrace
  | .cli => s.shortTrace
  | .sei => s.shortTrace
  | .clv => s.shortTrace
  | .cld => s.shortTrace
  | .sed => s.shortTrace
  | .nop => s.shortTrace
  | .lax m => s.readTrace (.mem m)
  | .sax m => s.writeTrace m (storeValue .sax s.cpu.regs)
  | .slo m => s.rmwTrace m (rmwExec .slo (s.operandByte (.mem m)) s.cpu.regs).1
  | .rla m => s.rmwTrace m (rmwExec .rla (s.operandByte (.mem m)) s.cpu.regs).1
  | .sre m => s.rmwTrace m (rmwExec .sre (s.operandByte (.mem m)) s.cpu.regs).1
  | .rra m => s.rmwTrace m (rmwExec .rra (s.operandByte (.mem m)) s.cpu.regs).1
  | .dcp m => s.rmwTrace m (rmwExec .dcp (s.operandByte (.mem m)) s.cpu.regs).1
  | .isb m => s.rmwTrace m (rmwExec .isb (s.operandByte (.mem m)) s.cpu.regs).1
  | .nopImplied _ => s.shortTrace
  | .nopImm _ => s.readTrace .imm
  | .nopZp _ => s.readTrace (.mem .zp)
  | .nopZpX _ => s.readTrace (.mem .zpX)
  | .nopAbs => s.readTrace (.mem .abs)
  | .nopAbsX _ => s.readTrace (.mem .absX)
  | .sbcDup => s.readTrace .imm
  | .jam _ | .anc _ | .alr | .arr | .xaa | .lxa | .axs | .sha _ | .tas | .shy | .shx | .las => []

theorem shift_shows (s : State) (h : s.atBoundary = true) (acc : ImpliedOp) (op : RmwOp) (m : ShiftMode) :
    ShowsTrace s (firstShift acc op m) (s.shiftTrace op m) := by
  cases m with
  | acc => exact implied_shows s h acc
  | mem m => exact rmw_shows s h op m

theorem firstMicroOp_shows (i : Instr) (s : State) (h : s.atBoundary = true) (hx : s.executes i = true) :
    ShowsTrace s (firstMicroOp i s.fetchByte) (s.shown i) := by
  cases i
  case lda m => exact read_shows s h .lda m
  case ldx m => exact read_shows s h .ldx m
  case ldy m => exact read_shows s h .ldy m
  case ora m => exact read_shows s h .ora m
  case and m => exact read_shows s h .and m
  case eor m => exact read_shows s h .eor m
  case adc m => exact read_shows s h .adc m
  case sbc m => exact read_shows s h .sbc m
  case cmp m => exact read_shows s h .cmp m
  case cpx m => exact read_shows s h .cpx m
  case cpy m => exact read_shows s h .cpy m
  case sta m => exact write_shows s h .sta m
  case stx m => exact write_shows s h .stx m
  case sty m => exact write_shows s h .sty m
  case tax => exact implied_shows s h .tax
  case tay => exact implied_shows s h .tay
  case txa => exact implied_shows s h .txa
  case tya => exact implied_shows s h .tya
  case tsx => exact implied_shows s h .tsx
  case txs => exact implied_shows s h .txs
  case bit m => exact read_shows s h .bit (.mem m)
  case inc m => exact rmw_shows s h .inc m
  case dec m => exact rmw_shows s h .dec m
  case inx => exact implied_shows s h .inx
  case iny => exact implied_shows s h .iny
  case dex => exact implied_shows s h .dex
  case dey => exact implied_shows s h .dey
  case asl m => exact shift_shows s h .asl .asl m
  case lsr m => exact shift_shows s h .lsr .lsr m
  case rol m => exact shift_shows s h .rol .rol m
  case ror m => exact shift_shows s h .ror .ror m
  case bpl => exact branch_shows s h .bpl
  case bmi => exact branch_shows s h .bmi
  case bvc => exact branch_shows s h .bvc
  case bvs => exact branch_shows s h .bvs
  case bcc => exact branch_shows s h .bcc
  case bcs => exact branch_shows s h .bcs
  case bne => exact branch_shows s h .bne
  case beq => exact branch_shows s h .beq
  case jmpAbs => exact jmpAbs_shows s h
  case jmpInd => exact jmpInd_shows s h
  case jsr => exact jsr_shows s h
  case rts => exact rts_shows s h
  case brk => exact brk_shows s h
  case rti => exact rti_shows s h
  case pha => exact push_shows s h .pha
  case php => exact push_shows s h .php
  case pla => exact pull_shows s h .pla
  case plp => exact pull_shows s h .plp
  case clc => exact implied_shows s h .clc
  case sec => exact implied_shows s h .sec
  case cli => exact implied_shows s h .cli
  case sei => exact implied_shows s h .sei
  case clv => exact implied_shows s h .clv
  case cld => exact implied_shows s h .cld
  case sed => exact implied_shows s h .sed
  case nop => exact implied_shows s h .nop
  case lax m => exact read_shows s h .lax (.mem m)
  case sax m => exact write_shows s h .sax m
  case slo m => exact rmw_shows s h .slo m
  case rla m => exact rmw_shows s h .rla m
  case sre m => exact rmw_shows s h .sre m
  case rra m => exact rmw_shows s h .rra m
  case dcp m => exact rmw_shows s h .dcp m
  case isb m => exact rmw_shows s h .isb m
  case nopImplied k => exact implied_shows s h .nop
  case nopImm k => exact read_shows s h .nop .imm
  case nopZp k => exact read_shows s h .nop (.mem .zp)
  case nopZpX k => exact read_shows s h .nop (.mem .zpX)
  case nopAbs => exact read_shows s h .nop (.mem .abs)
  case nopAbsX k => exact read_shows s h .nop (.mem .absX)
  case sbcDup => exact read_shows s h .sbc .imm
  all_goals cases hx

theorem firstMicroOp_runs (i : Instr) (s : State) (hx : s.executes i = true) (op : Byte) :
    firstMicroOp i s.fetchByte ≠ .unimplemented op := by
  have hm : ∀ o m, firstMem o m ≠ .unimplemented op := by
    intro o m
    cases m <;> simp [firstMem]
  have hr : ∀ o m, firstRead o m ≠ .unimplemented op := by
    rintro o (_ | m)
    · simp [firstRead]
    · exact hm _ m
  have hs : ∀ a o m, firstShift a o m ≠ .unimplemented op := by
    rintro a o (_ | m)
    · simp [firstShift]
    · exact hm _ m
  cases i
  case jam | anc | alr | arr | xaa | lxa | axs | sha | tas | shy | shx | las => cases hx
  all_goals simp [firstMicroOp, hm, hr, hs]

/-! The length of each trace is the cycle count of its mode and kind (41_addressing.md R183, 45_control_flow.md R309). -/

theorem addressTrace_length (s : State) (always : Bool) (m : DataMode) :
    (s.addressTrace always m).length =
      match m with
      | .zp => 2
      | .zpX | .zpY | .abs => 3
      | .indX => 5
      | .absX | .absY => 3 + if always || s.crosses m then 1 else 0
      | .indY => 4 + if always || s.crosses m then 1 else 0 := by
  cases m <;> simp [State.addressTrace, State.fixupTrace] <;> split <;> simp

@[simp] theorem shortTrace_length (s : State) : s.shortTrace.length = 2 := rfl

@[simp] theorem readTrace_length (s : State) (m : ReadMode) : (s.readTrace m).length = s.readCycles m := by
  rcases m with _ | m
  · rfl
  · simp only [State.readTrace, List.length_append, addressTrace_length]
    cases m <;> simp [State.readCycles, State.crossPenalty] <;> split <;> rfl

@[simp] theorem writeTrace_length (s : State) (m : DataMode) (v : Byte) : (s.writeTrace m v).length = writeCycles m := by
  simp only [State.writeTrace, List.length_append, addressTrace_length]
  cases m <;> simp [writeCycles]

@[simp] theorem rmwTrace_length (s : State) (m : DataMode) (r : Byte) : (s.rmwTrace m r).length = rmwCycles m := by
  simp only [State.rmwTrace, List.length_append, addressTrace_length]
  cases m <;> simp [rmwCycles]

@[simp] theorem branchTrace_length (s : State) (op : BranchOp) : (s.branchTrace op).length = s.branchCycles op := by
  simp only [State.branchTrace, State.branchCycles]
  split
  · split <;> rfl
  · rfl

/-- Where the opcode at `pc` is `i` and executes, the bus shows the table's trace. -/
theorem busTrace_shown (i : Instr) (s : State) (h : s.atBoundary = true) (hd : decodeOpcode s.fetchByte = i)
    (hx : s.executes i = true) : s.busTrace = s.shown i := by
  have hdisp : dispatchTo s.params.undocSupport i s.fetchByte = firstMicroOp i s.fetchByte := by
    unfold State.executes at hx
    unfold dispatchTo
    cases hc : i.opClass
    · rfl
    · rw [hc] at hx
      exact if_pos hx
    · rw [hc] at hx
      cases hx
  exact (busTrace_eq s h i hd _ hdisp (firstMicroOp_ne_fetch i _) (firstMicroOp_runs i s hx)).trans
    (firstMicroOp_shows i s h hx)

/-- The inversion of a step at a boundary: it is the table's, and the opcode executes. -/
theorem ends_of_exec_next {i : Instr} {s t : State} (h : s.atBoundary = true) (e : exec i s = .next t) :
    s.executes i = true ∧ Ends s t (s.after i).regs (s.after i).mem (s.after i).jsrLo (s.after i).cycles := by
  cases hx : s.executes i
  · rw [exec_of_not_executes i s hx] at e
    cases e
  · obtain ⟨t', e', r⟩ := exec_ends i s h hx
    rw [e] at e'
    cases e'
    exact ⟨rfl, r⟩

end Sys2Proof.Machine
end

