-- ==== Sys2Proof/Laws/PerInstr.lean ====
section
/-! SUPPORT. Statements for all instructions, made constructor by constructor (LAWS.json). -/

namespace Sys2Proof.Laws.EncodeDefined

/-- The encoder is defined exactly on the well-formed instructions, and what it gives decodes to the instruction
(30_encoding.md R96 to R107). -/
def Statement (i : Instr) : Prop :=
  (i.wellFormed = true ↔ ∃ op, encodeOpcode i = some op) ∧ ∀ op, encodeOpcode i = some op → decodeOpcode op = i

/-- A well-formed instruction with its opcode. -/
theorem of_opcode {i : Instr} (op : Byte) (hw : i.wellFormed = true) (he : encodeOpcode i = some op)
    (hd : decodeOpcode op = i) : Statement i := by
  refine ⟨⟨fun _ => ⟨op, he⟩, fun _ => hw⟩, fun op' he' => ?_⟩
  rw [he] at he'
  cases he'
  exact hd

/-- An ill-formed instruction has none. -/
theorem of_none {i : Instr} (hw : i.wellFormed = false) (he : encodeOpcode i = none) : Statement i := by
  refine ⟨⟨fun h => ?_, fun ⟨op, h⟩ => ?_⟩, fun op h => ?_⟩
  · rw [hw] at h
    cases h
  · rw [he] at h
    cases h
  · rw [he] at h
    cases h

theorem lda (m : ReadMode) : Statement (.lda m) := by
  rcases m with _ | (_ | _) <;> first | exact of_opcode _ rfl rfl rfl | exact of_none rfl rfl

theorem ldx (m : ReadMode) : Statement (.ldx m) := by
  rcases m with _ | (_ | _) <;> first | exact of_opcode _ rfl rfl rfl | exact of_none rfl rfl

theorem ldy (m : ReadMode) : Statement (.ldy m) := by
  rcases m with _ | (_ | _) <;> first | exact of_opcode _ rfl rfl rfl | exact of_none rfl rfl

theorem sta (m : DataMode) : Statement (.sta m) := by
  cases m <;> first | exact of_opcode _ rfl rfl rfl | exact of_none rfl rfl

theorem stx (m : DataMode) : Statement (.stx m) := by
  cases m <;> first | exact of_opcode _ rfl rfl rfl | exact of_none rfl rfl

theorem sty (m : DataMode) : Statement (.sty m) := by
  cases m <;> first | exact of_opcode _ rfl rfl rfl | exact of_none rfl rfl

theorem tax : Statement .tax := of_opcode _ rfl rfl rfl

theorem tay : Statement .tay := of_opcode _ rfl rfl rfl

theorem txa : Statement .txa := of_opcode _ rfl rfl rfl

theorem tya : Statement .tya := of_opcode _ rfl rfl rfl

theorem tsx : Statement .tsx := of_opcode _ rfl rfl rfl

theorem txs : Statement .txs := of_opcode _ rfl rfl rfl

theorem ora (m : ReadMode) : Statement (.ora m) := by
  rcases m with _ | (_ | _) <;> first | exact of_opcode _ rfl rfl rfl | exact of_none rfl rfl

theorem and (m : ReadMode) : Statement (.and m) := by
  rcases m with _ | (_ | _) <;> first | exact of_opcode _ rfl rfl rfl | exact of_none rfl rfl

theorem eor (m : ReadMode) : Statement (.eor m) := by
  rcases m with _ | (_ | _) <;> first | exact of_opcode _ rfl rfl rfl | exact of_none rfl rfl

theorem adc (m : ReadMode) : Statement (.adc m) := by
  rcases m with _ | (_ | _) <;> first | exact of_opcode _ rfl rfl rfl | exact of_none rfl rfl

theorem sbc (m : ReadMode) : Statement (.sbc m) := by
  rcases m with _ | (_ | _) <;> first | exact of_opcode _ rfl rfl rfl | exact of_none rfl rfl

theorem cmp (m : ReadMode) : Statement (.cmp m) := by
  rcases m with _ | (_ | _) <;> first | exact of_opcode _ rfl rfl rfl | exact of_none rfl rfl

theorem cpx (m : ReadMode) : Statement (.cpx m) := by
  rcases m with _ | (_ | _) <;> first | exact of_opcode _ rfl rfl rfl | exact of_none rfl rfl

theorem cpy (m : ReadMode) : Statement (.cpy m) := by
  rcases m with _ | (_ | _) <;> first | exact of_opcode _ rfl rfl rfl | exact of_none rfl rfl

theorem bit (m : DataMode) : Statement (.bit m) := by
  cases m <;> first | exact of_opcode _ rfl rfl rfl | exact of_none rfl rfl

theorem inc (m : DataMode) : Statement (.inc m) := by
  cases m <;> first | exact of_opcode _ rfl rfl rfl | exact of_none rfl rfl

theorem dec (m : DataMode) : Statement (.dec m) := by
  cases m <;> first | exact of_opcode _ rfl rfl rfl | exact of_none rfl rfl

theorem inx : Statement .inx := of_opcode _ rfl rfl rfl

theorem iny : Statement .iny := of_opcode _ rfl rfl rfl

theorem dex : Statement .dex := of_opcode _ rfl rfl rfl

theorem dey : Statement .dey := of_opcode _ rfl rfl rfl

theorem asl (m : ShiftMode) : Statement (.asl m) := by
  rcases m with _ | (_ | _) <;> first | exact of_opcode _ rfl rfl rfl | exact of_none rfl rfl

theorem lsr (m : ShiftMode) : Statement (.lsr m) := by
  rcases m with _ | (_ | _) <;> first | exact of_opcode _ rfl rfl rfl | exact of_none rfl rfl

theorem rol (m : ShiftMode) : Statement (.rol m) := by
  rcases m with _ | (_ | _) <;> first | exact of_opcode _ rfl rfl rfl | exact of_none rfl rfl

theorem ror (m : ShiftMode) : Statement (.ror m) := by
  rcases m with _ | (_ | _) <;> first | exact of_opcode _ rfl rfl rfl | exact of_none rfl rfl

theorem bpl : Statement .bpl := of_opcode _ rfl rfl rfl

theorem bmi : Statement .bmi := of_opcode _ rfl rfl rfl

theorem bvc : Statement .bvc := of_opcode _ rfl rfl rfl

theorem bvs : Statement .bvs := of_opcode _ rfl rfl rfl

theorem bcc : Statement .bcc := of_opcode _ rfl rfl rfl

theorem bcs : Statement .bcs := of_opcode _ rfl rfl rfl

theorem bne : Statement .bne := of_opcode _ rfl rfl rfl

theorem beq : Statement .beq := of_opcode _ rfl rfl rfl

theorem jmpAbs : Statement .jmpAbs := of_opcode _ rfl rfl rfl

theorem jmpInd : Statement .jmpInd := of_opcode _ rfl rfl rfl

theorem jsr : Statement .jsr := of_opcode _ rfl rfl rfl

theorem rts : Statement .rts := of_opcode _ rfl rfl rfl

theorem brk : Statement .brk := of_opcode _ rfl rfl rfl

theorem rti : Statement .rti := of_opcode _ rfl rfl rfl

theorem pha : Statement .pha := of_opcode _ rfl rfl rfl

theorem php : Statement .php := of_opcode _ rfl rfl rfl

theorem pla : Statement .pla := of_opcode _ rfl rfl rfl

theorem plp : Statement .plp := of_opcode _ rfl rfl rfl

theorem clc : Statement .clc := of_opcode _ rfl rfl rfl

theorem sec : Statement .sec := of_opcode _ rfl rfl rfl

theorem cli : Statement .cli := of_opcode _ rfl rfl rfl

theorem sei : Statement .sei := of_opcode _ rfl rfl rfl

theorem clv : Statement .clv := of_opcode _ rfl rfl rfl

theorem cld : Statement .cld := of_opcode _ rfl rfl rfl

theorem sed : Statement .sed := of_opcode _ rfl rfl rfl

theorem nop : Statement .nop := of_opcode _ rfl rfl rfl

theorem lax (m : DataMode) : Statement (.lax m) := by
  cases m <;> first | exact of_opcode _ rfl rfl rfl | exact of_none rfl rfl

theorem sax (m : DataMode) : Statement (.sax m) := by
  cases m <;> first | exact of_opcode _ rfl rfl rfl | exact of_none rfl rfl

theorem slo (m : DataMode) : Statement (.slo m) := by
  cases m <;> first | exact of_opcode _ rfl rfl rfl | exact of_none rfl rfl

theorem rla (m : DataMode) : Statement (.rla m) := by
  cases m <;> first | exact of_opcode _ rfl rfl rfl | exact of_none rfl rfl

theorem sre (m : DataMode) : Statement (.sre m) := by
  cases m <;> first | exact of_opcode _ rfl rfl rfl | exact of_none rfl rfl

theorem rra (m : DataMode) : Statement (.rra m) := by
  cases m <;> first | exact of_opcode _ rfl rfl rfl | exact of_none rfl rfl

theorem dcp (m : DataMode) : Statement (.dcp m) := by
  cases m <;> first | exact of_opcode _ rfl rfl rfl | exact of_none rfl rfl

theorem isb (m : DataMode) : Statement (.isb m) := by
  cases m <;> first | exact of_opcode _ rfl rfl rfl | exact of_none rfl rfl

theorem nopImplied (k : Fin 6) : Statement (.nopImplied k) :=
  match k with
  | 0 => of_opcode _ rfl rfl rfl
  | 1 => of_opcode _ rfl rfl rfl
  | 2 => of_opcode _ rfl rfl rfl
  | 3 => of_opcode _ rfl rfl rfl
  | 4 => of_opcode _ rfl rfl rfl
  | 5 => of_opcode _ rfl rfl rfl

theorem nopImm (k : Fin 5) : Statement (.nopImm k) :=
  match k with
  | 0 => of_opcode _ rfl rfl rfl
  | 1 => of_opcode _ rfl rfl rfl
  | 2 => of_opcode _ rfl rfl rfl
  | 3 => of_opcode _ rfl rfl rfl
  | 4 => of_opcode _ rfl rfl rfl

theorem nopZp (k : Fin 3) : Statement (.nopZp k) :=
  match k with
  | 0 => of_opcode _ rfl rfl rfl
  | 1 => of_opcode _ rfl rfl rfl
  | 2 => of_opcode _ rfl rfl rfl

theorem nopZpX (k : Fin 6) : Statement (.nopZpX k) :=
  match k with
  | 0 => of_opcode _ rfl rfl rfl
  | 1 => of_opcode _ rfl rfl rfl
  | 2 => of_opcode _ rfl rfl rfl
  | 3 => of_opcode _ rfl rfl rfl
  | 4 => of_opcode _ rfl rfl rfl
  | 5 => of_opcode _ rfl rfl rfl

theorem nopAbs : Statement .nopAbs := of_opcode _ rfl rfl rfl

theorem nopAbsX (k : Fin 6) : Statement (.nopAbsX k) :=
  match k with
  | 0 => of_opcode _ rfl rfl rfl
  | 1 => of_opcode _ rfl rfl rfl
  | 2 => of_opcode _ rfl rfl rfl
  | 3 => of_opcode _ rfl rfl rfl
  | 4 => of_opcode _ rfl rfl rfl
  | 5 => of_opcode _ rfl rfl rfl

theorem sbcDup : Statement .sbcDup := of_opcode _ rfl rfl rfl

theorem jam (k : Fin 12) : Statement (.jam k) :=
  match k with
  | 0 => of_opcode _ rfl rfl rfl
  | 1 => of_opcode _ rfl rfl rfl
  | 2 => of_opcode _ rfl rfl rfl
  | 3 => of_opcode _ rfl rfl rfl
  | 4 => of_opcode _ rfl rfl rfl
  | 5 => of_opcode _ rfl rfl rfl
  | 6 => of_opcode _ rfl rfl rfl
  | 7 => of_opcode _ rfl rfl rfl
  | 8 => of_opcode _ rfl rfl rfl
  | 9 => of_opcode _ rfl rfl rfl
  | 10 => of_opcode _ rfl rfl rfl
  | 11 => of_opcode _ rfl rfl rfl

theorem anc (k : Fin 2) : Statement (.anc k) :=
  match k with
  | 0 => of_opcode _ rfl rfl rfl
  | 1 => of_opcode _ rfl rfl rfl

theorem alr : Statement .alr := of_opcode _ rfl rfl rfl

theorem arr : Statement .arr := of_opcode _ rfl rfl rfl

theorem xaa : Statement .xaa := of_opcode _ rfl rfl rfl

theorem lxa : Statement .lxa := of_opcode _ rfl rfl rfl

theorem axs : Statement .axs := of_opcode _ rfl rfl rfl

theorem sha (m : DataMode) : Statement (.sha m) := by
  cases m <;> first | exact of_opcode _ rfl rfl rfl | exact of_none rfl rfl

theorem tas : Statement .tas := of_opcode _ rfl rfl rfl

theorem shy : Statement .shy := of_opcode _ rfl rfl rfl

theorem shx : Statement .shx := of_opcode _ rfl rfl rfl

theorem las : Statement .las := of_opcode _ rfl rfl rfl

end Sys2Proof.Laws.EncodeDefined
end

