-- ==== Sys2Proof/Tests/Slice0.lean ====
section
/-! SUPPORT. Tests: the checks of WellFormed, the opcode words of spec/opcode_table.json, the vectors of
spec/95_test_vectors.md by their names there, and for every statement with hypotheses a witness that meets them. -/

namespace Sys2Proof.Tests

open Sys2Proof.Machine

/-! WellFormed: one ill-formed term for each check. -/

theorem test_refuses_alu_mode : Instr.wellFormed (.lda (.mem .zpY)) = false ∧ Instr.wellFormed (.sbc (.mem .zpY)) = false := by
  decide

theorem test_refuses_ldx_ldy_mode :
    Instr.wellFormed (.ldx (.mem .absX)) = false ∧ Instr.wellFormed (.ldy (.mem .zpY)) = false := by decide

theorem test_refuses_store_mode :
    Instr.wellFormed (.sta .zpY) = false ∧ Instr.wellFormed (.stx .absY) = false ∧ Instr.wellFormed (.sty .absX) = false := by
  decide

theorem test_refuses_compare_mode :
    Instr.wellFormed (.cpx (.mem .zpX)) = false ∧ Instr.wellFormed (.cpy (.mem .absX)) = false ∧
      Instr.wellFormed (.bit .absX) = false := by decide

theorem test_refuses_shift_mode :
    Instr.wellFormed (.inc .indX) = false ∧ Instr.wellFormed (.dec .absY) = false ∧
      Instr.wellFormed (.asl (.mem .zpY)) = false ∧ Instr.wellFormed (.lsr (.mem .indY)) = false ∧
      Instr.wellFormed (.rol (.mem .absY)) = false ∧ Instr.wellFormed (.ror (.mem .indX)) = false := by decide

theorem test_refuses_undocumented_mode :
    Instr.wellFormed (.lax .absX) = false ∧ Instr.wellFormed (.sax .absY) = false ∧ Instr.wellFormed (.slo .zpY) = false ∧
      Instr.wellFormed (.rla .zpY) = false ∧ Instr.wellFormed (.sre .zpY) = false ∧ Instr.wellFormed (.rra .zpY) = false ∧
      Instr.wellFormed (.dcp .zpY) = false ∧ Instr.wellFormed (.isb .zpY) = false := by decide

theorem test_refuses_sha_mode : Instr.wellFormed (.sha .abs) = false := by decide

/-! Decoding: opcode bytes of spec/opcode_table.json, each with the row it stands for. -/

theorem test_words_loads :
    [0xA0#8, 0xA1#8, 0xA2#8, 0xA4#8, 0xA5#8, 0xA6#8].map decodeOpcode =
      [.ldy .imm, .lda (.mem .indX), .ldx .imm, .ldy (.mem .zp), .lda (.mem .zp), .ldx (.mem .zp)] := by decide

theorem test_words_stores :
    [0x81#8, 0x84#8, 0x85#8, 0x86#8, 0x8C#8, 0x8E#8].map decodeOpcode =
      [.sta .indX, .sty .zp, .sta .zp, .stx .zp, .sty .abs, .stx .abs] := by decide

theorem test_words_transfers :
    [0x8A#8, 0x98#8, 0x9A#8, 0xA8#8, 0xAA#8, 0xBA#8].map decodeOpcode =
      [.txa, .tya, .txs, .tay, .tax, .tsx] := by decide

theorem test_words_logic :
    [0x01#8, 0x05#8, 0x21#8, 0x25#8, 0x41#8, 0x45#8].map decodeOpcode =
      [.ora (.mem .indX), .ora (.mem .zp), .and (.mem .indX), .and (.mem .zp), .eor (.mem .indX),
       .eor (.mem .zp)] := by decide

theorem test_words_arithmetic :
    [0x61#8, 0x65#8, 0xE1#8, 0xE5#8].map decodeOpcode =
      [.adc (.mem .indX), .adc (.mem .zp), .sbc (.mem .indX), .sbc (.mem .zp)] := by decide

theorem test_words_compares :
    [0x24#8, 0x2C#8, 0xC0#8, 0xC1#8, 0xC4#8, 0xC5#8, 0xE0#8, 0xE4#8].map decodeOpcode =
      [.bit .zp, .bit .abs, .cpy .imm, .cmp (.mem .indX), .cpy (.mem .zp), .cmp (.mem .zp), .cpx .imm,
       .cpx (.mem .zp)] := by decide

theorem test_words_increments :
    [0x88#8, 0xC6#8, 0xC8#8, 0xCA#8, 0xCE#8, 0xE6#8, 0xE8#8, 0xEE#8].map decodeOpcode =
      [.dey, .dec .zp, .iny, .dex, .dec .abs, .inc .zp, .inx, .inc .abs] := by decide

theorem test_words_shifts :
    [0x06#8, 0x0A#8, 0x26#8, 0x2A#8, 0x46#8, 0x4A#8, 0x66#8, 0x6A#8].map decodeOpcode =
      [.asl (.mem .zp), .asl .acc, .rol (.mem .zp), .rol .acc, .lsr (.mem .zp), .lsr .acc, .ror (.mem .zp),
       .ror .acc] := by decide

theorem test_words_branches :
    [0x10#8, 0x30#8, 0x50#8, 0x70#8, 0x90#8, 0xB0#8, 0xD0#8, 0xF0#8].map decodeOpcode =
      [.bpl, .bmi, .bvc, .bvs, .bcc, .bcs, .bne, .beq] := by decide

theorem test_words_control :
    [0x00#8, 0x20#8, 0x40#8, 0x4C#8, 0x60#8, 0x6C#8].map decodeOpcode =
      [.brk, .jsr, .rti, .jmpAbs, .rts, .jmpInd] := by decide

theorem test_words_stack_and_flags :
    [0x08#8, 0x18#8, 0x28#8, 0x38#8, 0x48#8, 0x58#8, 0x68#8, 0x78#8, 0xB8#8, 0xD8#8, 0xEA#8,
     0xF8#8].map decodeOpcode =
      [.php, .clc, .plp, .sec, .pha, .cli, .pla, .sei, .clv, .cld, .nop, .sed] := by decide

theorem test_words_undocumented :
    [0x03#8, 0x07#8, 0x23#8, 0x27#8, 0x43#8, 0x47#8, 0x63#8, 0x67#8, 0x83#8, 0x87#8, 0xA3#8, 0xA7#8, 0xC3#8,
     0xC7#8, 0xE3#8, 0xE7#8, 0xEB#8].map decodeOpcode =
      [.slo .indX, .slo .zp, .rla .indX, .rla .zp, .sre .indX, .sre .zp, .rra .indX, .rra .zp, .sax .indX,
       .sax .zp, .lax .indX, .lax .zp, .dcp .indX, .dcp .zp, .isb .indX, .isb .zp, .sbcDup] := by decide

theorem test_words_undocumented_nops :
    [0x04#8, 0x0C#8, 0x14#8, 0x1A#8, 0x1C#8, 0x34#8, 0x3A#8, 0x3C#8, 0x44#8, 0x80#8, 0x82#8].map decodeOpcode =
      [.nopZp 0, .nopAbs, .nopZpX 0, .nopImplied 0, .nopAbsX 0, .nopZpX 1, .nopImplied 1, .nopAbsX 1, .nopZp 1,
       .nopImm 0, .nopImm 1] := by decide

theorem test_words_unimplemented :
    [0x02#8, 0x0B#8, 0x12#8, 0x2B#8, 0x4B#8, 0x6B#8, 0x8B#8, 0x93#8, 0x9B#8, 0x9C#8, 0x9E#8, 0x9F#8, 0xAB#8,
     0xBB#8, 0xCB#8].map decodeOpcode =
      [.jam 0, .anc 0, .jam 1, .anc 1, .alr, .arr, .xaa, .sha .indY, .tas, .shy, .shx, .sha .absY, .lxa, .las,
       .axs] := by decide

/-! A small state at a boundary, and one step of it. -/

/-- Memory with these cells. -/
def cells : List (Addr × Byte) → Memory
  | [] => []
  | (ad, v) :: rest => Memory.write (cells rest) ad v

/-- A boundary with this code at `pc`, these registers and these cells. -/
def start (code : List Byte) (r : Regs) (data : List (Addr × Byte)) : State where
  cpu := Cpu.finish { State.reset.cpu with regs := r }
  mem := storeBytes (cells data) r.pc code
  params := Config.defaultParams

/-- The step ends in these registers and shows this trace, one pulse for each transaction. -/
def ran (s : State) (r : Regs) (trace : List BusCycle) : Bool :=
  match step s with
  | .next t =>
    t.atBoundary && decide (t.cpu.regs = r) && decide (s.busTrace = trace) &&
      decide (t.cpu.cyc = s.cpu.cyc + BitVec.ofNat 64 trace.length)
  | .fault _ => false
  | .refused _ => false

/-- A read in a trace. -/
def rd (ad : Nat) (v : Nat) : BusCycle := ⟨BitVec.ofNat 16 ad, .read, BitVec.ofNat 8 v⟩

/-- A write in a trace. -/
def wr (ad : Nat) (v : Nat) : BusCycle := ⟨BitVec.ofNat 16 ad, .write, BitVec.ofNat 8 v⟩

theorem test_table_words :
    decodeTableWord 8 0xA9 = some (.lda .imm) ∧ decodeTableWord 24 0x1234BD = some (.lda (.mem .absX)) ∧
      decodeTableWord 8 0x00 = some .brk := by decide

theorem test_fetch_word_runs :
    ran (State.reset.withFetchWord 16 0x80A9) ⟨0x0002#16, 0x80#8, 0x00#8, 0x00#8, 0x00#8, 0xA4#8⟩
      [⟨0x0000#16, .read, 0xA9#8⟩, ⟨0x0001#16, .read, 0x80#8⟩] = true := by decide

/-! The vectors of 95_test_vectors.md: the registers at the next boundary, the bus trace, and `cyc` advanced by its
length. -/

theorem test_A1_lda_zpX :
    ran (start [0xB5#8, 0xF0#8] ⟨0x8000#16, 0x00#8, 0x20#8, 0x00#8, 0xFD#8, 0x24#8⟩ [(0x0010#16, 0x55#8)])
      ⟨0x8002#16, 0x55#8, 0x20#8, 0x00#8, 0xFD#8, 0x24#8⟩
      [rd 0x8000 0xB5, rd 0x8001 0xF0, rd 0x00F0 0x00, rd 0x0010 0x55] = true := by decide

theorem test_A2_lda_absX :
    ran (start [0xBD#8, 0x00#8, 0x20#8] ⟨0x8000#16, 0x00#8, 0x10#8, 0x00#8, 0xFD#8, 0x24#8⟩ [(0x2010#16, 0x01#8)])
      ⟨0x8003#16, 0x01#8, 0x10#8, 0x00#8, 0xFD#8, 0x24#8⟩
      [rd 0x8000 0xBD, rd 0x8001 0x00, rd 0x8002 0x20, rd 0x2010 0x01] = true := by decide

theorem test_A3_lda_absX_crossing :
    ran (start [0xBD#8, 0xF0#8, 0x20#8] ⟨0x8000#16, 0x00#8, 0x20#8, 0x00#8, 0xFD#8, 0x24#8⟩ [(0x2010#16, 0x11#8), (0x2110#16, 0x80#8)])
      ⟨0x8003#16, 0x80#8, 0x20#8, 0x00#8, 0xFD#8, 0xA4#8⟩
      [rd 0x8000 0xBD, rd 0x8001 0xF0, rd 0x8002 0x20, rd 0x2010 0x11, rd 0x2110 0x80] = true := by decide

theorem test_A4_sta_absX :
    ran (start [0x9D#8, 0x00#8, 0x20#8] ⟨0x8000#16, 0xAA#8, 0x10#8, 0x00#8, 0xFD#8, 0x24#8⟩ [])
      ⟨0x8003#16, 0xAA#8, 0x10#8, 0x00#8, 0xFD#8, 0x24#8⟩
      [rd 0x8000 0x9D, rd 0x8001 0x00, rd 0x8002 0x20, rd 0x2010 0x00, wr 0x2010 0xAA] = true := by decide

theorem test_A5_lda_indX :
    ran (start [0xA1#8, 0xFE#8] ⟨0x8000#16, 0x00#8, 0x01#8, 0x00#8, 0xFD#8, 0x24#8⟩ [(0x00FF#16, 0x34#8), (0x0000#16, 0x12#8), (0x1234#16, 0x99#8)])
      ⟨0x8002#16, 0x99#8, 0x01#8, 0x00#8, 0xFD#8, 0xA4#8⟩
      [rd 0x8000 0xA1, rd 0x8001 0xFE, rd 0x00FE 0x00, rd 0x00FF 0x34, rd 0x0000 0x12, rd 0x1234 0x99] = true := by decide

theorem test_A6_lda_indY :
    ran (start [0xB1#8, 0xFF#8] ⟨0x8000#16, 0x00#8, 0x00#8, 0x01#8, 0xFD#8, 0x24#8⟩ [(0x00FF#16, 0xFF#8), (0x0000#16, 0x12#8), (0x1300#16, 0x77#8)])
      ⟨0x8002#16, 0x77#8, 0x00#8, 0x01#8, 0xFD#8, 0x24#8⟩
      [rd 0x8000 0xB1, rd 0x8001 0xFF, rd 0x00FF 0xFF, rd 0x0000 0x12, rd 0x1200 0x00, rd 0x1300 0x77] = true := by decide

theorem test_A7_ldx_zpY :
    ran (start [0xB6#8, 0x80#8] ⟨0x8000#16, 0x00#8, 0x00#8, 0x05#8, 0xFD#8, 0x24#8⟩ [])
      ⟨0x8002#16, 0x00#8, 0x00#8, 0x05#8, 0xFD#8, 0x26#8⟩
      [rd 0x8000 0xB6, rd 0x8001 0x80, rd 0x0080 0x00, rd 0x0085 0x00] = true := by decide

theorem test_A8_asl_absX :
    ran (start [0x1E#8, 0x00#8, 0x20#8] ⟨0x8000#16, 0x00#8, 0x01#8, 0x00#8, 0xFD#8, 0x24#8⟩ [(0x2001#16, 0x81#8)])
      ⟨0x8003#16, 0x00#8, 0x01#8, 0x00#8, 0xFD#8, 0x25#8⟩
      [rd 0x8000 0x1E, rd 0x8001 0x00, rd 0x8002 0x20, rd 0x2001 0x81,
        rd 0x2001 0x81, wr 0x2001 0x81, wr 0x2001 0x02] = true := by decide

theorem test_A9_lda_absX_wraps :
    ran (start [0xBD#8, 0xF0#8, 0xFF#8] ⟨0x8000#16, 0x00#8, 0x20#8, 0x00#8, 0xFD#8, 0x24#8⟩ [(0x0010#16, 0x42#8)])
      ⟨0x8003#16, 0x42#8, 0x20#8, 0x00#8, 0xFD#8, 0x24#8⟩
      [rd 0x8000 0xBD, rd 0x8001 0xF0, rd 0x8002 0xFF, rd 0xFF10 0x00, rd 0x0010 0x42] = true := by decide

theorem test_A10_inc_zp :
    ran (start [0xE6#8, 0x10#8] ⟨0x8000#16, 0x00#8, 0x00#8, 0x00#8, 0xFD#8, 0x24#8⟩ [(0x0010#16, 0x7F#8)])
      ⟨0x8002#16, 0x00#8, 0x00#8, 0x00#8, 0xFD#8, 0xA4#8⟩
      [rd 0x8000 0xE6, rd 0x8001 0x10, rd 0x0010 0x7F, wr 0x0010 0x7F, wr 0x0010 0x80] = true := by decide

theorem test_A11_sta_indY :
    ran (start [0x91#8, 0x10#8] ⟨0x8000#16, 0x5C#8, 0x00#8, 0x02#8, 0xFD#8, 0x24#8⟩ [(0x0011#16, 0x30#8)])
      ⟨0x8002#16, 0x5C#8, 0x00#8, 0x02#8, 0xFD#8, 0x24#8⟩
      [rd 0x8000 0x91, rd 0x8001 0x10, rd 0x0010 0x00, rd 0x0011 0x30, rd 0x3002 0x00, wr 0x3002 0x5C] = true := by decide

theorem test_A12_ldy_absX :
    ran (start [0xBC#8, 0x00#8, 0x30#8] ⟨0x8000#16, 0x00#8, 0x01#8, 0x01#8, 0xFD#8, 0x24#8⟩ [(0x3000#16, 0x01#8), (0x3001#16, 0xC3#8)])
      ⟨0x8003#16, 0x00#8, 0x01#8, 0xC3#8, 0xFD#8, 0xA4#8⟩
      [rd 0x8000 0xBC, rd 0x8001 0x00, rd 0x8002 0x30, rd 0x3001 0xC3] = true := by decide

theorem test_B2_tax :
    ran (start [0xAA#8] ⟨0x8000#16, 0x80#8, 0x00#8, 0x00#8, 0xFD#8, 0x24#8⟩ [])
      ⟨0x8001#16, 0x80#8, 0x80#8, 0x00#8, 0xFD#8, 0xA4#8⟩
      [rd 0x8000 0xAA, rd 0x8001 0x00] = true := by decide

theorem test_B3_tsx :
    ran (start [0xBA#8] ⟨0x8000#16, 0x00#8, 0x00#8, 0x00#8, 0x00#8, 0x24#8⟩ [])
      ⟨0x8001#16, 0x00#8, 0x00#8, 0x00#8, 0x00#8, 0x26#8⟩
      [rd 0x8000 0xBA, rd 0x8001 0x00] = true := by decide

theorem test_B4_stx_zpY :
    ran (start [0x96#8, 0xFF#8] ⟨0x8000#16, 0x00#8, 0x12#8, 0x03#8, 0xFD#8, 0x24#8⟩ [])
      ⟨0x8002#16, 0x00#8, 0x12#8, 0x03#8, 0xFD#8, 0x24#8⟩
      [rd 0x8000 0x96, rd 0x8001 0xFF, rd 0x00FF 0x00, wr 0x0002 0x12] = true := by decide

theorem test_B5_txs :
    ran (start [0x9A#8] ⟨0x8000#16, 0x00#8, 0xFF#8, 0x00#8, 0xFD#8, 0xA4#8⟩ [])
      ⟨0x8001#16, 0x00#8, 0xFF#8, 0x00#8, 0xFF#8, 0xA4#8⟩
      [rd 0x8000 0x9A, rd 0x8001 0x00] = true := by decide

theorem test_C1_adc :
    ran (start [0x69#8, 0x50#8] ⟨0x8000#16, 0x50#8, 0x00#8, 0x00#8, 0xFD#8, 0x24#8⟩ [])
      ⟨0x8002#16, 0xA0#8, 0x00#8, 0x00#8, 0xFD#8, 0xE4#8⟩
      [rd 0x8000 0x69, rd 0x8001 0x50] = true := by decide

theorem test_C3_adc :
    ran (start [0x69#8, 0xFF#8] ⟨0x8000#16, 0x80#8, 0x00#8, 0x00#8, 0xFD#8, 0x24#8⟩ [])
      ⟨0x8002#16, 0x7F#8, 0x00#8, 0x00#8, 0xFD#8, 0x65#8⟩
      [rd 0x8000 0x69, rd 0x8001 0xFF] = true := by decide

theorem test_C5_sbc :
    ran (start [0xE9#8, 0x80#8] ⟨0x8000#16, 0x00#8, 0x00#8, 0x00#8, 0xFD#8, 0x25#8⟩ [])
      ⟨0x8002#16, 0x80#8, 0x00#8, 0x00#8, 0xFD#8, 0xE4#8⟩
      [rd 0x8000 0xE9, rd 0x8001 0x80] = true := by decide

theorem test_C9_sbc_decimal_ignored :
    ran (start [0xE9#8, 0x01#8] ⟨0x8000#16, 0x10#8, 0x00#8, 0x00#8, 0xFD#8, 0x2D#8⟩ [])
      ⟨0x8002#16, 0x0F#8, 0x00#8, 0x00#8, 0xFD#8, 0x2D#8⟩
      [rd 0x8000 0xE9, rd 0x8001 0x01] = true := by decide

theorem test_C10_cmp :
    ran (start [0xC9#8, 0x20#8] ⟨0x8000#16, 0x10#8, 0x00#8, 0x00#8, 0xFD#8, 0x64#8⟩ [])
      ⟨0x8002#16, 0x10#8, 0x00#8, 0x00#8, 0xFD#8, 0xE4#8⟩
      [rd 0x8000 0xC9, rd 0x8001 0x20] = true := by decide

theorem test_C13_cpx :
    ran (start [0xE0#8, 0x80#8] ⟨0x8000#16, 0x00#8, 0x00#8, 0x00#8, 0xFD#8, 0x24#8⟩ [])
      ⟨0x8002#16, 0x00#8, 0x00#8, 0x00#8, 0xFD#8, 0xA4#8⟩
      [rd 0x8000 0xE0, rd 0x8001 0x80] = true := by decide

theorem test_C22_eor :
    ran (start [0x49#8, 0xFF#8] ⟨0x8000#16, 0x0F#8, 0x00#8, 0x00#8, 0xFD#8, 0x24#8⟩ [])
      ⟨0x8002#16, 0xF0#8, 0x00#8, 0x00#8, 0xFD#8, 0xA4#8⟩
      [rd 0x8000 0x49, rd 0x8001 0xFF] = true := by decide

theorem test_C23_and :
    ran (start [0x29#8, 0x0F#8] ⟨0x8000#16, 0xF0#8, 0x00#8, 0x00#8, 0xFD#8, 0x24#8⟩ [])
      ⟨0x8002#16, 0x00#8, 0x00#8, 0x00#8, 0xFD#8, 0x26#8⟩
      [rd 0x8000 0x29, rd 0x8001 0x0F] = true := by decide

theorem test_C24_ora :
    ran (start [0x09#8, 0x80#8] ⟨0x8000#16, 0x01#8, 0x00#8, 0x00#8, 0xFD#8, 0x24#8⟩ [])
      ⟨0x8002#16, 0x81#8, 0x00#8, 0x00#8, 0xFD#8, 0xA4#8⟩
      [rd 0x8000 0x09, rd 0x8001 0x80] = true := by decide

theorem test_C14_bit :
    ran (start [0x24#8, 0x10#8] ⟨0x8000#16, 0x00#8, 0x00#8, 0x00#8, 0xFD#8, 0x24#8⟩ [(0x0010#16, 0xC0#8)])
      ⟨0x8002#16, 0x00#8, 0x00#8, 0x00#8, 0xFD#8, 0xE6#8⟩
      [rd 0x8000 0x24, rd 0x8001 0x10, rd 0x0010 0xC0] = true := by decide

theorem test_C15_bit_abs :
    ran (start [0x2C#8, 0x00#8, 0x20#8] ⟨0x8000#16, 0x0F#8, 0x00#8, 0x00#8, 0xFD#8, 0xE4#8⟩ [(0x2000#16, 0x01#8)])
      ⟨0x8003#16, 0x0F#8, 0x00#8, 0x00#8, 0xFD#8, 0x24#8⟩
      [rd 0x8000 0x2C, rd 0x8001 0x00, rd 0x8002 0x20, rd 0x2000 0x01] = true := by decide

theorem test_C16_lsr :
    ran (start [0x4A#8] ⟨0x8000#16, 0x01#8, 0x00#8, 0x00#8, 0xFD#8, 0x24#8⟩ [])
      ⟨0x8001#16, 0x00#8, 0x00#8, 0x00#8, 0xFD#8, 0x27#8⟩
      [rd 0x8000 0x4A, rd 0x8001 0x00] = true := by decide

theorem test_C17_ror :
    ran (start [0x6A#8] ⟨0x8000#16, 0x00#8, 0x00#8, 0x00#8, 0xFD#8, 0x25#8⟩ [])
      ⟨0x8001#16, 0x80#8, 0x00#8, 0x00#8, 0xFD#8, 0xA4#8⟩
      [rd 0x8000 0x6A, rd 0x8001 0x00] = true := by decide

theorem test_C18_rol :
    ran (start [0x26#8, 0x10#8] ⟨0x8000#16, 0x00#8, 0x00#8, 0x00#8, 0xFD#8, 0x25#8⟩ [(0x0010#16, 0x80#8)])
      ⟨0x8002#16, 0x00#8, 0x00#8, 0x00#8, 0xFD#8, 0x25#8⟩
      [rd 0x8000 0x26, rd 0x8001 0x10, rd 0x0010 0x80, wr 0x0010 0x80, wr 0x0010 0x01] = true := by decide

theorem test_C19_dec :
    ran (start [0xC6#8, 0x10#8] ⟨0x8000#16, 0x00#8, 0x00#8, 0x00#8, 0xFD#8, 0x24#8⟩ [])
      ⟨0x8002#16, 0x00#8, 0x00#8, 0x00#8, 0xFD#8, 0xA4#8⟩
      [rd 0x8000 0xC6, rd 0x8001 0x10, rd 0x0010 0x00, wr 0x0010 0x00, wr 0x0010 0xFF] = true := by decide

theorem test_C20_inx :
    ran (start [0xE8#8] ⟨0x8000#16, 0x00#8, 0xFF#8, 0x00#8, 0xFD#8, 0x24#8⟩ [])
      ⟨0x8001#16, 0x00#8, 0x00#8, 0x00#8, 0xFD#8, 0x26#8⟩
      [rd 0x8000 0xE8, rd 0x8001 0x00] = true := by decide

theorem test_C21_dey :
    ran (start [0x88#8] ⟨0x8000#16, 0x00#8, 0x00#8, 0x00#8, 0xFD#8, 0x24#8⟩ [])
      ⟨0x8001#16, 0x00#8, 0x00#8, 0xFF#8, 0xFD#8, 0xA4#8⟩
      [rd 0x8000 0x88, rd 0x8001 0x00] = true := by decide

theorem test_D1_bne_not_taken :
    ran (start [0xD0#8, 0x10#8] ⟨0x8000#16, 0x00#8, 0x00#8, 0x00#8, 0xFD#8, 0x26#8⟩ [])
      ⟨0x8002#16, 0x00#8, 0x00#8, 0x00#8, 0xFD#8, 0x26#8⟩
      [rd 0x8000 0xD0, rd 0x8001 0x10] = true := by decide

theorem test_D2_bne :
    ran (start [0xD0#8, 0x10#8] ⟨0x8000#16, 0x00#8, 0x00#8, 0x00#8, 0xFD#8, 0x24#8⟩ [])
      ⟨0x8012#16, 0x00#8, 0x00#8, 0x00#8, 0xFD#8, 0x24#8⟩
      [rd 0x8000 0xD0, rd 0x8001 0x10, rd 0x8002 0x00] = true := by decide

theorem test_D3_bcc_crossing :
    ran (start [0x90#8, 0x20#8] ⟨0x80F0#16, 0x00#8, 0x00#8, 0x00#8, 0xFD#8, 0x24#8⟩ [])
      ⟨0x8112#16, 0x00#8, 0x00#8, 0x00#8, 0xFD#8, 0x24#8⟩
      [rd 0x80F0 0x90, rd 0x80F1 0x20, rd 0x80F2 0x00, rd 0x8012 0x00] = true := by decide

theorem test_D4_bmi_backward :
    ran (start [0x30#8, 0xFC#8] ⟨0x8000#16, 0x00#8, 0x00#8, 0x00#8, 0xFD#8, 0xA4#8⟩ [])
      ⟨0x7FFE#16, 0x00#8, 0x00#8, 0x00#8, 0xFD#8, 0xA4#8⟩
      [rd 0x8000 0x30, rd 0x8001 0xFC, rd 0x8002 0x00, rd 0x80FE 0x00] = true := by decide

theorem test_D6_bvs :
    ran (start [0x70#8, 0x7F#8] ⟨0x8000#16, 0x00#8, 0x00#8, 0x00#8, 0xFD#8, 0x64#8⟩ [])
      ⟨0x8081#16, 0x00#8, 0x00#8, 0x00#8, 0xFD#8, 0x64#8⟩
      [rd 0x8000 0x70, rd 0x8001 0x7F, rd 0x8002 0x00] = true := by decide

theorem test_D5_jmp_indirect :
    ran (start [0x6C#8, 0x20#8, 0x01#8] ⟨0x8000#16, 0x00#8, 0x00#8, 0x00#8, 0xFD#8, 0x24#8⟩ [(0x0120#16, 0x34#8), (0x0121#16, 0x12#8)])
      ⟨0x1234#16, 0x00#8, 0x00#8, 0x00#8, 0xFD#8, 0x24#8⟩
      [rd 0x8000 0x6C, rd 0x8001 0x20, rd 0x8002 0x01, rd 0x0120 0x34, rd 0x0121 0x12] = true := by decide

theorem test_V1_jmp_indirect_bug :
    ran (start [0x6C#8, 0xFF#8, 0x10#8] ⟨0x0400#16, 0x00#8, 0x00#8, 0x00#8, 0x00#8, 0x24#8⟩ [(0x10FF#16, 0x00#8), (0x1000#16, 0x80#8), (0x1100#16, 0xFF#8)])
      ⟨0x8000#16, 0x00#8, 0x00#8, 0x00#8, 0x00#8, 0x24#8⟩
      [rd 0x0400 0x6C, rd 0x0401 0xFF, rd 0x0402 0x10, rd 0x10FF 0x00, rd 0x1000 0x80] = true := by decide

theorem test_V2_jmp :
    ran (start [0x4C#8, 0xF5#8, 0xC5#8] ⟨0xC000#16, 0x00#8, 0x00#8, 0x00#8, 0xFD#8, 0x24#8⟩ [])
      ⟨0xC5F5#16, 0x00#8, 0x00#8, 0x00#8, 0xFD#8, 0x24#8⟩
      [rd 0xC000 0x4C, rd 0xC001 0xF5, rd 0xC002 0xC5] = true := by decide

theorem test_V3_jsr :
    ran (start [0x20#8, 0x34#8, 0x12#8] ⟨0x8000#16, 0x00#8, 0x00#8, 0x00#8, 0xFD#8, 0x24#8⟩ [])
      ⟨0x1234#16, 0x00#8, 0x00#8, 0x00#8, 0xFB#8, 0x24#8⟩
      [rd 0x8000 0x20, rd 0x8001 0x34, rd 0x01FD 0x00, wr 0x01FD 0x80, wr 0x01FC 0x02, rd 0x8002 0x12] = true := by decide

theorem test_V3_rts :
    ran (start [0x60#8] ⟨0x1234#16, 0x00#8, 0x00#8, 0x00#8, 0xFB#8, 0x24#8⟩ [(0x01FC#16, 0x02#8), (0x01FD#16, 0x80#8), (0x8002#16, 0x12#8)])
      ⟨0x8003#16, 0x00#8, 0x00#8, 0x00#8, 0xFD#8, 0x24#8⟩
      [rd 0x1234 0x60, rd 0x1235 0x00, rd 0x01FB 0x00, rd 0x01FC 0x02, rd 0x01FD 0x80, rd 0x8002 0x12] = true := by decide

theorem test_D7_brk :
    ran (start [0x00#8, 0xEA#8] ⟨0x8000#16, 0x00#8, 0x00#8, 0x00#8, 0xFD#8, 0x20#8⟩ [(0xFFFF#16, 0x90#8)])
      ⟨0x9000#16, 0x00#8, 0x00#8, 0x00#8, 0xFA#8, 0x24#8⟩
      [rd 0x8000 0x00, rd 0x8001 0xEA, wr 0x01FD 0x80, wr 0x01FC 0x02,
        wr 0x01FB 0x30, rd 0xFFFE 0x00, rd 0xFFFF 0x90] = true := by decide

theorem test_D7_rti :
    ran (start [0x40#8] ⟨0x9000#16, 0x00#8, 0x00#8, 0x00#8, 0xFA#8, 0x24#8⟩ [(0x01FB#16, 0x30#8), (0x01FC#16, 0x02#8), (0x01FD#16, 0x80#8)])
      ⟨0x8002#16, 0x00#8, 0x00#8, 0x00#8, 0xFD#8, 0x20#8⟩
      [rd 0x9000 0x40, rd 0x9001 0x00, rd 0x01FA 0x00, rd 0x01FB 0x30, rd 0x01FC 0x02, rd 0x01FD 0x80] = true := by decide

theorem test_E1_php :
    ran (start [0x08#8] ⟨0x8000#16, 0x00#8, 0x00#8, 0x00#8, 0xFD#8, 0x24#8⟩ [])
      ⟨0x8001#16, 0x00#8, 0x00#8, 0x00#8, 0xFC#8, 0x24#8⟩
      [rd 0x8000 0x08, rd 0x8001 0x00, wr 0x01FD 0x34] = true := by decide

theorem test_E2_plp :
    ran (start [0x28#8] ⟨0x8000#16, 0x00#8, 0x00#8, 0x00#8, 0xFC#8, 0x24#8⟩ [(0x01FD#16, 0xFF#8)])
      ⟨0x8001#16, 0x00#8, 0x00#8, 0x00#8, 0xFD#8, 0xEF#8⟩
      [rd 0x8000 0x28, rd 0x8001 0x00, rd 0x01FC 0x00, rd 0x01FD 0xFF] = true := by decide

theorem test_E3_plp :
    ran (start [0x28#8] ⟨0x8000#16, 0x00#8, 0x00#8, 0x00#8, 0xFC#8, 0x24#8⟩ [])
      ⟨0x8001#16, 0x00#8, 0x00#8, 0x00#8, 0xFD#8, 0x20#8⟩
      [rd 0x8000 0x28, rd 0x8001 0x00, rd 0x01FC 0x00, rd 0x01FD 0x00] = true := by decide

theorem test_E4_pla :
    ran (start [0x68#8] ⟨0x8000#16, 0x00#8, 0x00#8, 0x00#8, 0xFC#8, 0x24#8⟩ [(0x01FD#16, 0x80#8)])
      ⟨0x8001#16, 0x80#8, 0x00#8, 0x00#8, 0xFD#8, 0xA4#8⟩
      [rd 0x8000 0x68, rd 0x8001 0x00, rd 0x01FC 0x00, rd 0x01FD 0x80] = true := by decide

theorem test_E5_pha :
    ran (start [0x48#8] ⟨0x8000#16, 0x99#8, 0x00#8, 0x00#8, 0x00#8, 0x24#8⟩ [])
      ⟨0x8001#16, 0x99#8, 0x00#8, 0x00#8, 0xFF#8, 0x24#8⟩
      [rd 0x8000 0x48, rd 0x8001 0x00, wr 0x0100 0x99] = true := by decide

theorem test_E6_clv :
    ran (start [0xB8#8] ⟨0x8000#16, 0x00#8, 0x00#8, 0x00#8, 0xFD#8, 0x64#8⟩ [])
      ⟨0x8001#16, 0x00#8, 0x00#8, 0x00#8, 0xFD#8, 0x24#8⟩
      [rd 0x8000 0xB8, rd 0x8001 0x00] = true := by decide

theorem test_E7_sed :
    ran (start [0xF8#8] ⟨0x8000#16, 0x00#8, 0x00#8, 0x00#8, 0xFD#8, 0x24#8⟩ [])
      ⟨0x8001#16, 0x00#8, 0x00#8, 0x00#8, 0xFD#8, 0x2C#8⟩
      [rd 0x8000 0xF8, rd 0x8001 0x00] = true := by decide

theorem test_E8_cli :
    ran (start [0x58#8] ⟨0x8000#16, 0x00#8, 0x00#8, 0x00#8, 0xFD#8, 0x24#8⟩ [])
      ⟨0x8001#16, 0x00#8, 0x00#8, 0x00#8, 0xFD#8, 0x20#8⟩
      [rd 0x8000 0x58, rd 0x8001 0x00] = true := by decide

theorem test_F1_lax :
    ran (start [0xB3#8, 0x10#8] ⟨0x8000#16, 0x00#8, 0x00#8, 0x01#8, 0xFD#8, 0x24#8⟩ [(0x0010#16, 0xFF#8), (0x0011#16, 0x20#8)])
      ⟨0x8002#16, 0x00#8, 0x00#8, 0x01#8, 0xFD#8, 0x26#8⟩
      [rd 0x8000 0xB3, rd 0x8001 0x10, rd 0x0010 0xFF, rd 0x0011 0x20, rd 0x2000 0x00, rd 0x2100 0x00] = true := by decide

theorem test_F2_sax :
    ran (start [0x97#8, 0xFE#8] ⟨0x8000#16, 0x3C#8, 0xF0#8, 0x03#8, 0xFD#8, 0x24#8⟩ [])
      ⟨0x8002#16, 0x3C#8, 0xF0#8, 0x03#8, 0xFD#8, 0x24#8⟩
      [rd 0x8000 0x97, rd 0x8001 0xFE, rd 0x00FE 0x00, wr 0x0001 0x30] = true := by decide

theorem test_F3_dcp :
    ran (start [0xDF#8, 0x00#8, 0x20#8] ⟨0x8000#16, 0x05#8, 0x01#8, 0x00#8, 0xFD#8, 0x24#8⟩ [])
      ⟨0x8003#16, 0x05#8, 0x01#8, 0x00#8, 0xFD#8, 0x24#8⟩
      [rd 0x8000 0xDF, rd 0x8001 0x00, rd 0x8002 0x20, rd 0x2001 0x00,
        rd 0x2001 0x00, wr 0x2001 0x00, wr 0x2001 0xFF] = true := by decide

theorem test_F4_isb :
    ran (start [0xF3#8, 0x10#8] ⟨0x8000#16, 0x10#8, 0x00#8, 0x00#8, 0xFD#8, 0x25#8⟩ [(0x0011#16, 0x20#8), (0x2000#16, 0x0F#8)])
      ⟨0x8002#16, 0x00#8, 0x00#8, 0x00#8, 0xFD#8, 0x27#8⟩
      [rd 0x8000 0xF3, rd 0x8001 0x10, rd 0x0010 0x00, rd 0x0011 0x20, rd 0x2000 0x0F,
        rd 0x2000 0x0F, wr 0x2000 0x0F, wr 0x2000 0x10] = true := by decide

theorem test_F5_nop_absX :
    ran (start [0x1C#8, 0xF0#8, 0x20#8] ⟨0x8000#16, 0x00#8, 0x20#8, 0x00#8, 0xFD#8, 0x24#8⟩ [])
      ⟨0x8003#16, 0x00#8, 0x20#8, 0x00#8, 0xFD#8, 0x24#8⟩
      [rd 0x8000 0x1C, rd 0x8001 0xF0, rd 0x8002 0x20, rd 0x2010 0x00, rd 0x2110 0x00] = true := by decide

theorem test_F6_rra :
    ran (start [0x67#8, 0x10#8] ⟨0x8000#16, 0x7F#8, 0x00#8, 0x00#8, 0xFD#8, 0x25#8⟩ [])
      ⟨0x8002#16, 0xFF#8, 0x00#8, 0x00#8, 0xFD#8, 0xA4#8⟩
      [rd 0x8000 0x67, rd 0x8001 0x10, rd 0x0010 0x00, wr 0x0010 0x00, wr 0x0010 0x80] = true := by decide

theorem test_F7_sre :
    ran (start [0x43#8, 0x10#8] ⟨0x8000#16, 0x01#8, 0x00#8, 0x00#8, 0xFD#8, 0x24#8⟩ [(0x0011#16, 0x20#8), (0x2000#16, 0x03#8)])
      ⟨0x8002#16, 0x00#8, 0x00#8, 0x00#8, 0xFD#8, 0x27#8⟩
      [rd 0x8000 0x43, rd 0x8001 0x10, rd 0x0010 0x00, rd 0x0010 0x00, rd 0x0011 0x20,
        rd 0x2000 0x03, wr 0x2000 0x03, wr 0x2000 0x01] = true := by decide

theorem test_F8_nop_imm :
    ran (start [0x80#8, 0x55#8] ⟨0x8000#16, 0x00#8, 0x00#8, 0x00#8, 0xFD#8, 0x24#8⟩ [])
      ⟨0x8002#16, 0x00#8, 0x00#8, 0x00#8, 0xFD#8, 0x24#8⟩
      [rd 0x8000 0x80, rd 0x8001 0x55] = true := by decide

theorem test_F9_sbc_EB :
    ran (start [0xEB#8, 0x01#8] ⟨0x8000#16, 0x00#8, 0x00#8, 0x00#8, 0xFD#8, 0x25#8⟩ [])
      ⟨0x8002#16, 0xFF#8, 0x00#8, 0x00#8, 0xFD#8, 0xA4#8⟩
      [rd 0x8000 0xEB, rd 0x8001 0x01] = true := by decide

/-! Reset and the fault (vectors G2, H1, H2). -/

theorem test_G2_reset :
    let s : State :=
      { start [] ⟨0x1234#16, 0x11#8, 0x22#8, 0x33#8, 0x44#8, 0xCB#8⟩ [(0xFFFD#16, 0x80#8)] with params := Config.defaultParams }
    s.resetAction.cpu.regs = ⟨0x8000#16, 0x11#8, 0x22#8, 0x33#8, 0x44#8, 0xE7#8⟩ := by decide

theorem test_H1_jam :
    ∃ t, (start [0x02#8] ⟨0x8000#16, 0, 0, 0, 0xFD#8, 0x24#8⟩ []).pulse = .next t ∧ t.cpu.ir = 0x02#8 ∧
      t.cpu.regs.pc = 0x8001#16 ∧ t.cpu.addrBus = 0x8001#16 ∧ t.cpu.tcu = 1#8 ∧ t.cpu.cyc = 1#64 ∧
      t.cpu.nextMicroOp = .unimplemented 0x02#8 ∧ t.pulse = .fault (.unimplementedOpcode 0x02#8) :=
  ⟨_, rfl, rfl, rfl, rfl, rfl, rfl, rfl, rfl⟩

/-- An undocumented opcode without `UNDOC_SUPPORT`. -/
def unsupported : State :=
  { start [0xA7#8, 0x40#8] ⟨0x8000#16, 0, 0, 0, 0xFD#8, 0x24#8⟩ [] with params := ⟨false⟩ }

theorem test_H2_no_undoc_support : step unsupported = .fault (.unimplementedOpcode 0xA7#8) := rfl

/-! Witnesses: for every statement with hypotheses, a state and operands that meet them together. -/

/-- A boundary at `$8000` with this code and the vectors' registers. -/
def code (bytes : List Byte) : State := start bytes ⟨0x8000#16, 0, 0, 0, 0xFD#8, 0x24#8⟩ []

/-- A state in the middle of an instruction: one pulse of LDA absolute is done. -/
def midway : State :=
  { code [0xAD#8, 0x00#8, 0x20#8] with
    cpu :=
      { (code [0xAD#8, 0x00#8, 0x20#8]).cpu with
        regs := ⟨0x8001#16, 0, 0, 0, 0xFD#8, 0x24#8⟩, ir := 0xAD#8, addrBus := 0x8001#16, dataBus := 0xAD#8, tcu := 1#8,
        nextMicroOp := .absLo (.read .lda) none } }

/-- A core about to run this micro-op on a read of `addrBus`. -/
def about (m : MicroOp) : Cpu := { midway.cpu with nextMicroOp := m }

theorem test_witness_EncodeThenDecode :
    Instr.wellFormed (.lda (.mem .absX)) = true ∧ [0x00#8, 0x20#8].length = Instr.operandCount (.lda (.mem .absX)) := by decide

theorem test_witness_DecodeThenEncode :
    (∃ d, decode [0xA9#8, 0x80#8, 0x11#8] = .ok d) ∧ (decodeOpcode 0xA9#8).operandCount ≤ [0x80#8].length ∧
      (decodeOpcode 0x02#8).operandCount ≤ ([] : List Byte).length := ⟨⟨_, rfl⟩, by decide, by decide⟩

/-- Hypotheses of StepRunsDecoded (both clauses), StepIsPulses, StepEndsAtBoundary, StepKeepsInv. -/
theorem test_witness_Step :
    (code [0xA9#8, 0x80#8]).atBoundary = true ∧
      (∃ d, decode [Memory.read (code [0xA9#8, 0x80#8]).mem 0x8000#16, Memory.read (code [0xA9#8, 0x80#8]).mem 0x8001#16,
        Memory.read (code [0xA9#8, 0x80#8]).mem 0x8002#16] = .ok d) ∧
      midway.cpu.nextMicroOp ≠ .fetchOpcode ∧ (code [0xA9#8, 0x80#8]).cpu.nextMicroOp = .fetchOpcode ∧
      (∃ t, step midway = .next t) ∧ (∃ t, step (code [0xA9#8, 0x80#8]) = .next t) ∧ midway.inv = true ∧
      (code [0xA9#8, 0x80#8]).inv = true :=
  ⟨rfl, ⟨_, rfl⟩, nofun, rfl, ⟨_, rfl⟩, ⟨_, rfl⟩, by decide, by decide⟩

/-- Hypotheses of PulseKeepsInv, PulseIsOneBusCycle, LatchesPerPulse and StatusBitsFourAndFiveAreKept: a first pulse, a
pulse in the middle, the pulse that latches `jsr_lo`, a faulting one. -/
theorem test_witness_Pulse :
    (code [0x20#8]).cpu.inv = true ∧ midway.cpu.inv = true ∧
      (∃ r, pulseOn ramAgent Config.defaultParams ((code [0x20#8]).cpu, (code [0x20#8]).mem) = .next r) ∧
      (∃ r, pulseOn ramAgent Config.defaultParams (midway.cpu, midway.mem) = .next r) ∧
      (∃ r, pulseOn ramAgent Config.defaultParams (about .jsrLo, midway.mem) = .next r) ∧
      (∀ op, midway.cpu.nextMicroOp ≠ .unimplemented op) ∧
      (about (.unimplemented 0x02#8)).nextMicroOp = .unimplemented 0x02#8 :=
  ⟨by decide, by decide, ⟨_, rfl⟩, ⟨_, rfl⟩, ⟨_, rfl⟩, nofun, rfl⟩

theorem test_witness_ResetEstablishesInv :
    Memory.wf (code [0xA9#8, 0x80#8]).mem = true ∧ Memory.wf State.powerOn.mem = true := by decide

/-- D and I both flipped, before an opcode fetch and before the add of an ADC. -/
theorem test_witness_DecimalAndInterruptFlagsSteerNothing :
    0x0C#8 &&& 0xC3#8 = 0#8 ∧ 0x3C#8 &&& 0xC3#8 = 0#8 ∧ (about (.execRead .adc)).nextMicroOp ≠ .pushDummy .php ∧
      (about (.execRead .adc)).nextMicroOp ≠ .brkPushLo ∧ (code [0x69#8]).cpu.nextMicroOp ≠ .pushDummy .php ∧
      (∃ r, pulseOn ramAgent Config.defaultParams (about (.execRead .adc), midway.mem) = .next r) ∧
      (∃ r, pulseOn ramAgent Config.defaultParams ((code [0x69#8]).cpu, (code [0x69#8]).mem) = .next r) :=
  ⟨by decide, by decide, nofun, nofun, nofun, ⟨_, rfl⟩, ⟨_, rfl⟩⟩

/-- Hypotheses of FaultStateIsEntered, FaultIsQuiescent, UnimplementedOpcodesFault, UndocSupportGatesTheUndocumented. -/
theorem test_witness_Faults :
    (code [0x02#8]).atBoundary = true ∧ (decodeOpcode (code [0x02#8]).fetchByte).opClass = .unimplemented ∧
      unsupported.atBoundary = true ∧ (decodeOpcode unsupported.fetchByte).opClass = .undocumented ∧
      unsupported.params.undocSupport = false ∧ decodeOpcode unsupported.fetchByte = .lax .zp ∧
      Instr.opClass (.lax .zp) = .undocumented ∧ (code [0xA7#8, 0x40#8]).atBoundary = true ∧
      (code [0xA7#8, 0x40#8]).params.undocSupport = true ∧ Instr.opClass .nop = .documented ∧
      Instr.opClass .las = .unimplemented ∧ (about (.unimplemented 0x02#8)).nextMicroOp = .unimplemented 0x02#8 := by decide

theorem test_witness_PokesAreRefusedOffBoundary :
    (code []).atBoundary = true ∧ midway.atBoundary = false ∧ Poke.admitted (.pc 0x8000#16) = true ∧
      Poke.admitted (.tcu 0#8) = false ∧ (∃ t, hostStep (.poke (.sp 0xFF#8)) (code []) = .next t) :=
  ⟨rfl, by decide, rfl, rfl, ⟨_, rfl⟩⟩

/-- Both sides of the page boundary: `$20FF + 0` does not cross, `$20FF + 1` does, `$FF00 + $FF` does not. -/
theorem test_witness_PageCrossingIsACarry :
    pageCrossed 0x20FF#16 0x00#8 = false ∧ pageCrossed 0x20FF#16 0x01#8 = true ∧ pageCrossed 0xFF00#16 0xFF#8 = false := by
  decide

/-- Hypotheses of every statement about one instruction: a boundary, a memory in its canonical form, `UNDOC_SUPPORT`, and
(for the traces) the opcode at `pc`. -/
theorem test_witness_Instructions :
    (code [0xBD#8, 0xF0#8, 0x20#8]).atBoundary = true ∧ Memory.wf (code [0xBD#8, 0xF0#8, 0x20#8]).mem = true ∧
      (code [0xBD#8, 0xF0#8, 0x20#8]).params.undocSupport = true ∧
      decodeOpcode (code [0xBD#8, 0xF0#8, 0x20#8]).fetchByte = .lda (.mem .absX) := by decide

/-- The last clause of BranchesTestOneFlag, at both ends of `group_a`. -/
theorem test_witness_BranchesTestOneFlag :
    firstMicroOp (decodeOpcode 0x10#8) 0x10#8 = .branch .bpl ∧ firstMicroOp (decodeOpcode 0xF0#8) 0xF0#8 = .branch .beq := by
  decide

/-- The carry-in of AddWithCarry's second formula at both ends of its range. -/
theorem test_witness_AddWithCarry :
    (0 : Nat) ≤ 1 ∧ (1 : Nat) ≤ 1 ∧ (code [0x69#8]).atBoundary = true ∧ (0x7F#8 : Byte).toInt + (0#8 : Byte).toInt + 1 = 128 := by
  decide

/-- JSR to an RTS. -/
theorem test_witness_RtsPullsTheReturnAddress :
    ∃ t u, (code [0x20#8, 0x03#8, 0x80#8, 0x60#8]).atBoundary = true ∧
      Memory.wf (code [0x20#8, 0x03#8, 0x80#8, 0x60#8]).mem = true ∧
      decodeOpcode (code [0x20#8, 0x03#8, 0x80#8, 0x60#8]).fetchByte = .jsr ∧
      step (code [0x20#8, 0x03#8, 0x80#8, 0x60#8]) = .next t ∧ decodeOpcode t.fetchByte = .rts ∧ step t = .next u :=
  ⟨_, _, rfl, by decide, by decide, rfl, by decide, rfl⟩

/-- BRK with an RTI at the vector's target. -/
def trap : State :=
  start [0x00#8, 0xEA#8] ⟨0x8000#16, 0, 0, 0, 0xFD#8, 0x20#8⟩ [(0x9000#16, 0x40#8), (0xFFFF#16, 0x90#8)]

theorem test_witness_TrapRoundTripRestores :
    ∃ t u, trap.atBoundary = true ∧ Memory.wf trap.mem = true ∧ decodeOpcode trap.fetchByte = .brk ∧ step trap = .next t ∧
      decodeOpcode t.fetchByte = .rti ∧ step t = .next u :=
  ⟨_, _, rfl, by decide, by decide, rfl, by decide, rfl⟩

theorem test_witness_PullsReadTheStack :
    ∃ t u v w, (code [0x48#8, 0x68#8]).atBoundary = true ∧ Memory.wf (code [0x48#8, 0x68#8]).mem = true ∧
      exec .pha (code [0x48#8, 0x68#8]) = .next t ∧ exec .pla t = .next u ∧
      exec .php (code [0x48#8, 0x68#8]) = .next v ∧ exec .plp v = .next w :=
  ⟨_, _, _, _, rfl, by decide, rfl, rfl, rfl, rfl⟩

/-- Hypotheses of StepTakesTwoToEightCycles, PcAdvancesByTheLength, OnlyWritersWrite and StackStaysInPageOne. -/
theorem test_witness_WholeMachine :
    (code [0xE6#8, 0x10#8]).atBoundary = true ∧ Instr.transfersControl (.inc .zp) = false ∧
      (∃ t, exec (.inc .zp) (code [0xE6#8, 0x10#8]) = .next t) ∧ Instr.writesA (.inc .zp) = false ∧
      Instr.writesMemory .tax = false ∧ (∃ t, exec .tax (code [0xAA#8]) = .next t) ∧
      (∃ t, exec .pha (code [0x48#8]) = .next t) ∧ (0xFF#16 : Addr).toNat < 0x100 ∧ 0x1FF < (0x200#16 : Addr).toNat ∧
      (start [0x48#8] ⟨0x8000#16, 0, 0, 0, 0x00#8, 0x24#8⟩ []).cpu.regs.sp = 0x00#8 ∧
      (start [0x48#8] ⟨0x8000#16, 0, 0, 0, 0x00#8, 0x24#8⟩ []).atBoundary = true ∧
      Memory.wf (start [0x48#8] ⟨0x8000#16, 0, 0, 0, 0x00#8, 0x24#8⟩ []).mem = true ∧
      (∃ t, exec .txs (code [0x9A#8]) = .next t) ∧ (∃ t, exec .tsx (code [0xBA#8]) = .next t) :=
  ⟨rfl, rfl, ⟨_, rfl⟩, rfl, rfl, ⟨_, rfl⟩, ⟨_, rfl⟩, by decide, by decide, rfl, rfl, by decide, ⟨_, rfl⟩, ⟨_, rfl⟩⟩

/-- The last clause of FlagInstructionsWriteOneFlag: an ADC of `$7F` to `$01` sets V. -/
theorem test_witness_FlagInstructionsWriteOneFlag :
    ∃ s t : State, s.atBoundary = true ∧ exec (.adc .imm) s = .next t ∧ s.cpu.regs.p.getLsbD 6 = false ∧
      t.cpu.regs.p.getLsbD 6 = true :=
  ⟨start [0x69#8, 0x7F#8] ⟨0x8000#16, 0x01#8, 0, 0, 0xFD#8, 0x24#8⟩ [], _, rfl, rfl, by decide, by decide⟩

/-- One opcode of each row, a documented one with UNDOC_SUPPORT false among them. -/
theorem test_witness_BusTracesOfTheModes :
    (code [0xB1#8, 0x10#8]).atBoundary = true ∧ (code [0xB1#8, 0x10#8]).params.undocSupport = true ∧
      decodeOpcode (code [0xB1#8, 0x10#8]).fetchByte = .lda (.mem .indY) ∧
      decodeOpcode (code [0xB3#8, 0x10#8]).fetchByte = .lax .indY ∧
      decodeOpcode (code [0x91#8, 0x10#8]).fetchByte = .sta .indY ∧
      decodeOpcode (code [0xF3#8, 0x10#8]).fetchByte = .isb .indY ∧
      decodeOpcode (code [0xEB#8, 0x10#8]).fetchByte = .sbcDup ∧ decodeOpcode (code [0xFC#8, 0x10#8]).fetchByte = .nopAbsX 5 ∧
      decodeOpcode (code [0xFA#8]).fetchByte = .nopImplied 5 ∧ decodeOpcode (code [0x6A#8]).fetchByte = .ror .acc ∧
      ({ code [0x6A#8] with params := ⟨false⟩ } : State).atBoundary = true ∧ Instr.opClass (.ror .acc) = .documented := by
  decide

/-- The ends of the address space, and an overwrite by the unlisted byte. -/
theorem test_witness_MemoriesThatAgreeAreEqual :
    Memory.wf (cells [(0x0000#16, 0x01#8), (0xFFFF#16, 0x02#8)]) = true ∧
      Memory.wf (Memory.write (cells [(0x0000#16, 0x01#8)]) 0x0000#16 0x00#8) = true ∧
      Memory.write (cells [(0x0000#16, 0x01#8)]) 0x0000#16 0x00#8 = [] := by decide

end Sys2Proof.Tests
end

/-! PROOFS. Which flags each execution table can write (10_state.md R26, 42_alu_flags.md R222 to R225): every flag
outside an operation's list stays as it was. B and bit 5 stand in no list (R28). -/

namespace Sys2Proof.Machine

/-- Every flag outside the list is as it was. -/
def KeepsFlagsOutside (l : List Flag) (r r' : Regs) : Prop := ∀ f, f ∉ l → r'.getFlag f = r.getFlag f

theorem KeepsFlagsOutside.refl (l : List Flag) (r : Regs) : KeepsFlagsOutside l r r := fun _ _ => rfl

theorem KeepsFlagsOutside.mono {l l' : List Flag} {r r' : Regs} (h : KeepsFlagsOutside l r r') (hl : l ⊆ l') :
    KeepsFlagsOutside l' r r' := fun f hf => h f fun hm => hf (hl hm)

/-- Of two updates in a row, the flags of both lists may be written. -/
theorem KeepsFlagsOutside.trans {l l' : List Flag} {r r' r'' : Regs} (h : KeepsFlagsOutside l r r')
    (h' : KeepsFlagsOutside l' r' r'') : KeepsFlagsOutside (l' ++ l) r r'' := fun f hf =>
  (h' f fun hm => hf (List.mem_append_left _ hm)).trans (h f fun hm => hf (List.mem_append_right _ hm))

theorem KeepsFlagsOutside.getLsbD {l : List Flag} {r r' : Regs} (h : KeepsFlagsOutside l r r') (f : Flag) (hf : f ∉ l) :
    r'.p.getLsbD f.bit = r.p.getLsbD f.bit := by
  rw [← getFlag_eq, ← getFlag_eq]
  exact h f hf

theorem Flag.bit_inj {f g : Flag} (h : f.bit = g.bit) : f = g := by
  cases f <;> cases g <;> first | rfl | cases h

theorem Flag.bit_lt (f : Flag) : f.bit < 8 := by cases f <;> decide

theorem Regs.setFlag_keeps (r : Regs) (f : Flag) (b : Bool) : KeepsFlagsOutside [f] r (r.setFlag f b) := by
  intro g hg
  have hne : g.bit ≠ f.bit := fun e => hg (List.mem_singleton.mpr (Flag.bit_inj e))
  rw [getFlag_eq, getFlag_eq, setFlag_getLsbD r f b g.bit g.bit_lt, if_neg hne]

theorem Regs.updateNz_keeps (r : Regs) (v : Byte) : KeepsFlagsOutside [.z, .n] r (r.updateNz v) :=
  (r.setFlag_keeps .n v.msb).trans (Regs.setFlag_keeps _ .z _)

theorem Regs.adc_keeps (r : Regs) (m : Byte) : KeepsFlagsOutside [.z, .n, .v, .c] r (r.adc m) :=
  ((r.setFlag_keeps .c _).trans (Regs.setFlag_keeps _ .v _)).trans (Regs.updateNz_keeps _ _)

theorem Regs.compare_keeps (r : Regs) (reg m : Byte) : KeepsFlagsOutside [.z, .n, .c] r (r.compare reg m) :=
  (r.setFlag_keeps .c _).trans (Regs.updateNz_keeps _ _)

theorem Regs.bitTest_keeps (r : Regs) (m : Byte) : KeepsFlagsOutside [.v, .n, .z] r (r.bitTest m) :=
  ((r.setFlag_keeps .z _).trans (Regs.setFlag_keeps _ .n _)).trans (Regs.setFlag_keeps _ .v _)

theorem Regs.asl_keeps (r : Regs) (v : Byte) : KeepsFlagsOutside [.z, .n, .c] r (r.asl v).2 :=
  (r.setFlag_keeps .c _).trans (Regs.updateNz_keeps _ _)

theorem Regs.lsr_keeps (r : Regs) (v : Byte) : KeepsFlagsOutside [.z, .n, .c] r (r.lsr v).2 :=
  (r.setFlag_keeps .c _).trans (Regs.updateNz_keeps _ _)

theorem Regs.rol_keeps (r : Regs) (v : Byte) : KeepsFlagsOutside [.z, .n, .c] r (r.rol v).2 :=
  (r.setFlag_keeps .c _).trans (Regs.updateNz_keeps _ _)

theorem Regs.ror_keeps (r : Regs) (v : Byte) : KeepsFlagsOutside [.z, .n, .c] r (r.ror v).2 :=
  (r.setFlag_keeps .c _).trans (Regs.updateNz_keeps _ _)

/-- A pull of the status byte leaves B and bit 5 (R28). -/
theorem Regs.pullP_keeps (r : Regs) (m : Byte) : KeepsFlagsOutside [.n, .v, .d, .i, .z, .c] r (r.pullP m) := by
  intro f hf
  rw [getFlag_eq, getFlag_eq, Regs.pullP_sets r m f.bit f.bit_lt]
  cases f
  case u | b => rfl
  all_goals exact absurd hf (by decide)

/-- The flags that `read_exec(op)` writes (R222). -/
def ReadOp.flags : ReadOp → List Flag
  | .lda | .ldx | .ldy | .lax | .ora | .and | .eor => [.z, .n]
  | .adc | .sbc => [.z, .n, .v, .c]
  | .cmp | .cpx | .cpy => [.z, .n, .c]
  | .bit => [.v, .n, .z]
  | .nop => []

/-- The flags that `rmw_exec(op)` writes (R223). -/
def RmwOp.flags : RmwOp → List Flag
  | .asl | .lsr | .rol | .ror | .slo | .rla | .sre | .dcp => [.z, .n, .c]
  | .inc | .dec => [.z, .n]
  | .rra | .isb => [.z, .n, .v, .c]

/-- The flags that `implied_exec(op)` writes (R225). -/
def ImpliedOp.flags : ImpliedOp → List Flag
  | .asl | .lsr | .rol | .ror => [.z, .n, .c]
  | .tax | .tay | .txa | .tya | .tsx | .inx | .iny | .dex | .dey => [.z, .n]
  | .clc | .sec => [.c]
  | .cli | .sei => [.i]
  | .clv => [.v]
  | .cld | .sed => [.d]
  | .txs | .nop => []

/-- The flags that a pull writes (46_stack_flag_nop.md R364). -/
def PullOp.flags : PullOp → List Flag
  | .pla => [.z, .n]
  | .plp => [.n, .v, .d, .i, .z, .c]

theorem readExec_keeps (op : ReadOp) (v : Byte) (r : Regs) : KeepsFlagsOutside op.flags r (readExec op v r) := by
  cases op
  case adc => exact r.adc_keeps v
  case sbc => exact r.adc_keeps (~~~v)
  case cmp => exact r.compare_keeps r.a v
  case cpx => exact r.compare_keeps r.x v
  case cpy => exact r.compare_keeps r.y v
  case bit => exact r.bitTest_keeps v
  case nop => exact .refl _ r
  case lda | ldx | ldy | lax | ora | and | eor => exact r.updateNz_keeps _

/-- The combined operations write the flags of the shift, then those of the logic or the sum. -/
theorem rmwExec_keeps (op : RmwOp) (v : Byte) (r : Regs) : KeepsFlagsOutside op.flags r (rmwExec op v r).2 := by
  cases op
  case asl => exact r.asl_keeps v
  case lsr => exact r.lsr_keeps v
  case rol => exact r.rol_keeps v
  case ror => exact r.ror_keeps v
  case inc | dec => exact r.updateNz_keeps _
  case slo => exact ((r.asl_keeps v).trans (Regs.updateNz_keeps _ _)).mono (by decide)
  case rla => exact ((r.rol_keeps v).trans (Regs.updateNz_keeps _ _)).mono (by decide)
  case sre => exact ((r.lsr_keeps v).trans (Regs.updateNz_keeps _ _)).mono (by decide)
  case rra => exact ((r.ror_keeps v).trans (Regs.adc_keeps _ _)).mono (by decide)
  case dcp => exact r.compare_keeps r.a _
  case isb => exact r.adc_keeps _

theorem impliedExec_keeps (op : ImpliedOp) (r : Regs) : KeepsFlagsOutside op.flags r (impliedExec op r) := by
  cases op
  case asl => exact r.asl_keeps r.a
  case lsr => exact r.lsr_keeps r.a
  case rol => exact r.rol_keeps r.a
  case ror => exact r.ror_keeps r.a
  case tax | tay | txa | tya | tsx | inx | iny | dex | dey => exact r.updateNz_keeps _
  case clc | sec | cli | sei | clv | cld | sed => exact r.setFlag_keeps _ _
  case txs | nop => exact fun _ _ => rfl

theorem pullExec_keeps (op : PullOp) (v : Byte) (r : Regs) : KeepsFlagsOutside op.flags r (pullExec op v r) := by
  cases op
  case pla => exact r.updateNz_keeps v
  case plp => exact r.pullP_keeps v

end Sys2Proof.Machine

/-! PROOFS. What one micro-op leaves alone: the latches, the cycle counter, and B and bit 5 of `p`. -/

namespace Sys2Proof.Machine

/-- `ir`, `pd` and `jsr_lo` are as they were. -/
structure Cpu.SameLatches (c c' : Cpu) : Prop where
  ir : c'.ir = c.ir
  pd : c'.pd = c.pd
  jsrLo : c'.jsrLo = c.jsrLo

/-! `ea_ready` and `index_hi` set up the next transaction and nothing else (41_addressing.md R162, R172). -/

section

variable (op : MemOp) (ea : Addr) (i lo hi : Byte)

@[simp] theorem eaReady_regs (c : Cpu) : (eaReady op ea c).regs = c.regs := by cases op <;> rfl

@[simp] theorem indexHi_regs (c : Cpu) : (indexHi op i lo hi c).regs = c.regs := by unfold indexHi; split <;> rfl

theorem eaReady_latches {c d : Cpu} (h : c.SameLatches d) : c.SameLatches (eaReady op ea d) := by
  cases op <;> exact ⟨h.ir, h.pd, h.jsrLo⟩

theorem indexHi_latches {c d : Cpu} (h : c.SameLatches d) : c.SameLatches (indexHi op i lo hi d) := by
  unfold indexHi
  split <;> exact ⟨h.ir, h.pd, h.jsrLo⟩

theorem eaReady_setCyc (c : Cpu) (n : Count) :
    eaReady op ea { c with cyc := n } = { eaReady op ea c with cyc := n } := by cases op <;> rfl

theorem indexHi_setCyc (c : Cpu) (n : Count) :
    indexHi op i lo hi { c with cyc := n } = { indexHi op i lo hi c with cyc := n } := by
  unfold indexHi
  split <;> rfl

end

/-- Only `FetchOpcode` writes `ir`, only `JsrLo` writes `jsr_lo`, and no micro-op writes `pd` (10_state.md R34, R35, R41). -/
theorem runMicroOp_latches (params : Params) (m : MicroOp) (c : Cpu) (hf : m ≠ .fetchOpcode) (hj : m ≠ .jsrLo) :
    c.SameLatches (runMicroOp params m c) := by
  cases m
  case fetchOpcode => exact absurd rfl hf
  case jsrLo => exact absurd rfl hj
  case zpAddr | zpIdxAdd | idxFix | izxHi => exact eaReady_latches _ _ ⟨rfl, rfl, rfl⟩
  case izyHi => exact indexHi_latches _ _ _ _ ⟨rfl, rfl, rfl⟩
  case absHi op idx =>
    cases idx
    · exact eaReady_latches _ _ ⟨rfl, rfl, rfl⟩
    · exact indexHi_latches _ _ _ _ ⟨rfl, rfl, rfl⟩
  case branch =>
    simp only [runMicroOp, branch]
    split <;> exact ⟨rfl, rfl, rfl⟩
  case branchTaken =>
    simp only [runMicroOp, branchTaken]
    split <;> exact ⟨rfl, rfl, rfl⟩
  all_goals exact ⟨rfl, rfl, rfl⟩

/-- No micro-op reads or writes the cycle counter (R39). -/
theorem runMicroOp_setCyc (params : Params) (m : MicroOp) (c : Cpu) (n : Count) :
    runMicroOp params m { c with cyc := n } = { runMicroOp params m c with cyc := n } := by
  cases m
  case zpAddr op => exact eaReady_setCyc op _ c.incPc n
  case zpIdxAdd op idx => exact eaReady_setCyc op _ c n
  case idxFix op crossed => exact eaReady_setCyc op _ c n
  case izxHi op => exact eaReady_setCyc op _ c n
  case izyHi op => exact indexHi_setCyc op _ _ _ c n
  case absHi op idx =>
    cases idx
    · exact eaReady_setCyc op _ c.incPc n
    · exact indexHi_setCyc op _ _ _ c.incPc n
  case branch =>
    simp only [runMicroOp, branch]
    split <;> rfl
  case branchTaken =>
    simp only [runMicroOp, branchTaken]
    split <;> rfl
  all_goals rfl

/-- So it is as it was. -/
theorem runMicroOp_cyc (params : Params) (m : MicroOp) (c : Cpu) : (runMicroOp params m c).cyc = c.cyc := by
  have h := congrArg Cpu.cyc (runMicroOp_setCyc params m c c.cyc)
  exact h

/-- The flags that an instruction can write at all: B and bit 5 are not among them (R27, R28). -/
def programFlags : List Flag := [.n, .v, .d, .i, .z, .c]

theorem ReadOp.flags_subset (op : ReadOp) : op.flags ⊆ programFlags := by cases op <;> decide

theorem RmwOp.flags_subset (op : RmwOp) : op.flags ⊆ programFlags := by cases op <;> decide

theorem ImpliedOp.flags_subset (op : ImpliedOp) : op.flags ⊆ programFlags := by cases op <;> decide

theorem PullOp.flags_subset (op : PullOp) : op.flags ⊆ programFlags := by cases op <;> decide

/-- No micro-op writes B or bit 5, those of PLP and RTI among them (R28). -/
theorem runMicroOp_keeps (params : Params) (m : MicroOp) (c : Cpu) :
    KeepsFlagsOutside programFlags c.regs (runMicroOp params m c).regs := by
  cases m
  case implied op => exact (impliedExec_keeps op c.regs).mono op.flags_subset
  case imm op => exact (readExec_keeps op c.dataBus c.incPc.regs).mono op.flags_subset
  case execRead op => exact (readExec_keeps op c.dataBus c.regs).mono op.flags_subset
  case rmwModify op => exact (rmwExec_keeps op c.dataBus c.regs).mono op.flags_subset
  case pullDone op => exact (pullExec_keeps op c.dataBus c.regs).mono op.flags_subset
  case rtiPullP => exact c.regs.pullP_keeps c.dataBus
  case brkPushP => exact (c.decSp.regs.setFlag_keeps .i true).mono (by decide)
  case zpAddr | zpIdxAdd | idxFix | izxHi =>
    simp only [runMicroOp, zpAddr, zpIdxAdd, idxFix, izxHi, eaReady_regs]
    exact fun _ _ => rfl
  case izyHi =>
    simp only [runMicroOp, izyHi, indexHi_regs]
    exact .refl _ _
  case absHi op idx =>
    cases idx <;> simp only [runMicroOp, absHi, eaReady_regs, indexHi_regs] <;> exact fun _ _ => rfl
  case branch =>
    simp only [runMicroOp, branch]
    split <;> exact fun _ _ => rfl
  case branchTaken =>
    simp only [runMicroOp, branchTaken]
    split <;> exact fun _ _ => rfl
  all_goals exact fun _ _ => rfl

end Sys2Proof.Machine

/-! PROOFS. The latches and bits 4 and 5 of `p` over one pulse (10_state.md R27, R28, R34, R35, R39, R41, R47). -/

namespace Sys2Proof.Machine

section

variable {σ : Type} {M : MemAgent σ} {params : Params} {c c' : Cpu} {m m' : σ}

/-- The byte on the data bus after a pulse's transaction (40_sequencer.md R141, R144). -/
def busByte (M : MemAgent σ) (c : Cpu) (m : σ) : Byte := if c.readIntent then (M.read m c.addrBus).1 else c.dataBus

/-- A pulse is its micro-op on the ticked core with that byte on the bus. -/
theorem pulseOn_next_core (h : pulseOn M params (c, m) = .next (c', m')) :
    c' = runMicroOp params c.nextMicroOp { c.tick with dataBus := busByte M c m } := by
  obtain ⟨-, hc, -⟩ := pulseOn_next h
  rw [hc, transact_core]
  rfl

theorem pulseOn_pd (h : pulseOn M params (c, m) = .next (c', m')) : c'.pd = c.dataBus := by
  rw [pulseOn_next_core h]
  by_cases hf : c.nextMicroOp = .fetchOpcode
  · rw [hf]; rfl
  by_cases hj : c.nextMicroOp = .jsrLo
  · rw [hj]; rfl
  exact (runMicroOp_latches params _ _ hf hj).pd

theorem pulseOn_cyc (h : pulseOn M params (c, m) = .next (c', m')) : c'.cyc = c.cyc + 1#64 := by
  rw [pulseOn_next_core h]
  exact runMicroOp_cyc params _ _

theorem pulseOn_ir (h : pulseOn M params (c, m) = .next (c', m')) :
    c'.ir = if c.nextMicroOp = .fetchOpcode then busByte M c m else c.ir := by
  rw [pulseOn_next_core h]
  split
  case isTrue hf => rw [hf]; rfl
  case isFalse hf =>
    by_cases hj : c.nextMicroOp = .jsrLo
    · rw [hj]; rfl
    exact (runMicroOp_latches params _ _ hf hj).ir

theorem pulseOn_jsrLo (h : pulseOn M params (c, m) = .next (c', m')) :
    c'.jsrLo = if c.nextMicroOp = .jsrLo then busByte M c m else c.jsrLo := by
  rw [pulseOn_next_core h]
  split
  case isTrue hj => rw [hj]; rfl
  case isFalse hj =>
    by_cases hf : c.nextMicroOp = .fetchOpcode
    · rw [hf]; rfl
    exact (runMicroOp_latches params _ _ hf hj).jsrLo

/-- The transaction does not depend on the cycle counter. -/
theorem transact_setCyc (M : MemAgent σ) (c : Cpu) (m : σ) (n : Count) :
    transact M { c with cyc := n } m = ({ (transact M c m).1 with cyc := n }, (transact M c m).2) := by
  unfold transact
  split <;> rfl

/-- Nothing a pulse does depends on the cycle counter (R39). -/
theorem pulseOn_setCyc (h : pulseOn M params (c, m) = .next (c', m')) (n : Count) :
    pulseOn M params ({ c with cyc := n }, m) = .next ({ c' with cyc := n + 1#64 }, m') := by
  obtain ⟨hu, hc, hm⟩ := pulseOn_next h
  have hr : Cpu.runs { c with cyc := n } = true := by
    unfold Cpu.runs
    split
    case h_1 op e => exact absurd e (hu op)
    case h_2 => rfl
  rw [pulseOn_of_runs M params _ m hr, hc, hm]
  simp only [busCycle]
  rw [show Cpu.tick { c with cyc := n } = { c.tick with cyc := n + 1#64 } from rfl, transact_setCyc, runMicroOp_setCyc]

/-- A pulse keeps every flag but the six that programs write. -/
theorem pulseOn_keeps (h : pulseOn M params (c, m) = .next (c', m')) :
    KeepsFlagsOutside programFlags c.regs c'.regs := by
  rw [pulseOn_next_core h]
  exact runMicroOp_keeps params _ { c.tick with dataBus := busByte M c m }

end

/-- Settles O15, from what each micro-op leaves alone. -/
theorem latchesPerPulse : Obligations.LatchesPerPulse := by
  intro σ M params c c' m m'
  refine ⟨fun h => ⟨pulseOn_pd h, pulseOn_cyc h, pulseOn_ir h, pulseOn_jsrLo h, pulseOn_setCyc h⟩, ?_⟩
  exact ⟨rfl, rfl, rfl, rfl⟩

/-- Settles O16: B and bit 5 are outside the flags that programs write. -/
theorem statusBitsFourAndFiveAreKept : Obligations.StatusBitsFourAndFiveAreKept := by
  intro σ M params c c' m m' h
  have hp := (pulseOn_keeps h).getLsbD
  exact ⟨hp .b (by decide), hp .u (by decide)⟩

end Sys2Proof.Machine

/-! PROOFS. The invariant of the core and of the machine (10_state.md R46, R47, 40_sequencer.md R131, R134, R137): every
pulse keeps it, so every step does, and reset establishes it. -/

namespace Sys2Proof.Machine

/-- The shape of an instruction boundary (10_state.md R46). -/
structure Cpu.AtRest (c : Cpu) : Prop where
  tcu : c.tcu = 0#8
  next : c.nextMicroOp = .fetchOpcode
  intent : c.readIntent = true
  addr : c.addrBus = c.regs.pc

/-- The core's invariant, clause by clause. -/
structure Cpu.Inv (c : Cpu) : Prop where
  fetch : c.nextMicroOp = .fetchOpcode ↔ c.tcu = 0#8
  boundary : c.nextMicroOp = .fetchOpcode → c.readIntent = true ∧ c.addrBus = c.regs.pc
  room : c.tcu.toNat + c.nextMicroOp.pulsesLeft ≤ 8
  latched : ∀ op, c.nextMicroOp = .unimplemented op → op = c.ir
  bit5 : c.regs.getFlag .u = true

theorem Cpu.faultOpcodeLatched_iff (c : Cpu) :
    c.faultOpcodeLatched = true ↔ ∀ op, c.nextMicroOp = .unimplemented op → op = c.ir := by
  unfold Cpu.faultOpcodeLatched
  split
  case h_1 op e => simp [e]
  case h_2 hne => exact ⟨fun _ op e => absurd e (hne op), fun _ => rfl⟩

theorem Cpu.inv_iff (c : Cpu) : c.inv = true ↔ c.Inv := by
  have hroom : decide (c.tcu.toNat + c.nextMicroOp.pulsesLeft ≤ Config.maxPulses) = true ↔
      c.tcu.toNat + c.nextMicroOp.pulsesLeft ≤ 8 := decide_eq_true_iff
  have hfetch : (c.atFetch == (c.tcu == 0#8)) = true ↔ (c.nextMicroOp = .fetchOpcode ↔ c.tcu = 0#8) := by
    rw [beq_iff_eq, Bool.eq_iff_iff, Cpu.atFetch, beq_iff_eq, beq_iff_eq]
  have hboundary : (!c.atFetch || (c.readIntent && c.addrBus == c.regs.pc)) = true ↔
      (c.nextMicroOp = .fetchOpcode → c.readIntent = true ∧ c.addrBus = c.regs.pc) := by
    simp [Cpu.atFetch, imp_iff_not_or]
  simp only [Cpu.inv, Bool.and_eq_true, hroom, hfetch, hboundary, c.faultOpcodeLatched_iff]
  exact ⟨fun ⟨⟨⟨⟨h1, h2⟩, h3⟩, h4⟩, h5⟩ => ⟨h1, h2, h3, h4, h5⟩,
    fun h => ⟨⟨⟨⟨h.fetch, h.boundary⟩, h.room⟩, h.latched⟩, h.bit5⟩⟩

/-- A core at rest with bit 5 of `p` set satisfies the invariant. -/
theorem Cpu.AtRest.inv {c : Cpu} (h : c.AtRest) (hu : c.regs.getFlag .u = true) : c.Inv where
  fetch := iff_of_true h.next h.tcu
  boundary _ := ⟨h.intent, h.addr⟩
  room := by rw [h.tcu, h.next]; decide
  latched op e := by rw [h.next] at e; cases e
  bit5 := hu

/-! What a pulse leaves (40_sequencer.md R130, R132). -/

theorem firstMicroOp_unimplemented {i : Instr} {ir op : Byte} (h : firstMicroOp i ir = .unimplemented op) : op = ir := by
  have hm : ∀ o m, firstMem o m ≠ .unimplemented op := by
    intro o m
    cases m <;> nofun
  have hr : ∀ o m, firstRead o m ≠ .unimplemented op := by
    rintro o (_ | m)
    · nofun
    · exact hm _ m
  have hs : ∀ a o m, firstShift a o m ≠ .unimplemented op := by
    rintro a o (_ | m)
    · nofun
    · exact hm _ m
  cases i
  case jam | anc | alr | arr | xaa | lxa | axs | sha | tas | shy | shx | las => cases h; rfl
  all_goals simp [firstMicroOp, hm, hr, hs] at h

/-- The only opcode that a dispatch to `Unimplemented` holds is the one fetched (40_sequencer.md R137). -/
theorem dispatchTo_unimplemented {b : Bool} {i : Instr} {ir op : Byte} (h : dispatchTo b i ir = .unimplemented op) :
    op = ir := by
  unfold dispatchTo at h
  split at h
  case h_1 => exact firstMicroOp_unimplemented h
  case h_2 =>
    split at h
    · exact firstMicroOp_unimplemented h
    · cases h; rfl
  case h_3 => cases h; rfl

theorem MicroOp.pulsesLeft_pos {m : MicroOp} (hu : ∀ op, m ≠ .unimplemented op) : 0 < m.pulsesLeft := by
  cases m
  case unimplemented op => exact absurd rfl (hu op)
  case absLo op idx | absHi op idx => cases idx <;> exact Nat.succ_pos _
  all_goals exact Nat.succ_pos _

/-- The opcode fetch begins a chain of at most 7 more pulses (40_sequencer.md R131, R135). -/
theorem fetchOpcode_inv (params : Params) (c : Cpu) (ht : c.tcu = 1#8) (hu : c.regs.getFlag .u = true) :
    (fetchOpcode params c).Inv where
  fetch := by
    have hne : (1#8 : Byte) ≠ 0#8 := by decide
    exact iff_of_false (dispatchTo_ne_fetch _ _ _) (ht ▸ hne)
  boundary e := absurd e (dispatchTo_ne_fetch _ _ _)
  room := by
    have hle := dispatchTo_pulsesLeft params.undocSupport (decodeOpcode c.dataBus) c.dataBus
    have h1 : (fetchOpcode params c).tcu.toNat = 1 := congrArg BitVec.toNat ht
    rw [h1]
    exact Nat.add_le_add_left hle 1
  latched _ e := dispatchTo_unimplemented e
  bit5 := hu

/-- Every other micro-op finishes its instruction, or uses one of the pulses left. -/
theorem Advances.inv {m : MicroOp} {c c' : Cpu} (h : Advances m c c') (ht : 0 < c.tcu.toNat)
    (hroom : c.tcu.toNat + m.pulsesLeft ≤ 9) (hu : c'.regs.getFlag .u = true) : c'.Inv := by
  obtain ⟨hn, ht0, hr, ha⟩ | ⟨hf, hun, htcu, hleft⟩ := h
  · exact Cpu.AtRest.inv ⟨ht0, hn, hr, ha⟩ hu
  · refine ⟨iff_of_false hf fun e => ?_, fun e => absurd e hf, ?_, fun op e => absurd e (hun op), hu⟩
    · rw [← htcu, e] at ht
      exact absurd ht (by decide)
    · rw [htcu]
      omega

/-- The counter does not wrap while it leaves room for a pulse. -/
theorem Cpu.Inv.tick_tcu {c : Cpu} (h : c.Inv) : c.tick.tcu.toNat = c.tcu.toNat + 1 := by
  have hroom := h.room
  simp only [Cpu.tick_tcu, BitVec.toNat_add, BitVec.toNat_ofNat]
  omega

section

variable {σ : Type} {M : MemAgent σ} {params : Params} {c c' : Cpu} {m m' : σ}

/-- A pulse other than an opcode fetch brings its instruction closer to its end. -/
theorem pulseOn_advances (hf : c.nextMicroOp ≠ .fetchOpcode) (h : pulseOn M params (c, m) = .next (c', m')) :
    Advances c.nextMicroOp c.tick c' := by
  rw [pulseOn_next_core h]
  exact runMicroOp_advances params _ { c.tick with dataBus := busByte M c m } hf (pulseOn_next h).1

theorem pulseOn_inv (hi : c.Inv) (h : pulseOn M params (c, m) = .next (c', m')) : c'.Inv := by
  have hu : c'.regs.getFlag .u = true := (pulseOn_keeps h .u (by decide)).trans hi.bit5
  by_cases hf : c.nextMicroOp = .fetchOpcode
  · have hc := pulseOn_next_core h
    rw [hf] at hc
    have ht : c.tick.tcu = 1#8 := by rw [Cpu.tick_tcu, hi.fetch.mp hf]; rfl
    exact hc ▸ fetchOpcode_inv params { c.tick with dataBus := busByte M c m } ht hi.bit5
  · have ht := hi.tick_tcu
    have hroom := hi.room
    exact (pulseOn_advances hf h).inv (by omega) (by omega) hu

end

/-- Settles O8: an opcode fetch begins a chain, every other micro-op finishes it or shortens it. -/
theorem pulseKeepsInv : Obligations.PulseKeepsInv := by
  intro σ M params c c' m m' hi h
  rw [Cpu.inv_iff] at hi ⊢
  exact pulseOn_inv hi h

/-! The machine: the core's invariant and the canonical form of memory. -/

theorem State.inv_iff (s : State) : s.inv = true ↔ s.cpu.Inv ∧ Memory.wf s.mem = true := by
  rw [State.inv, Bool.and_eq_true, Cpu.inv_iff]

/-- A transaction with the plain RAM keeps its canonical form. -/
theorem transact_ram_wf (c : Cpu) (mem : Memory) (h : Memory.wf mem = true) :
    Memory.wf (transact ramAgent c mem).2 = true := by
  unfold transact
  split
  · exact h
  · exact Memory.write_wf mem _ _ h

/-- What every pulse of the machine keeps, as a predicate on the core and its memory. -/
def RamInv (r : Cpu × Memory) : Prop := r.1.Inv ∧ Memory.wf r.2 = true

theorem pulseOn_ramInv {params : Params} (r r' : Cpu × Memory) (hi : RamInv r)
    (h : pulseOn ramAgent params r = .next r') : RamInv r' := by
  refine ⟨pulseOn_inv hi.1 h, ?_⟩
  rw [(pulseOn_next h).2.2]
  exact transact_ram_wf _ _ hi.2

/-! A step is a run of pulses (60_exceptions.md R424). -/

theorem State.lift_next {s t : State} {o : Host.Outcome (Cpu × Memory) Fault Refusal} (h : s.lift o = .next t) :
    o = .next (t.cpu, t.mem) := by
  cases o
  case next r => cases h; rfl
  case fault | refused => cases h

/-- A step at an opcode fetch is the fetch pulse and at most 7 more, whatever else the state is. -/
theorem step_of_fetch (s : State) (hf : s.cpu.nextMicroOp = .fetchOpcode) :
    step s = s.lift (runOn ramAgent s.params 7 (busCycle ramAgent (runMicroOp s.params s.cpu.nextMicroOp) s.cpu s.mem)) := by
  have hd : (transact ramAgent s.cpu.tick s.mem).1.dataBus = s.fetchByte := by rw [transact_core]; rfl
  have hstep : step s = exec (decodeOpcode s.fetchByte) s := by simp only [step, hf]
  rw [hstep, exec_eq_runInstr, hf]
  simp only [State.runInstr, instrOn, busCycle, runMicroOp, fetchOpcode, fetchInto, hd]
  rfl

/-- A step in the middle of an instruction is at most 8 pulses. -/
theorem step_of_not_fetch (s : State) (hf : s.cpu.nextMicroOp ≠ .fetchOpcode) :
    step s = s.lift (runOn ramAgent s.params 8 (s.cpu, s.mem)) := by
  unfold step
  split
  case h_1 e => exact absurd e hf
  case h_2 => rfl

/-- The pulse at an opcode fetch (40_sequencer.md R135) is never a fault. -/
theorem pulseOn_of_fetch {σ : Type} (M : MemAgent σ) (params : Params) (c : Cpu) (m : σ)
    (hf : c.nextMicroOp = .fetchOpcode) :
    pulseOn M params (c, m) = .next (busCycle M (runMicroOp params c.nextMicroOp) c m) :=
  pulseOn_of_runs M params c m (by simp only [Cpu.runs, hf])

/-- The core before the run that a step ends with: the state's own, or the one after its opcode fetch. -/
def StepRunsFrom (s : State) (r : Cpu × Memory) : Prop :=
  r = (s.cpu, s.mem) ∨ pulseOn ramAgent s.params (s.cpu, s.mem) = .next r

theorem MicroOp.pulsesLeft_le (m : MicroOp) : m.pulsesLeft ≤ 8 := by
  have htail : ∀ op : MemOp, op.tail ≤ 3 := by
    intro op
    cases op <;> simp [MemOp.tail]
  cases m
  case absLo op idx | absHi op idx =>
    have := htail op
    cases idx <;> simp only [MicroOp.pulsesLeft] <;> omega
  case zpAddr op | zpIdxAdd op _ | idxFix op _ | zpIdxBase op _ | izxPtr op | izxAdd op | izxLo op | izxHi op | izyPtr op |
      izyLo op | izyHi op =>
    have := htail op
    simp only [MicroOp.pulsesLeft]
    omega
  all_goals simp [MicroOp.pulsesLeft]

/-- The inversion of a step: it is a run, from the middle of an instruction, with pulses enough for the whole chain. -/
theorem step_next {s t : State} (e : step s = .next t) :
    ∃ n r, StepRunsFrom s r ∧ r.1.nextMicroOp ≠ .fetchOpcode ∧ r.1.nextMicroOp.pulsesLeft ≤ n + 1 ∧
      runOn ramAgent s.params (n + 1) r = .next (t.cpu, t.mem) := by
  by_cases hf : s.cpu.nextMicroOp = .fetchOpcode
  · rw [step_of_fetch s hf] at e
    refine ⟨6, _, .inr (pulseOn_of_fetch _ _ _ _ hf), ?_, ?_, State.lift_next e⟩
    · rw [hf]
      exact dispatchTo_ne_fetch _ _ _
    · rw [hf]
      exact dispatchTo_pulsesLeft _ _ _
  · rw [step_of_not_fetch s hf] at e
    exact ⟨7, _, .inl rfl, hf, s.cpu.nextMicroOp.pulsesLeft_le, State.lift_next e⟩

/-- Settles O9: every pulse of the step keeps the invariant. -/
theorem stepKeepsInv : Obligations.StepKeepsInv := by
  intro s t hi e
  rw [State.inv_iff] at hi ⊢
  obtain ⟨n, r, hfrom, -, -, hrun⟩ := step_next e
  have hr : RamInv r := by
    obtain rfl | hp := hfrom
    · exact hi
    · exact pulseOn_ramInv (s.cpu, s.mem) r hi hp
  exact runOn_keeps pulseOn_ramInv (n + 1) hr hrun

/-- The first pulse of a run from the middle of an instruction. -/
theorem runOn_succ_next {σ : Type} {M : MemAgent σ} {params : Params} {n : Nat} {c : Cpu} {m : σ} {r : Cpu × σ}
    (hf : c.nextMicroOp ≠ .fetchOpcode) (h : runOn M params (n + 1) (c, m) = .next r) :
    ∃ c1 m1, pulseOn M params (c, m) = .next (c1, m1) ∧ runOn M params n (c1, m1) = .next r := by
  simp only [runOn, Cpu.atFetch, beq_iff_eq, if_neg hf] at h
  cases hp : pulseOn M params (c, m)
  case next r1 =>
    rw [hp] at h
    exact ⟨r1.1, r1.2, rfl, h⟩
  case fault | refused =>
    rw [hp] at h
    cases h

/-- A run with pulses enough for the chain ends at rest, from any core in the middle of an instruction. -/
theorem runOn_atRest {σ : Type} {M : MemAgent σ} {params : Params} (n : Nat) {c : Cpu} {m : σ} {r : Cpu × σ}
    (hf : c.nextMicroOp ≠ .fetchOpcode) (hu : ∀ op, c.nextMicroOp ≠ .unimplemented op)
    (hle : c.nextMicroOp.pulsesLeft ≤ n) (h : runOn M params n (c, m) = .next r) : r.1.AtRest := by
  induction n generalizing c m with
  | zero => exact absurd (MicroOp.pulsesLeft_pos hu) (Nat.not_lt.mpr hle)
  | succ n ih =>
    obtain ⟨c1, m1, hp, hr⟩ := runOn_succ_next hf h
    obtain ⟨hn, ht, hi, ha⟩ | ⟨hf1, hu1, -, hleft⟩ := pulseOn_advances hf hp
    · rw [runOn_stop M params n c1 m1 hn] at hr
      cases hr
      exact ⟨ht, hn, hi, ha⟩
    · exact ih hf1 hu1 (by omega) hr

/-- Settles O7: a step has pulses enough for the whole chain. -/
theorem stepEndsAtBoundary : Obligations.StepEndsAtBoundary := by
  intro s t e
  obtain ⟨n, ⟨c, m⟩, -, hf, hle, hrun⟩ := step_next e
  obtain ⟨c1, m1, hp, -⟩ := runOn_succ_next hf hrun
  have h := runOn_atRest (n + 1) hf (pulseOn_next hp).1 hle hrun
  exact ⟨h.tcu, h.next, h.intent, h.addr⟩

/-! Reset (70_reset_and_hazards.md R440, R443). -/

theorem Cpu.resetTo_atRest (c : Cpu) (lo hi : Byte) : (c.resetTo lo hi).AtRest := ⟨rfl, rfl, rfl, rfl⟩

/-- Reset sets bit 5 of `p`, and clears D after it. -/
theorem Regs.resetP_bit5 (r : Regs) : r.resetP.getFlag .u = true := by
  rw [Regs.resetP, Regs.setFlag_keeps _ .d false .u (by decide), getFlag_eq, setFlag_getLsbD _ _ _ _ (by decide)]
  rfl

/-- Settles O13: reset leaves a core at rest with bit 5 set, and memory as it was. -/
theorem resetEstablishesInv : Obligations.ResetEstablishesInv := by
  intro s hw
  exact (State.inv_iff _).mpr ⟨(Cpu.resetTo_atRest s.cpu _ _).inv s.cpu.regs.resetP_bit5, hw⟩

/-- Settles O10: `State.reset` is the reset of the power-on state. -/
theorem resetStateInv : Obligations.ResetStateInv := by
  have hreset : State.reset = State.powerOn.resetAction := by decide
  exact ⟨hreset ▸ resetEstablishesInv State.powerOn rfl, rfl, hreset⟩

end Sys2Proof.Machine

/-! PROOFS. Who writes what, over all instructions at once (10_state.md R23, R24, R26): each claim is read off the table
of end states `State.after`. -/

namespace Sys2Proof.Machine

/-! The registers and memory. -/

section

variable (s : State) (i : Instr)

theorem after_a (h : i.writesA = false) : (s.after i).regs.a = s.cpu.regs.a := by
  cases i
  case lda | pla | txa | tya | ora | and | eor | adc | sbc | sbcDup | lax | slo | rla | sre | rra | isb => cases h
  case asl m | lsr m | rol m | ror m =>
    cases m
    case acc => cases h
    case mem => rfl
  all_goals rfl

theorem after_x (h : i.writesX = false) : (s.after i).regs.x = s.cpu.regs.x := by
  cases i
  case ldx | tax | tsx | inx | dex | lax => cases h
  case asl m | lsr m | rol m | ror m => cases m <;> rfl
  all_goals rfl

theorem after_y (h : i.writesY = false) : (s.after i).regs.y = s.cpu.regs.y := by
  cases i
  case ldy | tay | iny | dey => cases h
  case asl m | lsr m | rol m | ror m => cases m <;> rfl
  all_goals rfl

theorem after_sp (h : i.writesSp = false) : (s.after i).regs.sp = s.cpu.regs.sp := by
  cases i
  case txs | pha | php | pla | plp | jsr | rts | brk | rti => cases h
  case asl m | lsr m | rol m | ror m => cases m <;> rfl
  all_goals rfl

theorem after_mem (h : i.writesMemory = false) : (s.after i).mem = s.mem := by
  cases i
  case sta | stx | sty | sax | inc | dec | slo | rla | sre | rra | dcp | isb | pha | php | jsr | brk => cases h
  case asl m | lsr m | rol m | ror m =>
    cases m
    case acc => rfl
    case mem => cases h
  all_goals rfl

end

/-! The flags. -/

/-- The flags that an instruction writes: the **Flags** lines of its rule (files 43 to 47), N and Z included. -/
def flagsWritten : Instr → List Flag
  | .lda _ | .ldx _ | .ldy _ | .lax _ | .pla | .ora _ | .and _ | .eor _ | .inc _ | .dec _ => [.z, .n]
  | .tax | .tay | .txa | .tya | .tsx | .inx | .iny | .dex | .dey => [.z, .n]
  | .adc _ | .sbc _ | .sbcDup | .rra _ | .isb _ => [.z, .n, .v, .c]
  | .cmp _ | .cpx _ | .cpy _ | .asl _ | .lsr _ | .rol _ | .ror _ | .slo _ | .rla _ | .sre _ | .dcp _ => [.z, .n, .c]
  | .bit _ => [.v, .n, .z]
  | .plp | .rti => [.n, .v, .d, .i, .z, .c]
  | .clc | .sec => [.c]
  | .cli | .sei | .brk => [.i]
  | .clv => [.v]
  | .cld | .sed => [.d]
  | _ => []

section

variable (s : State) {l : List Flag}

theorem afterRead_keeps (op : ReadOp) (m : ReadMode) (hl : l = op.flags) :
    KeepsFlagsOutside l s.cpu.regs (s.afterRead op m).regs := hl ▸ readExec_keeps op _ _

theorem afterRmw_keeps (op : RmwOp) (m : DataMode) (hl : l = op.flags) :
    KeepsFlagsOutside l s.cpu.regs (s.afterRmw op m).regs := hl ▸ rmwExec_keeps op _ _

theorem afterImplied_keeps (op : ImpliedOp) (hl : l = op.flags) :
    KeepsFlagsOutside l s.cpu.regs (s.afterImplied op).regs := hl ▸ impliedExec_keeps op _

theorem afterPull_keeps (op : PullOp) (hl : l = op.flags) :
    KeepsFlagsOutside l s.cpu.regs (s.afterPull op).regs := hl ▸ pullExec_keeps op _ _

end

/-- Every flag outside an instruction's list is as it was. -/
theorem after_keeps (s : State) (i : Instr) : KeepsFlagsOutside (flagsWritten i) s.cpu.regs (s.after i).regs := by
  cases i
  case lda | ldx | ldy | lax | ora | and | eor | adc | sbc | sbcDup | cmp | cpx | cpy | bit | nopImm | nopZp | nopZpX |
      nopAbs | nopAbsX => exact afterRead_keeps s _ _ rfl
  case inc | dec | slo | rla | sre | rra | dcp | isb => exact afterRmw_keeps s _ _ rfl
  case asl m | lsr m | rol m | ror m =>
    cases m
    case acc => exact afterImplied_keeps s _ rfl
    case mem => exact afterRmw_keeps s _ _ rfl
  case tax | tay | txa | tya | tsx | txs | inx | iny | dex | dey | clc | sec | cli | sei | clv | cld | sed | nop |
      nopImplied => exact afterImplied_keeps s _ rfl
  case pla | plp => exact afterPull_keeps s _ rfl
  case brk => exact s.cpu.regs.setFlag_keeps .i true
  case rti => exact s.cpu.regs.pullP_keeps _
  all_goals exact fun _ _ => rfl

section

variable {i : Instr}

theorem v_not_mem_flagsWritten (h : i.writesV = false) : Flag.v ∉ flagsWritten i := by
  cases i
  case adc | sbc | sbcDup | rra | isb | bit | clv | plp | rti => cases h
  all_goals simp [flagsWritten]

theorem d_not_mem_flagsWritten (h : i.writesD = false) : Flag.d ∉ flagsWritten i := by
  cases i
  case sed | cld | plp | rti => cases h
  all_goals simp [flagsWritten]

theorem i_not_mem_flagsWritten (h : i.writesI = false) : Flag.i ∉ flagsWritten i := by
  cases i
  case sei | cli | brk | plp | rti => cases h
  all_goals simp [flagsWritten]

theorem c_not_mem_flagsWritten (h : i.writesC = false) : Flag.c ∉ flagsWritten i := by
  cases i
  case adc | sbc | sbcDup | cmp | cpx | cpy | asl | lsr | rol | ror | slo | rla | sre | rra | dcp | isb | clc | sec | plp |
      rti => cases h
  all_goals simp [flagsWritten]

end

/-- Settles O53, column by column of the writers' tables. -/
theorem onlyWritersWrite : Obligations.OnlyWritersWrite := by
  intro i s t h e
  obtain ⟨-, hends⟩ := ends_of_exec_next h e
  rw [hends.regs, hends.mem]
  have hp := (after_keeps s i).getLsbD
  exact ⟨after_a s i, after_x s i, after_y s i, after_sp s i, fun hv => hp .v (v_not_mem_flagsWritten hv),
    fun hd => hp .d (d_not_mem_flagsWritten hd), fun hi => hp .i (i_not_mem_flagsWritten hi),
    fun hc => hp .c (c_not_mem_flagsWritten hc), after_mem s i⟩

end Sys2Proof.Machine

/-! PROOFS. The stack lies in page 1 and only the pushes, the pulls and TXS move `sp` (10_state.md R24, R25). -/

namespace Sys2Proof.Machine

theorem stackAddr_toNat (sp : Byte) : (stackAddr sp).toNat = 256 + sp.toNat := by
  rw [stackAddr_eq_cat, cat_toNat]
  rfl

/-- The two pushes of JSR store at `stack(sp)` and the byte below (45_control_flow.md R335). -/
theorem jsrMemory_read_other (s : State) {ad : Addr} (h0 : ad ≠ stackAddr s.cpu.regs.sp)
    (h1 : ad ≠ stackAddr (s.cpu.regs.sp - 1#8)) : Memory.read (jsrMemory s) ad = Memory.read s.mem ad :=
  (Memory.read_write_other _ _ _ _ h1).trans (Memory.read_write_other _ _ _ _ h0)

/-- The three of BRK store at `stack(sp)` and the two bytes below (R348). -/
theorem brkMemory_read_other (s : State) {ad : Addr} (h0 : ad ≠ stackAddr s.cpu.regs.sp)
    (h1 : ad ≠ stackAddr (s.cpu.regs.sp - 1#8)) (h2 : ad ≠ stackAddr (s.cpu.regs.sp - 2#8)) :
    Memory.read (brkMemory s) ad = Memory.read s.mem ad :=
  (Memory.read_write_other _ _ _ _ h2).trans (jsrMemory_read_other s h0 h1)

/-- The pushes, with the bytes that each stores. -/
def pushes : List (Instr × Nat) := [(.pha, 1), (.php, 1), (.jsr, 2), (.brk, 3)]

/-- The addresses of `n` pushes, the first one first. -/
def State.pushed (s : State) (n : Nat) : List Addr :=
  (List.range n).map fun k => stackAddr (s.cpu.regs.sp - BitVec.ofNat 8 k)

/-- Every one of them is in page 1 (R24). -/
theorem State.mem_pushed_page {s : State} {n : Nat} {ad : Addr} (h : ad ∈ s.pushed n) :
    0x100 ≤ ad.toNat ∧ ad.toNat ≤ 0x1FF := by
  obtain ⟨k, -, rfl⟩ := List.mem_map.mp h
  have := (s.cpu.regs.sp - BitVec.ofNat 8 k).isLt
  rw [stackAddr_toNat]
  omega

theorem State.ne_of_not_mem_pushed {s : State} {n : Nat} {ad : Addr} (h : ad ∉ s.pushed n) (k : Nat) (hk : k < n) :
    ad ≠ stackAddr (s.cpu.regs.sp - BitVec.ofNat 8 k) := fun e =>
  h (List.mem_map.mpr ⟨k, List.mem_range.mpr hk, e.symm⟩)

theorem after_push (s : State) {i : Instr} {n : Nat} (hi : (i, n) ∈ pushes) :
    (s.after i).regs.sp = s.cpu.regs.sp - BitVec.ofNat 8 n ∧
      ∀ ad, ad ∉ s.pushed n → Memory.read (s.after i).mem ad = Memory.read s.mem ad := by
  refine ⟨by fin_cases hi <;> rfl, fun ad had => ?_⟩
  have hk := State.ne_of_not_mem_pushed had
  have h0 : 0 < n → ad ≠ stackAddr s.cpu.regs.sp := fun hn => by simpa using hk 0 hn
  fin_cases hi
  · exact Memory.read_write_other _ _ _ _ (h0 (by decide))
  · exact Memory.read_write_other _ _ _ _ (h0 (by decide))
  · exact jsrMemory_read_other s (h0 (by decide)) (hk 1 (by decide))
  · exact brkMemory_read_other s (h0 (by decide)) (hk 1 (by decide)) (hk 2 (by decide))

/-- A push completes with `sp` lower by its count, and stores only at `stack(sp)` and downward (R25). -/
theorem push_completes (s : State) (h : s.atBoundary = true) {i : Instr} {n : Nat} (hi : (i, n) ∈ pushes) :
    ∃ t, exec i s = .next t ∧ t.cpu.regs.sp = s.cpu.regs.sp - BitVec.ofNat 8 n ∧
      ∀ ad, ad ∉ s.pushed n → Memory.read t.mem ad = Memory.read s.mem ad := by
  have hx : s.executes i = true := by
    fin_cases hi <;> rfl
  obtain ⟨t, e, hends⟩ := exec_ends i s h hx
  obtain ⟨hsp, hmem⟩ := after_push s hi
  exact ⟨t, e, hends.regs ▸ hsp, hends.mem ▸ hmem⟩

/-- The pulls, with the bytes that each takes. -/
def pulls : List (Instr × Nat) := [(.pla, 1), (.plp, 1), (.rts, 2), (.rti, 3)]

/-- A pull completes with `sp` higher by its count, memory as it was (R25). -/
theorem pull_completes (s : State) (h : s.atBoundary = true) {i : Instr} {n : Nat} (hi : (i, n) ∈ pulls) :
    ∃ t, exec i s = .next t ∧ t.cpu.regs.sp = s.cpu.regs.sp + BitVec.ofNat 8 n ∧ t.mem = s.mem := by
  have hx : s.executes i = true := by
    fin_cases hi <;> rfl
  obtain ⟨t, e, hends⟩ := exec_ends i s h hx
  refine ⟨t, e, ?_⟩
  rw [hends.regs, hends.mem]
  fin_cases hi <;> exact ⟨rfl, rfl⟩

/-- A push at `sp = 0` stores at `$0100` and leaves `sp = $FF` (R24). -/
theorem push_wraps (s : State) (h : s.atBoundary = true) (hsp : s.cpu.regs.sp = 0x00#8) (op : PushOp) :
    ∃ t, s.runDocumented (.pushDummy op) = .next t ∧ t.cpu.regs.sp = 0xFF#8 ∧
      (Memory.wf s.mem = true → Memory.read t.mem 0x0100#16 = pushValue op s.cpu.regs) := by
  obtain ⟨t, e, hends⟩ := push_chain s h op
  refine ⟨t, e, ?_, fun hw => ?_⟩
  · rw [hends.regs, hsp]
    rfl
  · rw [hends.mem, hsp]
    exact Memory.read_write_same _ _ _ hw

/-- Settles O54: the table of end states for the pushes, the pulls, TXS and TSX, and the writers of `sp`. -/
theorem stackStaysInPageOne : Obligations.StackStaysInPageOne := by
  refine ⟨fun s h => ⟨fun r hr => push_completes s h hr, fun r hr => pull_completes s h hr⟩, ?_, ?_, ?_, ?_, ?_⟩
  · intro i s t h hi e ad had
    obtain ⟨n, hn⟩ : ∃ n, (i, n) ∈ pushes := by
      fin_cases hi
      exacts [⟨1, by decide⟩, ⟨1, by decide⟩, ⟨2, by decide⟩, ⟨3, by decide⟩]
    obtain ⟨t', e', -, hmem⟩ := push_completes s h hn
    rw [e] at e'
    cases e'
    refine hmem ad fun hp => ?_
    have := State.mem_pushed_page hp
    omega
  · intro sp
    have := sp.isLt
    rw [stackAddr_toNat]
    exact ⟨rfl, by omega, by omega⟩
  · intro s h hsp r hr
    fin_cases hr
    · exact push_wraps s h hsp .pha
    · exact push_wraps s h hsp .php
  · intro i s t h e hi
    obtain ⟨-, hends⟩ := ends_of_exec_next h e
    have hw : i.writesSp = false := by simpa [Instr.writesSp] using hi
    rw [hends.regs, after_sp s i hw]
  · intro s t h
    refine ⟨fun e => ?_, fun e => ?_⟩
    · rw [(ends_of_exec_next h e).2.regs]
      rfl
    · rw [(ends_of_exec_next h e).2.regs]
      rfl

end Sys2Proof.Machine

/-! PROOFS. A canonical memory is determined by its bytes (20_memory.md R60, R64). -/

namespace Sys2Proof.Machine

/-- A canonical memory lists no key outside the 16-bit space (R60). -/
theorem Memory.lookup_above (m : Memory) (lo k : Nat) (h : Memory.wfFrom lo m = true) (hk : 65536 ≤ k) :
    Memory.lookup m k = Config.unlistedByte := by
  induction m generalizing lo with
  | nil => rfl
  | cons c t ih =>
    obtain ⟨k', v'⟩ := c
    simp only [Memory.wfFrom, Bool.and_eq_true, decide_eq_true_eq] at h
    obtain ⟨⟨⟨-, hk'⟩, -⟩, ht⟩ := h
    have hne : k ≠ k' := by omega
    simp only [Memory.lookup, if_neg hne]
    exact ih (k' + 1) ht

/-- The 65536 addresses reach every key that a canonical memory can list. -/
theorem Memory.eq_of_read {m m' : Memory} (h : m.wf = true) (h' : m'.wf = true)
    (e : ∀ ad, Memory.read m ad = Memory.read m' ad) : m = m' := by
  refine Memory.eq_of_lookup m m' 0 h h' fun k => ?_
  rcases Nat.lt_or_ge k 65536 with hk | hk
  · have hread := e (BitVec.ofNat 16 k)
    simpa only [Memory.read, BitVec.toNat_ofNat, Nat.mod_eq_of_lt hk] using hread
  · exact (Memory.lookup_above m 0 k h hk).trans (Memory.lookup_above m' 0 k h' hk).symm

/-- Both sides read the same at every address, so they are equal data. -/
theorem Memory.write_read_self (m : Memory) (ad : Addr) (h : m.wf = true) :
    Memory.write m ad (Memory.read m ad) = m := by
  refine Memory.eq_of_read (Memory.write_wf m ad _ h) h fun ad' => ?_
  rw [Memory.read_write m ad ad' _ h]
  split
  next heq => rw [heq]
  next => rfl

/-- Settles O56: reads determine a canonical memory, and the laws of `write` are read off through them. -/
theorem memoriesThatAgreeAreEqual : Obligations.MemoriesThatAgreeAreEqual :=
  ⟨fun _ _ h h' e => Memory.eq_of_read h h' e,
    fun m ad ad' v h => ⟨Memory.write_wf m ad v h, Memory.read_write m ad ad' v h⟩,
    Memory.write_read_self,
    Memory.read_nil⟩

end Sys2Proof.Machine

/-! PROOFS. The encoder and the decoder are inverse to each other, and the three classes of opcode (30_encoding.md R96 to
R107). -/

namespace Sys2Proof.Laws.EncodeDefined

/-- The constructors' statements together. -/
theorem statement (i : Instr) : Statement i := by
  cases i
  exacts [lda _, ldx _, ldy _, sta _, stx _, sty _, tax, tay, txa, tya, tsx, txs, ora _, and _, eor _, adc _, sbc _, cmp _,
    cpx _, cpy _, bit _, inc _, dec _, inx, iny, dex, dey, asl _, lsr _, rol _, ror _, bpl, bmi, bvc, bvs, bcc, bcs, bne,
    beq, jmpAbs, jmpInd, jsr, rts, brk, rti, pha, php, pla, plp, clc, sec, cli, sei, clv, cld, sed, nop, lax _, sax _,
    slo _, rla _, sre _, rra _, dcp _, isb _, nopImplied _, nopImm _, nopZp _, nopZpX _, nopAbs, nopAbsX _, sbcDup, jam _,
    anc _, alr, arr, xaa, lxa, axs, sha _, tas, shy, shx, las]

end Sys2Proof.Laws.EncodeDefined

namespace Sys2Proof

theorem wellFormed_iff_encodeOpcode (i : Instr) : i.wellFormed = true ↔ ∃ op, encodeOpcode i = some op :=
  (Laws.EncodeDefined.statement i).1

theorem decodeOpcode_of_encodeOpcode {i : Instr} {op : Byte} (h : encodeOpcode i = some op) : decodeOpcode op = i :=
  (Laws.EncodeDefined.statement i).2 op h

/-! The fields of an opcode byte, `aaabbbcc` (R91). -/

theorem groupA_lt (op : Byte) : groupA op < 8 := Nat.lt_succ_of_le Nat.and_le_right

theorem groupB_lt (op : Byte) : groupB op < 8 := Nat.lt_succ_of_le Nat.and_le_right

theorem groupC_lt (op : Byte) : groupC op < 4 := Nat.lt_succ_of_le Nat.and_le_right

theorem opcodeOf_groups (op : Byte) : opcodeOf (groupA op) (groupB op) (groupC op) = op := by
  have hmod8 (n : Nat) : n &&& 7 = n % 8 := Nat.and_two_pow_sub_one_eq_mod n 3
  have hmod4 : op.toNat &&& 3 = op.toNat % 4 := Nat.and_two_pow_sub_one_eq_mod _ 2
  apply BitVec.eq_of_toNat_eq
  simp only [opcodeOf, groupA, groupB, groupC, BitVec.toNat_ofNat, BitVec.toNat_and, BitVec.toNat_ushiftRight,
    Nat.shiftRight_eq_div_pow, Nat.reducePow, Nat.reduceMod, hmod8, hmod4]
  have := op.isLt
  omega

/-- What holds of every entry of the four columns `group_c` (R97 to R100) holds of every opcode. -/
theorem decodeOpcode_of_columns {P : Byte → Instr → Prop} (h0 : ∀ a b : Fin 8, P (opcodeOf a b 0) (decodeControl a b))
    (h1 : ∀ a b : Fin 8, P (opcodeOf a b 1) (decodeAlu a b)) (h2 : ∀ a b : Fin 8, P (opcodeOf a b 2) (decodeShift a b))
    (h3 : ∀ a b : Fin 8, P (opcodeOf a b 3) (decodeUndoc a b)) (op : Byte) : P op (decodeOpcode op) := by
  let a : Fin 8 := ⟨groupA op, groupA_lt op⟩
  let b : Fin 8 := ⟨groupB op, groupB_lt op⟩
  suffices h : P (opcodeOf (groupA op) (groupB op) (groupC op)) (decodeOpcode op) by rwa [opcodeOf_groups] at h
  have hc := groupC_lt op
  unfold decodeOpcode
  interval_cases groupC op
  · exact h0 a b
  · exact h1 a b
  · exact h2 a b
  · exact h3 a b

theorem encodeOpcode_decodeOpcode : ∀ op : Byte, encodeOpcode (decodeOpcode op) = some op :=
  decodeOpcode_of_columns (P := fun op i => encodeOpcode i = some op) (by decide) (by decide) (by decide) (by decide)

theorem decodeOpcode_wellFormed (op : Byte) : (decodeOpcode op).wellFormed = true :=
  (wellFormed_iff_encodeOpcode _).mpr ⟨op, encodeOpcode_decodeOpcode op⟩

/-! Whole instructions: the opcode byte and its operand bytes (R90, R102). -/

theorem encode_of_opcode {i : Instr} {op : Byte} {operands : List Byte} (h : encodeOpcode i = some op)
    (hl : operands.length = i.operandCount) : encode i operands = some (op :: operands) := by
  simp only [encode, hl, if_true, h, Option.map_some]

theorem decode_cons (op : Byte) (tail : List Byte) (h : (decodeOpcode op).operandCount ≤ tail.length) :
    decode (op :: tail) = .ok ⟨decodeOpcode op, tail.take (decodeOpcode op).operandCount,
      tail.drop (decodeOpcode op).operandCount⟩ :=
  if_neg (Nat.not_lt.mpr h)

/-- The inversion of the decoder. -/
theorem decode_ok {bytes : List Byte} {d : Decoded} (h : decode bytes = .ok d) :
    ∃ op, bytes = op :: (d.operands ++ d.rest) ∧ d.instr = decodeOpcode op ∧ d.operands.length = d.instr.operandCount := by
  cases bytes with
  | nil => cases h
  | cons op tail =>
    rcases Nat.lt_or_ge tail.length (decodeOpcode op).operandCount with hlt | hge
    · simp [decode, hlt] at h
    · rw [decode_cons op tail hge] at h
      cases h
      exact ⟨op, by simp, rfl, by simp [hge]⟩

theorem operandCount_le_two (i : Instr) : i.operandCount ≤ 2 := by
  have hd (m : DataMode) : m.operandCount ≤ 2 := by cases m <;> decide
  have hr (m : ReadMode) : m.operandCount ≤ 2 := by
    cases m
    case imm => decide
    case mem m => exact hd m
  have hs (m : ShiftMode) : m.operandCount ≤ 2 := by
    cases m
    case acc => decide
    case mem m => exact hd m
  cases i <;> simp only [Instr.operandCount, hd, hr, hs, Nat.reduceLeDiff]

/-- Settles O2: the encoder's opcode decodes to the instruction, and the decoder takes as many operand bytes as the
encoder put after it. -/
theorem encodeThenDecode : Obligations.EncodeThenDecode := by
  intro i operands rest hw hl
  obtain ⟨op, he⟩ := (wellFormed_iff_encodeOpcode i).mp hw
  have hd := decodeOpcode_of_encodeOpcode he
  have hle : i.length ≤ 3 := Nat.add_le_add_left (operandCount_le_two i) 1
  refine ⟨op :: operands, encode_of_opcode he hl, ?_, Nat.le_add_right 1 _, hle, ?_⟩
  · rw [List.length_cons, hl, Nat.add_comm, Instr.length]
  · rw [List.cons_append, decode_cons] <;> simp [hd, ← hl]

/-- Settles O3: what decodes is an opcode byte, its operand bytes and the rest, and the opcode of a decoded instruction
is the byte it was decoded from. -/
theorem decodeThenEncode : Obligations.DecodeThenEncode := by
  refine ⟨fun bytes d h => ?_, fun op tail h => ⟨_, decode_cons op tail h, rfl⟩⟩
  obtain ⟨op, hb, hi, hl⟩ := decode_ok h
  have he : encodeOpcode d.instr = some op := hi ▸ encodeOpcode_decodeOpcode op
  exact ⟨hi ▸ decodeOpcode_wellFormed op, op :: d.operands, encode_of_opcode he hl, hb⟩

/-- Settles O1: each word by the tables. -/
theorem wordsDecode : Obligations.WordsDecode := by
  unfold Obligations.WordsDecode
  decide

/-- The class that R104 and R105 give an opcode by their lists. -/
def listedClass (op : Byte) : OpClass :=
  if op ∈ unimplementedOpcodes then .unimplemented else if op ∈ undocumentedOpcodes then .undocumented else .documented

theorem opClass_decodeOpcode : ∀ op : Byte, (decodeOpcode op).opClass = listedClass op :=
  decodeOpcode_of_columns (P := fun op i => i.opClass = listedClass op) (by decide) (by decide) (by decide) (by decide)

/-- Settles O4: the classes are those of the lists. The count of 256 opcodes is evaluated in the kernel, since it is
longer than the elaborator's recursion limit. -/
theorem opcodeClasses : Obligations.OpcodeClasses :=
  ⟨opClass_decodeOpcode, by decide +kernel, by decide, rfl, by decide, rfl⟩

end Sys2Proof

/-! PROOFS. An opcode that does not execute: cycle 1, then the fault (40_sequencer.md R137, R138; 47_undocumented.md
R391). -/

namespace Sys2Proof.Machine

/-- The two ways in which an opcode does not execute (30_encoding.md R104, R105). -/
theorem State.executes_eq_false_iff (s : State) (i : Instr) :
    s.executes i = false ↔ i.opClass = .unimplemented ∨ (i.opClass = .undocumented ∧ s.params.undocSupport = false) := by
  unfold State.executes
  cases i.opClass <;> simp

theorem dispatchTo_of_not_executes {s : State} {i : Instr} (h : s.executes i = false) (ir : Byte) :
    dispatchTo s.params.undocSupport i ir = .unimplemented ir := by
  rcases (s.executes_eq_false_iff i).mp h with hc | ⟨hc, hu⟩
  · simp only [dispatchTo, hc]
  · simp only [dispatchTo, hc, hu, Bool.false_eq_true, if_false]

theorem step_of_not_executes {s : State} (hb : s.atBoundary = true) (h : s.executes (decodeOpcode s.fetchByte) = false) :
    step s = .fault (.unimplementedOpcode s.fetchByte) := by
  obtain ⟨-, hn, -, -⟩ := (State.atBoundary_iff s).mp hb
  simp only [step, hn]
  exact exec_of_not_executes _ s h

/-- The state after cycle 1, with the continuation `m` (R135). -/
def State.afterFetch (s : State) (m : MicroOp) : State :=
  { s with
    cpu := { s.cpu with
      regs := { s.cpu.regs with pc := s.cpu.regs.pc + 1#16 }
      ir := s.fetchByte
      pd := s.cpu.dataBus
      addrBus := s.cpu.regs.pc + 1#16
      dataBus := s.fetchByte
      tcu := 1#8
      cyc := s.cpu.cyc + 1#64
      nextMicroOp := m } }

theorem pulse_at_boundary {s : State} (hb : s.atBoundary = true) :
    s.pulse = .next (s.afterFetch (dispatchTo s.params.undocSupport (decodeOpcode s.fetchByte) s.fetchByte)) := by
  obtain ⟨⟨regs, ir, pd, ab, db, ri, tcu, cyc, nx, jl⟩, mem, pr⟩ := s
  obtain ⟨rfl, rfl, rfl, rfl⟩ : tcu = 0#8 ∧ nx = .fetchOpcode ∧ ri = true ∧ ab = regs.pc :=
    (State.atBoundary_iff _).mp hb
  rfl

theorem pulse_of_unimplemented {s : State} {op : Byte} (h : s.cpu.nextMicroOp = .unimplemented op) :
    s.pulse = .fault (.unimplementedOpcode op) := by
  simp only [State.pulse, pulseOn, h, State.lift]

/-- The host may not write a field of the core in the middle of an instruction (R145). -/
theorem poke_off_boundary {s : State} (h : s.atBoundary = false) (k : Poke) (u : State) : hostStep (.poke k) s ≠ .next u := by
  simp only [hostStep, State.poke, h]
  cases s.cpu.poke k <;> nofun

theorem resetAction_atBoundary (s : State) : s.resetAction.atBoundary = true :=
  (State.atBoundary_iff _).mpr ⟨rfl, rfl, rfl, rfl⟩

/-- Settles O20: the decoder's rows, and the fault by the three ways to run the opcode. -/
theorem unimplementedOpcodesFault : Obligations.UnimplementedOpcodesFault := by
  refine ⟨?_, fun i s hc => ?_, fun s hb hc => ?_⟩
  · unfold Encodes
    decide
  · exact exec_of_not_executes i s ((s.executes_eq_false_iff i).mpr (.inl hc))
  · have hx := (s.executes_eq_false_iff _).mpr hc
    have hp := pulse_at_boundary hb
    rw [dispatchTo_of_not_executes hx] at hp
    exact ⟨step_of_not_executes hb hx, _, hp, rfl, rfl, BitVec.add_sub_cancel _ _, rfl, pulse_of_unimplemented rfl,
      poke_off_boundary rfl, resetAction_atBoundary _⟩

end Sys2Proof.Machine

/-! PROOFS. The sequencer (40_sequencer.md): the pulse (R130, R141), the faulting state (R137, R138), the host's pokes
(R145), and the length and `pc` of an instruction (R131, R142, R143). -/

namespace Sys2Proof.Machine

/-! The pulse and the step. -/

theorem Cpu.runs_of_ne_unimplemented {c : Cpu} (h : ∀ op, c.nextMicroOp ≠ .unimplemented op) : c.runs = true := by
  unfold Cpu.runs
  split
  case h_1 op e => exact absurd e (h op)
  case h_2 => rfl

theorem pulseOn_of_unimplemented {σ : Type} (M : MemAgent σ) (params : Params) {c : Cpu} (m : σ) {op : Byte}
    (h : c.nextMicroOp = .unimplemented op) : pulseOn M params (c, m) = .fault (.unimplementedOpcode op) := by
  simp only [pulseOn, h]

/-- Settles O14: a pulse that does not fault is a bus cycle, whose transaction `read_intent` names. -/
theorem pulseIsOneBusCycle : Obligations.PulseIsOneBusCycle := by
  intro σ M params c m
  refine ⟨fun h => ?_, fun op h => pulseOn_of_unimplemented M params m h⟩
  rw [pulseOn_of_runs M params c m (Cpu.runs_of_ne_unimplemented h)]
  unfold busCycle transact
  rw [Cpu.tick_readIntent]
  split <;> rfl

theorem step_at_boundary {s : State} (h : s.atBoundary = true) : step s = exec (decodeOpcode s.fetchByte) s := by
  obtain ⟨-, hn, -, -⟩ := (State.atBoundary_iff s).mp h
  simp only [step, hn]

/-- Settles O5: the byte fetched at a boundary is the first of the bytes decoded. -/
theorem stepRunsDecoded : Obligations.StepRunsDecoded := by
  refine ⟨fun s d h hd => ?_, step_of_not_fetch⟩
  obtain ⟨op, hbytes, hinstr, -⟩ := decode_ok hd
  obtain ⟨hop, -⟩ := List.cons.inj hbytes
  rw [step_at_boundary h, s.fetchByte_of_atBoundary h, hop, hinstr]

/-! The faulting state. -/

/-- Settles O18: the pulse at a boundary goes to the dispatch, which here is `Unimplemented`. -/
theorem faultStateIsEntered : Obligations.FaultStateIsEntered := by
  intro s hb hc
  have hx := (s.executes_eq_false_iff _).mpr hc
  rw [pulse_at_boundary hb, dispatchTo_of_not_executes hx]
  rfl

/-- A step from the faulting state ends at its first pulse. -/
theorem step_of_unimplemented {s : State} {op : Byte} (h : s.cpu.nextMicroOp = .unimplemented op) :
    step s = .fault (.unimplementedOpcode op) := by
  have hf : s.cpu.nextMicroOp ≠ .fetchOpcode := by rw [h]; nofun
  rw [step_of_not_fetch s hf]
  simp only [runOn, Cpu.atFetch, beq_iff_eq, if_neg hf, pulseOn_of_unimplemented ramAgent s.params s.mem h, State.lift]

theorem not_atBoundary_of_ne_fetch {s : State} (h : s.cpu.nextMicroOp ≠ .fetchOpcode) : s.atBoundary = false :=
  Bool.eq_false_iff.mpr fun hb => have ⟨_, hn, _, _⟩ := (State.atBoundary_iff s).mp hb; h hn

/-- Settles O19: the pulse and the step fault, the state is no boundary, and reset goes to the opcode fetch. -/
theorem faultIsQuiescent : Obligations.FaultIsQuiescent := by
  refine ⟨fun σ M params c m op h => ⟨pulseOn_of_unimplemented M params m h, rfl⟩, fun s op h => ?_⟩
  have hb : s.atBoundary = false := not_atBoundary_of_ne_fetch (by rw [h]; nofun)
  exact ⟨pulse_of_unimplemented h, step_of_unimplemented h, poke_off_boundary hb⟩

/-! The host's pokes. -/

theorem poke_at_boundary {s : State} (h : s.atBoundary = true) {k : Poke} {c : Cpu} (hc : s.cpu.poke k = some c) :
    hostStep (.poke k) s = .next { s with cpu := c } := by
  simp only [hostStep, State.poke, hc, h, if_true]

theorem poke_refused_off_boundary {s : State} (h : s.atBoundary = false) {k : Poke} {c : Cpu}
    (hc : s.cpu.poke k = some c) : hostStep (.poke k) s = .refused .pokeOffBoundary := by
  simp only [hostStep, State.poke, hc, h, Bool.false_eq_true, if_false]

theorem poke_refused_of_none {s : State} {k : Poke} (hc : s.cpu.poke k = none) :
    hostStep (.poke k) s = .refused .pokeOfInternalField := by
  simp only [hostStep, State.poke, hc]

/-- The inversion of a poke. -/
theorem poke_next {s t : State} {k : Poke} (e : hostStep (.poke k) s = .next t) :
    s.atBoundary = true ∧ ∃ c, s.cpu.poke k = some c ∧ t = { s with cpu := c } := by
  cases hc : s.cpu.poke k with
  | none =>
    rw [poke_refused_of_none hc] at e
    cases e
  | some c =>
    cases hb : s.atBoundary
    · rw [poke_refused_off_boundary hb hc] at e
      cases e
    · rw [poke_at_boundary hb hc] at e
      cases e
      exact ⟨rfl, c, rfl, rfl⟩

theorem Cpu.poke_isSome (c : Cpu) (k : Poke) : (c.poke k).isSome = k.admitted := by cases k <;> rfl

theorem State.atBoundary_iff_atRest (s : State) : s.atBoundary = true ↔ s.cpu.AtRest :=
  (State.atBoundary_iff s).trans ⟨fun ⟨ht, hn, hi, ha⟩ => ⟨ht, hn, hi, ha⟩, fun h => ⟨h.tcu, h.next, h.intent, h.addr⟩⟩

/-- An admitted poke keeps the core at rest: that of `pc` moves `addr_bus` with it (R145). -/
theorem Cpu.AtRest.poke {c c' : Cpu} (h : c.AtRest) {k : Poke} (hc : c.poke k = some c') : c'.AtRest := by
  obtain ⟨ht, hn, hi, ha⟩ := h
  cases k
  case pc v =>
    cases hc
    exact ⟨ht, hn, hi, rfl⟩
  case a | x | y | sp | p | cyc =>
    cases hc
    exact ⟨ht, hn, hi, ha⟩
  all_goals cases hc

/-- Settles O22: the seven admitted pokes one by one, the two refusals by the core's `poke`. -/
theorem pokesAreRefusedOffBoundary : Obligations.PokesAreRefusedOffBoundary := by
  refine ⟨fun s v h => poke_at_boundary h rfl, fun s v h => ?_, fun s v h => poke_at_boundary h rfl, fun s t k e => ?_,
    fun s k hk h => ?_, fun s k hk => ?_, fun s => ⟨rfl, rfl⟩⟩
  · exact ⟨poke_at_boundary h rfl, poke_at_boundary h rfl, poke_at_boundary h rfl, poke_at_boundary h rfl,
      poke_at_boundary h rfl⟩
  · obtain ⟨hb, c, hc, rfl⟩ := poke_next e
    exact ⟨hb, (State.atBoundary_iff_atRest _).mpr (((State.atBoundary_iff_atRest s).mp hb).poke hc)⟩
  · rw [← s.cpu.poke_isSome k] at hk
    obtain ⟨c, hc⟩ := Option.isSome_iff_exists.mp hk
    exact poke_refused_off_boundary h hc
  · rw [← s.cpu.poke_isSome k] at hk
    exact poke_refused_of_none (Option.isNone_iff_eq_none.mp (Option.isSome_eq_false_iff.mp hk))

/-! The program counter (R142). -/

section

variable (s : State)

theorem afterRead_pc (op : ReadOp) (m : ReadMode) :
    (s.afterRead op m).regs.pc = s.cpu.regs.pc + BitVec.ofNat 16 (1 + m.operandCount) := readExec_pc _ op _

theorem afterRmw_pc (op : RmwOp) (m : DataMode) :
    (s.afterRmw op m).regs.pc = s.cpu.regs.pc + BitVec.ofNat 16 (1 + m.operandCount) := rmwExec_pc _ op _

theorem afterImplied_pc (op : ImpliedOp) : (s.afterImplied op).regs.pc = s.cpu.regs.pc + 1#16 := impliedExec_pc _ op

theorem afterShift_pc (acc : ImpliedOp) (op : RmwOp) (m : ShiftMode) :
    (s.afterShift acc op m).regs.pc = s.cpu.regs.pc + BitVec.ofNat 16 (1 + m.operandCount) := by
  cases m
  case acc => exact afterImplied_pc s acc
  case mem m => exact afterRmw_pc s op m

theorem afterPull_pc (op : PullOp) : (s.afterPull op).regs.pc = s.cpu.regs.pc + 1#16 := pullExec_pc _ op _

/-- An instruction that executes and transfers no control moves `pc` past its own bytes. -/
theorem after_pc {i : Instr} (hx : s.executes i = true) (hc : i.transfersControl = false) :
    (s.after i).regs.pc = s.cpu.regs.pc + BitVec.ofNat 16 i.length := by
  cases i
  case jmpAbs | jmpInd | jsr | rts | rti | brk | bpl | bmi | bvc | bvs | bcc | bcs | bne | beq => cases hc
  case jam | anc | alr | arr | xaa | lxa | axs | sha | tas | shy | shx | las => cases hx
  case lda | ldx | ldy | lax | ora | and | eor | adc | sbc | sbcDup | cmp | cpx | cpy | bit | nopImm | nopZp | nopZpX |
      nopAbs | nopAbsX => exact afterRead_pc s _ _
  case sta | stx | sty | sax => rfl
  case inc | dec | slo | rla | sre | rra | dcp | isb => exact afterRmw_pc s _ _
  case asl | lsr | rol | ror => exact afterShift_pc s _ _ _
  case tax | tay | txa | tya | tsx | txs | inx | iny | dex | dey | clc | sec | cli | sei | clv | cld | sed | nop |
      nopImplied => exact afterImplied_pc s _
  case pha | php => rfl
  case pla | plp => exact afterPull_pc s _

end

/-- Settles O52, from the table of end states. -/
theorem pcAdvancesByTheLength : Obligations.PcAdvancesByTheLength := by
  intro i s t h hc e
  obtain ⟨hx, hends⟩ := ends_of_exec_next h e
  rw [hends.regs, after_pc s hx hc]

/-! The cycle count (R131, R143). -/

section

variable (s : State)

theorem shiftTrace_length (acc : ImpliedOp) (op : RmwOp) (m : ShiftMode) :
    (s.shiftTrace op m).length = (s.afterShift acc op m).cycles := by
  cases m
  case acc => rfl
  case mem m => exact rmwTrace_length s m _

/-- Each pulse of an instruction shows one transaction (R141). -/
theorem shown_length (i : Instr) : (s.shown i).length = (s.after i).cycles := by
  cases i
  case lda | ldx | ldy | ora | and | eor | adc | sbc | cmp | cpx | cpy => exact readTrace_length s _
  case lax m | bit m => exact readTrace_length s (.mem m)
  case nopZp => exact readTrace_length s (.mem .zp)
  case nopZpX => exact readTrace_length s (.mem .zpX)
  case nopAbs => exact readTrace_length s (.mem .abs)
  case nopAbsX => exact readTrace_length s (.mem .absX)
  case sta | stx | sty | sax => exact writeTrace_length s _ _
  case inc | dec | slo | rla | sre | rra | dcp | isb => exact rmwTrace_length s _ _
  case asl | lsr | rol | ror => exact shiftTrace_length s _ _ _
  case bpl | bmi | bvc | bvs | bcc | bcs | bne | beq => exact branchTrace_length s _
  all_goals rfl

theorem crossPenalty_le_one (m : DataMode) : s.crossPenalty m ≤ 1 := by
  unfold State.crossPenalty
  split <;> decide

theorem afterRead_cycles_bounds (op : ReadOp) (m : ReadMode) :
    2 ≤ (s.afterRead op m).cycles ∧ (s.afterRead op m).cycles ≤ 7 := by
  simp only [State.afterRead]
  cases m
  case imm => exact ⟨Nat.le_refl 2, Nat.le_of_ble_eq_true rfl⟩
  case mem m =>
    have hcross := crossPenalty_le_one s m
    cases m <;> simp only [State.readCycles] <;> omega

theorem branchCycles_bounds (op : BranchOp) : 2 ≤ s.branchCycles op ∧ s.branchCycles op ≤ 7 := by
  unfold State.branchCycles
  split
  · split <;> decide
  · decide

end

theorem writeCycles_bounds (m : DataMode) : 2 ≤ writeCycles m ∧ writeCycles m ≤ 7 := by cases m <;> decide

theorem rmwCycles_bounds (m : DataMode) : 2 ≤ rmwCycles m ∧ rmwCycles m ≤ 8 := by cases m <;> decide

/-- Only an indirect mode takes the eighth cycle, and no documented read-modify-write has one (30_encoding.md R98). -/
theorem rmwCycles_bounds_of_isShiftMem {m : DataMode} (h : m.isShiftMem = true) :
    2 ≤ rmwCycles m ∧ rmwCycles m ≤ 7 := by
  cases m
  case indX | indY => cases h
  all_goals decide

/-- The most cycles of an instruction of this class (90_conflicts.md C7). -/
def mostCycles : OpClass → Nat
  | .documented => 7
  | .undocumented | .unimplemented => 8

theorem after_cycles_bounds (s : State) {i : Instr} (hw : i.wellFormed = true) (hx : s.executes i = true) :
    2 ≤ (s.after i).cycles ∧ (s.after i).cycles ≤ mostCycles i.opClass := by
  have hseven {n : Nat} (h : 2 ≤ n ∧ n ≤ 7) : 2 ≤ n ∧ n ≤ mostCycles i.opClass :=
    ⟨h.1, h.2.trans (by cases i.opClass <;> decide)⟩
  cases i
  case jam | anc | alr | arr | xaa | lxa | axs | sha | tas | shy | shx | las => cases hx
  case lda | ldx | ldy | lax | ora | and | eor | adc | sbc | sbcDup | cmp | cpx | cpy | bit | nopImm | nopZp | nopZpX |
      nopAbs | nopAbsX => exact hseven (afterRead_cycles_bounds s _ _)
  case sta | stx | sty | sax => exact hseven (writeCycles_bounds _)
  case bpl | bmi | bvc | bvs | bcc | bcs | bne | beq => exact hseven (branchCycles_bounds s _)
  case inc | dec => exact rmwCycles_bounds_of_isShiftMem hw
  case asl m | lsr m | rol m | ror m =>
    cases m
    case acc => exact ⟨Nat.le_refl 2, Nat.le_of_ble_eq_true rfl⟩
    case mem => exact rmwCycles_bounds_of_isShiftMem hw
  case slo | rla | sre | rra | dcp | isb => exact rmwCycles_bounds _
  all_goals exact hseven ⟨Nat.le_of_ble_eq_true rfl, Nat.le_of_ble_eq_true rfl⟩

/-- Settles O51: an opcode that executes ends and shows what the tables say, any other faults. -/
theorem stepTakesTwoToEightCycles : Obligations.StepTakesTwoToEightCycles := by
  intro s hb
  cases hx : s.executes (decodeOpcode s.fetchByte)
  · exact .inr ⟨step_of_not_executes hb hx, (s.executes_eq_false_iff _).mp hx⟩
  · obtain ⟨t, e, hends⟩ := exec_ends _ s hb hx
    have hlen : s.busTrace.length = (s.after (decodeOpcode s.fetchByte)).cycles := by
      rw [busTrace_shown _ s hb rfl hx, shown_length]
    obtain ⟨hlo, hhi⟩ := after_cycles_bounds s (decodeOpcode_wellFormed s.fetchByte) hx
    rw [← hlen] at hlo hhi
    refine .inl ⟨t, (step_at_boundary hb).trans e, hlen ▸ hends.cyc, hlo, hhi.trans ?_, fun hdoc => ?_⟩
    · cases (decodeOpcode s.fetchByte).opClass <;> decide
    · rwa [hdoc] at hhi

end Sys2Proof.Machine

/-! PROOFS. Addressing: when an index crosses a page (41_addressing.md R161), and the bus traces of the modes (R160,
R182, R183). -/

namespace Sys2Proof.Machine

/-- The index moves the page exactly when the low byte of the 16-bit sum carries, wrap at `$FFFF` included. -/
theorem hiByte_add_zext16_ne_iff (base : Addr) (i : Byte) :
    hiByte (base + zext16 i) ≠ hiByte base ↔ 256 ≤ (loByte base).toNat + i.toNat := by
  have hb := base.isLt
  have hi := i.isLt
  rw [ne_eq, ← BitVec.toNat_inj, hiByte_toNat, hiByte_toNat, loByte_toNat, BitVec.toNat_add, zext16_toNat]
  omega

/-- Settles O23: both forms say that the sum of the low bytes is no byte. -/
theorem pageCrossingIsACarry : Obligations.PageCrossingIsACarry := by
  intro base i
  have hcarry : pageCrossed base i = decide (256 ≤ (loByte base).toNat + i.toNat) := carriesOut_iff _ i
  refine ⟨hcarry, ?_, fun _ => rfl⟩
  rw [hcarry, decide_eq_true_iff, hiByte_add_zext16_ne_iff]

/-! The bus traces. -/

/-- An opcode of the first two classes executes, the undocumented ones under UNDOC_SUPPORT (30_encoding.md R103 to R105). -/
theorem State.executes_of_supported {s : State} {i : Instr} (hc : i.opClass ≠ .unimplemented)
    (hu : i.opClass = .undocumented → s.params.undocSupport = true) : s.executes i = true := by
  refine (Bool.eq_false_or_eq_true _).resolve_right fun hx => ?_
  rcases (s.executes_eq_false_iff i).mp hx with h | ⟨h, hfalse⟩
  · exact hc h
  · exact Bool.false_ne_true (hfalse.symm.trans (hu h))

/-- What a modify instruction leaves in its operand's place (42_alu_flags.md R223). -/
def State.modified (s : State) (v : Byte) : RmwOp → Byte
  | .inc | .isb => v + 1#8
  | .dec | .dcp => v - 1#8
  | .asl | .slo => v <<< 1
  | .lsr | .sre => v >>> 1
  | .rol | .rla => v <<< 1 ||| BitVec.ofNat 8 s.carryIn
  | .ror | .rra => v >>> 1 ||| BitVec.ofNat 8 s.carryIn <<< 7

theorem State.rmwExec_modified (s : State) (op : RmwOp) (v : Byte) : (rmwExec op v s.cpu.regs).1 = s.modified v op := by
  cases op
  case rol | ror | rla | rra => simp only [rmwExec, Regs.rol, Regs.ror, State.modified, State.carryIn, Regs.carryByte_eq]
  all_goals rfl

/-- Settles O55: each row of a kind is the table of traces at its instruction. -/
theorem busTracesOfTheModes : Obligations.BusTracesOfTheModes := by
  intro s i h hd hu v c
  have row {trace : List BusCycle} {n : Nat} (hc : i.opClass ≠ .unimplemented) (ht : s.shown i = trace)
      (hn : trace.length = n) : s.busTrace = trace ∧ s.busTrace.length = n := by
    have hbus := (busTrace_shown i s h hd (State.executes_of_supported hc hu)).trans ht
    exact ⟨hbus, hbus ▸ hn⟩
  refine ⟨?_, fun m => ?_, fun m hi => ?_, fun m stored hi => ?_, fun m result hi => ?_⟩
  · rintro (hi | ⟨k, rfl⟩)
    · fin_cases hi <;> exact row nofun rfl rfl
    · exact row nofun rfl rfl
  · have hn := readTrace_length s m
    rintro (hi | ⟨rfl, rfl | ⟨k, rfl⟩⟩ | ⟨rfl, k, rfl⟩ | ⟨rfl, k, rfl⟩ | ⟨rfl, rfl⟩ | ⟨rfl, k, rfl⟩)
    · fin_cases hi <;> exact row nofun rfl hn
    all_goals exact row nofun rfl hn
  · fin_cases hi <;> exact row nofun rfl (readTrace_length s _)
  · fin_cases hi <;> exact row nofun rfl (writeTrace_length s m _)
  · fin_cases hi <;> exact row nofun (congrArg (s.rmwTrace m) (s.rmwExec_modified _ _)) (rmwTrace_length s m _)

end Sys2Proof.Machine

/-! PROOFS. Addition and comparison (42_alu_flags.md R210, R213, R214; R273, R275 to R277): what a read instruction
performs, the signed overflow of a sum, and that D is no input of `adc` and `sbc`. -/

namespace Sys2Proof.Machine

/-! From the table of end states to the effect and the trace of an instruction. -/

section

variable {s : State} {i : Instr}

/-- An opcode that executes performs the effect its end state has, and shows the table's trace. -/
theorem performs_of_ends (h : s.atBoundary = true) (hx : s.executes i = true) {e : Effect}
    (hr : ∀ t, Ends s t (s.after i).regs (s.after i).mem (s.after i).jsrLo (s.after i).cycles → Reaches s t e) :
    Performs s i e (s.shown i) := by
  obtain ⟨t, hnext, hends⟩ := exec_ends i s h hx
  exact ⟨⟨t, hnext, hr t hends⟩, fun hd => busTrace_shown i s h hd hx⟩

/-- A read instruction writes the registers and flags of its row of `read_exec` (42_alu_flags.md R222), and nothing
else. -/
theorem performs_read {op : ReadOp} {m : ReadMode} {l : List (Nat × Bool)} (h : s.atBoundary = true)
    (hx : s.executes i = true) (hafter : s.after i = s.afterRead op m) (hshown : s.shown i = s.readTrace m)
    (hl : SetsFlags s.cpu.regs (readExec op (s.operandByte m) s.cpu.regs) l) :
    Performs s i
      { s.noEffect (1 + m.operandCount) (s.readCycles m) with
        a := (readExec op (s.operandByte m) s.cpu.regs).a
        x := (readExec op (s.operandByte m) s.cpu.regs).x
        y := (readExec op (s.operandByte m) s.cpu.regs).y
        flags := l } (s.readTrace m) := by
  rw [← hshown]
  refine performs_of_ends h hx fun t hends => ?_
  rw [hafter] at hends
  simp only [State.afterRead, Regs.advance, readExec_setPc] at hends
  exact hends.reaches rfl rfl rfl rfl (readExec_sp _ op _) hl (fun _ => rfl) rfl rfl

end

/-! ADC. -/

/-- The exact signed sum is no signed byte when equal signs give the other sign (R210, R227). -/
theorem signed_sum_overflows_iff (a m : Byte) {c : Nat} (hc : c ≤ 1) :
    (a.toInt + m.toInt + c < -128 ∨ 127 < a.toInt + m.toInt + c) ↔
      a.msb = m.msb ∧ (BitVec.ofNat 8 (a.toNat + m.toNat + c)).msb ≠ a.msb := by
  have ha := a.isLt
  have hm := m.isLt
  simp only [BitVec.toInt_eq_toNat_cond, BitVec.msb_eq_decide, BitVec.toNat_ofNat, ne_eq, decide_eq_decide]
  omega

theorem Regs.adc_setsFlags (r : Regs) (m : Byte) :
    SetsFlags r (r.adc m) (adcFlags r.a m (r.p.getLsbD 0).toNat) := by
  have hv := signed_sum_overflows_iff r.a m (Bool.toNat_le (r.p.getLsbD 0))
  simp only [adcFlags, hv]
  simpa [bne, beq_eq_decide, Nat.lt_iff_add_one_le] using r.adc_sets m

theorem Flag.mask_getLsbD (f : Flag) {k : Nat} (hk : k < 8) : f.mask.getLsbD k = decide (k = f.bit) := by
  have hmask : f.mask = BitVec.twoPow 8 f.bit := by cases f <;> rfl
  simp [hmask, hk]

/-- Two updates that write the same flags keep a flipped flag flipped where they do not write it. -/
theorem SetsFlags.flip {r r' u u' : Regs} {l : List (Nat × Bool)} {f : Flag} (h : SetsFlags r r' l)
    (h' : SetsFlags u u' l) (hp : u.p = r.p ^^^ f.mask) (hl : l.lookup f.bit = none) : u'.p = r'.p ^^^ f.mask := by
  refine BitVec.eq_of_getLsbD_eq fun k hk => ?_
  rw [h' k hk, hp, BitVec.getLsbD_xor, BitVec.getLsbD_xor, h k hk, f.mask_getLsbD hk]
  by_cases hf : k = f.bit
  · rw [hf, hl]
    rfl
  · simp [hf]

/-- D is no input of `adc`: with D flipped the result and the flags are the same, and D stays flipped (R213). -/
theorem Regs.adc_flip_decimal (r : Regs) (m : Byte) :
    (Regs.adc { r with p := r.p ^^^ Flag.d.mask } m).a = (r.adc m).a ∧
      (Regs.adc { r with p := r.p ^^^ Flag.d.mask } m).p = (r.adc m).p ^^^ Flag.d.mask := by
  have hcarry : (r.p ^^^ Flag.d.mask).getLsbD 0 = r.p.getLsbD 0 := by
    rw [BitVec.getLsbD_xor, Flag.d.mask_getLsbD (by decide)]
    exact Bool.xor_false _
  constructor
  · rw [Regs.adc_a, Regs.adc_a, hcarry]
  · have h' := Regs.adc_setsFlags { r with p := r.p ^^^ Flag.d.mask } m
    rw [hcarry] at h'
    exact (r.adc_setsFlags m).flip h' rfl rfl

/-- Settles O28: the row of `read_exec`, the overflow of a signed sum, and that D is no input; `sbc(m)` is `adc(~m)`. -/
theorem addWithCarry : Obligations.AddWithCarry := by
  refine ⟨by unfold Encodes; decide, fun s m h => ?_, fun a m c hc => signed_sum_overflows_iff a m hc,
    fun r m => ?_⟩
  · have ha : (readExec .adc (s.operandByte m) s.cpu.regs).a = _ := s.cpu.regs.adc_a _
    have hperforms := performs_read (i := .adc m) (op := .adc) h rfl rfl rfl (s.cpu.regs.adc_setsFlags _)
    rwa [ha] at hperforms
  · obtain ⟨hadcA, hadcP⟩ := r.adc_flip_decimal m
    obtain ⟨hsbcA, hsbcP⟩ := r.adc_flip_decimal (~~~m)
    exact ⟨hadcA, hadcP, hsbcA, hsbcP⟩

/-! The comparisons. -/

/-- Settles O30: each comparison is a row of `read_exec` whose flags are those of `compare`. -/
theorem comparesWriteOnlyFlags : Obligations.ComparesWriteOnlyFlags := by
  refine ⟨by unfold Encodes; decide, fun s m h => ⟨?_, ?_, ?_⟩⟩
  · exact performs_read (op := .cmp) h rfl rfl rfl (Regs.compare_sets _ _ _)
  · exact performs_read (op := .cpx) h rfl rfl rfl (Regs.compare_sets _ _ _)
  · exact performs_read (op := .cpy) h rfl rfl rfl (Regs.compare_sets _ _ _)

end Sys2Proof.Machine

/-! PROOFS. Loads, stores and transfers (43_load_store_transfer.md R240 to R251): what a store and an implied instruction
perform, beside `performs_read`. -/

namespace Sys2Proof.Machine

section

variable {s : State} {i : Instr}

/-- A store writes its row of `store_value` (42_alu_flags.md R224) at the effective address, and nothing else. -/
theorem performs_write {op : WriteOp} {m : DataMode} (h : s.atBoundary = true) (hw : Memory.wf s.mem = true)
    (hx : s.executes i = true) (hafter : s.after i = s.afterWrite op m)
    (hshown : s.shown i = s.writeTrace m (storeValue op s.cpu.regs)) :
    Performs s i
      { s.noEffect (1 + m.operandCount) (writeCycles m) with
        stores := [(s.effectiveAddress m, storeValue op s.cpu.regs)] } (s.writeTrace m (storeValue op s.cpu.regs)) := by
  rw [← hshown]
  refine performs_of_ends h hx fun t hends => ?_
  rw [hafter] at hends
  exact hends.reaches rfl rfl rfl rfl rfl (setsFlags_nil _) (read_after_store s hw _ _) rfl rfl

/-- An implied instruction writes the registers and flags of its row of `implied_exec` (42_alu_flags.md R225), and nothing
else. -/
theorem performs_implied {op : ImpliedOp} {l : List (Nat × Bool)} (h : s.atBoundary = true) (hx : s.executes i = true)
    (hafter : s.after i = s.afterImplied op) (hshown : s.shown i = s.shortTrace)
    (hl : SetsFlags s.cpu.regs (impliedExec op s.cpu.regs) l) :
    Performs s i
      { s.noEffect 1 2 with
        a := (impliedExec op s.cpu.regs).a
        x := (impliedExec op s.cpu.regs).x
        y := (impliedExec op s.cpu.regs).y
        sp := (impliedExec op s.cpu.regs).sp
        flags := l } s.shortTrace := by
  rw [← hshown]
  refine performs_of_ends h hx fun t hends => ?_
  rw [hafter] at hends
  simp only [State.afterImplied, Regs.advance, impliedExec_setPc] at hends
  exact hends.reaches rfl rfl rfl rfl rfl hl (fun _ => rfl) rfl rfl

end

/-- Settles O24: each load is a row of `read_exec` whose flags are those of `update_nz` of the operand. -/
theorem loadsReadTheOperand : Obligations.LoadsReadTheOperand := by
  refine ⟨by unfold Encodes; decide, fun s m h => ⟨?_, ?_, ?_⟩⟩
  · exact performs_read (op := .lda) h rfl rfl rfl (Regs.updateNz_sets _ _)
  · exact performs_read (op := .ldx) h rfl rfl rfl (Regs.updateNz_sets _ _)
  · exact performs_read (op := .ldy) h rfl rfl rfl (Regs.updateNz_sets _ _)

/-- Settles O25: each store is a row of `store_value`. -/
theorem storesWriteTheRegister : Obligations.StoresWriteTheRegister := by
  refine ⟨by unfold Encodes; decide, fun s m h hw => ⟨?_, ?_, ?_⟩⟩
  · exact performs_write (op := .sta) h hw rfl rfl rfl
  · exact performs_write (op := .stx) h hw rfl rfl rfl
  · exact performs_write (op := .sty) h hw rfl rfl rfl

/-- Settles O26: each transfer is a row of `implied_exec`; TXS alone has no `update_nz` in its row. -/
theorem transfersCopyTheRegister : Obligations.TransfersCopyTheRegister := by
  refine ⟨by unfold Encodes; decide, fun s h => ⟨?_, ?_, ?_, ?_, ?_, ?_⟩⟩
  · exact performs_implied (op := .tax) h rfl rfl rfl (Regs.updateNz_sets _ _)
  · exact performs_implied (op := .tay) h rfl rfl rfl (Regs.updateNz_sets _ _)
  · exact performs_implied (op := .txa) h rfl rfl rfl (Regs.updateNz_sets _ _)
  · exact performs_implied (op := .tya) h rfl rfl rfl (Regs.updateNz_sets _ _)
  · exact performs_implied (op := .tsx) h rfl rfl rfl (Regs.updateNz_sets _ _)
  · exact performs_implied (op := .txs) h rfl rfl rfl (setsFlags_nil _)

end Sys2Proof.Machine

/-! PROOFS. Logic, subtraction, the bit test, increments, shifts and rotates (42_alu_flags.md R211, R215 to R221; R270 to
R274, R278 to R288, R390): beside `performs_read` and `performs_implied`, what a read-modify-write performs. -/

namespace Sys2Proof.Machine

section

variable {s : State} {i : Instr}

/-- A read-modify-write leaves its row of `rmw_exec` (42_alu_flags.md R223) at the effective address and in the flags, and
changes nothing else but `a`, which the combined undocumented operations write. -/
theorem performs_rmw {op : RmwOp} {m : DataMode} {l : List (Nat × Bool)} (h : s.atBoundary = true)
    (hw : Memory.wf s.mem = true) (hx : s.executes i = true) (hafter : s.after i = s.afterRmw op m)
    (hshown : s.shown i = s.rmwTrace m (rmwExec op (s.operandByte (.mem m)) s.cpu.regs).1)
    (hl : SetsFlags s.cpu.regs (rmwExec op (s.operandByte (.mem m)) s.cpu.regs).2 l) :
    Performs s i
      { s.noEffect (1 + m.operandCount) (rmwCycles m) with
        a := (rmwExec op (s.operandByte (.mem m)) s.cpu.regs).2.a
        flags := l
        stores := [(s.effectiveAddress m, s.modified (s.operandByte (.mem m)) op)] }
      (s.rmwTrace m (s.modified (s.operandByte (.mem m)) op)) := by
  rw [← s.rmwExec_modified, ← hshown]
  refine performs_of_ends h hx fun t hends => ?_
  rw [hafter] at hends
  simp only [State.afterRmw, Regs.advance, rmwExec_setPc] at hends
  exact hends.reaches rfl rfl (rmwExec_x _ op _) (rmwExec_y _ op _) (rmwExec_sp _ op _) hl
    (read_after_rmw s hw _ _ _) rfl rfl

end

/-! Logic and the bit test. -/

/-- Settles O27: each is a row of `read_exec` whose flags are those of `update_nz` of the result. -/
theorem logicWritesTheAccumulator : Obligations.LogicWritesTheAccumulator := by
  refine ⟨by unfold Encodes; decide, fun s m h => ⟨?_, ?_, ?_⟩⟩
  · exact performs_read (op := .ora) h rfl rfl rfl (Regs.updateNz_sets _ _)
  · exact performs_read (op := .and) h rfl rfl rfl (Regs.updateNz_sets _ _)
  · exact performs_read (op := .eor) h rfl rfl rfl (Regs.updateNz_sets _ _)

/-- Settles O31: a row of `read_exec` that writes flags alone. -/
theorem bitTestsTheOperand : Obligations.BitTestsTheOperand := by
  refine ⟨by unfold Encodes; decide, fun s m h => ?_⟩
  exact performs_read (op := .bit) (m := .mem m) h rfl rfl rfl (s.cpu.regs.bitTest_sets _)

/-! SBC: adding the complement is subtracting with borrow (R211). -/

theorem Byte.toInt_not (m : Byte) : (~~~m).toInt = -m.toInt - 1 := by
  have hm := m.isLt
  simp only [BitVec.toInt_eq_toNat_cond, BitVec.toNat_not]
  omega

theorem signed_sum_not (a m : Byte) (c : Nat) : a.toInt + (~~~m).toInt + c = a.toInt - m.toInt - (1 - c) := by
  rw [Byte.toInt_not]
  omega

theorem ofNat_sum_not (a m : Byte) (c : Nat) :
    BitVec.ofNat 8 (a.toNat + (~~~m).toNat + c) = BitVec.ofInt 8 (a.toInt - m.toInt - (1 - c)) := by
  rw [← signed_sum_not]
  simp only [BitVec.ofInt_add, BitVec.ofInt_toInt, BitVec.ofInt_natCast, BitVec.ofNat_add, BitVec.ofNat_toNat,
    BitVec.setWidth_eq]

/-- The sum with the complement carries out exactly when the difference needs no borrow. -/
theorem carry_sum_not_iff (a m : Byte) {c : Nat} (hc : c ≤ 1) :
    256 ≤ a.toNat + (~~~m).toNat + c ↔ m.toNat + (1 - c) ≤ a.toNat := by
  have hm := m.isLt
  rw [BitVec.toNat_not]
  omega

theorem adcFlags_not (a m : Byte) {c : Nat} (hc : c ≤ 1) : adcFlags a (~~~m) c = sbcFlags a m c := by
  simp only [adcFlags, sbcFlags, ofNat_sum_not, signed_sum_not, carry_sum_not_iff a m hc]

theorem Regs.sbc_setsFlags (r : Regs) (m : Byte) : SetsFlags r (r.sbc m) (sbcFlags r.a m (r.p.getLsbD 0).toNat) :=
  adcFlags_not r.a m (Bool.toNat_le _) ▸ r.adc_setsFlags (~~~m)

theorem Regs.sbc_a (r : Regs) (m : Byte) :
    (r.sbc m).a = BitVec.ofInt 8 (r.a.toInt - m.toInt - (1 - (r.p.getLsbD 0).toNat)) :=
  (r.adc_a (~~~m)).trans (ofNat_sum_not _ _ _)

/-- What SBC and its duplicate perform: the row of `read_exec` they share. -/
theorem performs_sbc {s : State} {i : Instr} {m : ReadMode} (h : s.atBoundary = true) (hx : s.executes i = true)
    (hafter : s.after i = s.afterRead .sbc m) (hshown : s.shown i = s.readTrace m) :
    Performs s i
      { s.noEffect (1 + m.operandCount) (s.readCycles m) with
        a := BitVec.ofInt 8 (s.cpu.regs.a.toInt - (s.operandByte m).toInt - (1 - s.carryIn))
        flags := sbcFlags s.cpu.regs.a (s.operandByte m) s.carryIn } (s.readTrace m) := by
  have ha : (readExec .sbc (s.operandByte m) s.cpu.regs).a = _ := s.cpu.regs.sbc_a _
  have hperforms := performs_read h hx hafter hshown (s.cpu.regs.sbc_setsFlags _)
  rwa [ha] at hperforms

/-- Settles O29: SBC and `$EB` are one row of `read_exec` and, where `$EB` executes, one chain. -/
theorem subtractWithBorrow : Obligations.SubtractWithBorrow := by
  refine ⟨by unfold Encodes; decide, fun s m h => performs_sbc h rfl rfl rfl, fun s h hu => ⟨?_, ?_⟩⟩
  · exact performs_sbc (m := .imm) h hu rfl rfl
  · rw [exec_of_executes .sbcDup s hu, exec_of_executes (.sbc .imm) s rfl]
    rfl

/-! Increments and decrements. -/

/-- Settles O32: each is a row of `rmw_exec` whose flags are those of `update_nz` of the result. -/
theorem incrementAndDecrementMemory : Obligations.IncrementAndDecrementMemory := by
  refine ⟨by unfold Encodes; decide, fun s m h hw => ⟨?_, ?_⟩⟩
  · exact performs_rmw (op := .inc) h hw rfl rfl rfl (Regs.updateNz_sets _ _)
  · exact performs_rmw (op := .dec) h hw rfl rfl rfl (Regs.updateNz_sets _ _)

/-- Settles O33: each is a row of `implied_exec` that loads the index register with its successor or predecessor. -/
theorem incrementAndDecrementIndex : Obligations.IncrementAndDecrementIndex := by
  refine ⟨by unfold Encodes; decide, fun s h => ⟨?_, ?_, ?_, ?_⟩⟩
  · exact performs_implied (op := .inx) h rfl rfl rfl (Regs.updateNz_sets _ _)
  · exact performs_implied (op := .iny) h rfl rfl rfl (Regs.updateNz_sets _ _)
  · exact performs_implied (op := .dex) h rfl rfl rfl (Regs.updateNz_sets _ _)
  · exact performs_implied (op := .dey) h rfl rfl rfl (Regs.updateNz_sets _ _)

/-! Shifts. -/

/-- Settles O34: the accumulator forms are rows of `implied_exec`, the memory forms rows of `rmw_exec`, with the flags of
one helper. -/
theorem shiftsLeftAndRight : Obligations.ShiftsLeftAndRight := by
  refine ⟨by unfold Encodes; decide, fun s h => ⟨?_, ?_⟩, fun s m h hw => ⟨?_, ?_⟩⟩
  · exact performs_implied (op := .asl) h rfl rfl rfl (s.cpu.regs.asl_sets _)
  · exact performs_implied (op := .lsr) h rfl rfl rfl (s.cpu.regs.lsr_sets _)
  · exact performs_rmw (op := .asl) h hw rfl rfl rfl (s.cpu.regs.asl_sets _)
  · exact performs_rmw (op := .lsr) h hw rfl rfl rfl (s.cpu.regs.lsr_sets _)

/-! Rotates. -/

theorem State.rol_modified (s : State) (v : Byte) : (s.cpu.regs.rol v).1 = s.modified v .rol := s.rmwExec_modified .rol v

theorem State.ror_modified (s : State) (v : Byte) : (s.cpu.regs.ror v).1 = s.modified v .ror := s.rmwExec_modified .ror v

theorem State.rol_sets (s : State) (v : Byte) :
    SetsFlags s.cpu.regs (s.cpu.regs.rol v).2 (nzFlags (s.modified v .rol) ++ [(0, v.getLsbD 7)]) :=
  s.rol_modified v ▸ s.cpu.regs.rol_sets v

theorem State.ror_sets (s : State) (v : Byte) :
    SetsFlags s.cpu.regs (s.cpu.regs.ror v).2 (nzFlags (s.modified v .ror) ++ [(0, v.getLsbD 0)]) :=
  s.ror_modified v ▸ s.cpu.regs.ror_sets v

theorem Regs.carryByte_getLsbD (r : Regs) (k : Nat) : r.carryByte.getLsbD k = (decide (k = 0) && r.getFlag .c) := by
  unfold Regs.carryByte
  split <;> simp [*]

theorem Regs.rol_carry (r : Regs) (v : Byte) : (r.rol v).2.getFlag .c = v.getLsbD 7 := by
  rw [getFlag_eq]
  exact r.rol_sets v 0 (by decide)

theorem Regs.rol_getLsbD_zero (r : Regs) (v : Byte) : (r.rol v).1.getLsbD 0 = r.getFlag .c := by
  rw [Regs.rol, BitVec.getLsbD_or, Regs.carryByte_getLsbD]
  simp

theorem Regs.rol_getLsbD_succ (r : Regs) (v : Byte) {k : Nat} (hk : k + 1 < 8) :
    (r.rol v).1.getLsbD (k + 1) = v.getLsbD k := by
  rw [Regs.rol, BitVec.getLsbD_or, BitVec.getLsbD_shiftLeft, Regs.carryByte_getLsbD]
  simp [hk]

/-- The nine bits that ROL rotates: C above the operand (R217, R287). -/
def carryRing (q : Byte × Regs) : BitVec 9 := BitVec.cons (q.2.getFlag .c) q.1

theorem carryRing_inj {q q' : Byte × Regs} (h : carryRing q = carryRing q') :
    q.1 = q'.1 ∧ q.2.getFlag .c = q'.2.getFlag .c :=
  ⟨by simpa [carryRing] using congrArg (BitVec.setWidth 8) h, by simpa [carryRing] using congrArg BitVec.msb h⟩

/-- One ROL moves every bit of the ring up by one place, C (place 8) to place 0. -/
theorem carryRing_rol (q : Byte × Regs) {k : Nat} (hk : k < 9) :
    (carryRing (q.2.rol q.1)).getLsbD ((k + 1) % 9) = (carryRing q).getLsbD k := by
  simp only [carryRing, BitVec.getLsbD_cons]
  obtain hk | rfl | rfl : k + 1 < 8 ∨ k = 7 ∨ k = 8 := by omega
  · rw [Nat.mod_eq_of_lt (by omega), if_neg (by omega), if_neg (by omega), Regs.rol_getLsbD_succ _ _ hk]
  · simpa using Regs.rol_carry q.2 q.1
  · simpa using Regs.rol_getLsbD_zero q.2 q.1

/-- `n` ROLs of a byte and its C. -/
def rolTimes (n : Nat) (q : Byte × Regs) : Byte × Regs := Nat.repeat (fun q : Byte × Regs => q.2.rol q.1) n q

theorem rolTimes_succ (n : Nat) (q : Byte × Regs) : rolTimes (n + 1) q = (rolTimes n q).2.rol (rolTimes n q).1 := rfl

theorem carryRing_rolTimes (q : Byte × Regs) {k : Nat} (hk : k < 9) (n : Nat) :
    (carryRing (rolTimes n q)).getLsbD ((k + n) % 9) = (carryRing q).getLsbD k := by
  induction n with
  | zero => rw [Nat.add_zero, Nat.mod_eq_of_lt hk, rolTimes, Nat.repeat]
  | succ n ih =>
    rw [rolTimes_succ, ← Nat.add_assoc, ← Nat.mod_add_mod, carryRing_rol _ (Nat.mod_lt _ (by decide)), ih]

theorem carryRing_rolTimes_nine (q : Byte × Regs) : carryRing (rolTimes 9 q) = carryRing q := by
  refine BitVec.eq_of_getLsbD_eq fun k hk => ?_
  have h := carryRing_rolTimes q hk 9
  rwa [Nat.add_mod_right, Nat.mod_eq_of_lt hk] at h

/-- Settles O35: as for the shifts, with the old C in the result; nine ROLs bring each of the nine
bits of `carryRing` back to its place. -/
theorem rotatesThroughCarry : Obligations.RotatesThroughCarry := by
  refine ⟨by unfold Encodes; decide, fun s h => ⟨?_, ?_⟩, fun s m h hw => ⟨?_, ?_⟩, fun v r => ?_⟩
  · have ha : (impliedExec .rol s.cpu.regs).a = _ := s.rol_modified s.cpu.regs.a
    have hperforms := performs_implied (i := .rol .acc) (op := .rol) h rfl rfl rfl (s.rol_sets s.cpu.regs.a)
    rwa [ha] at hperforms
  · have ha : (impliedExec .ror s.cpu.regs).a = _ := s.ror_modified s.cpu.regs.a
    have hperforms := performs_implied (i := .ror .acc) (op := .ror) h rfl rfl rfl (s.ror_sets s.cpu.regs.a)
    rwa [ha] at hperforms
  · exact performs_rmw (op := .rol) h hw rfl rfl rfl (s.rol_sets _)
  · exact performs_rmw (op := .ror) h hw rfl rfl rfl (s.ror_sets _)
  · exact carryRing_inj (carryRing_rolTimes_nine (v, r))

end Sys2Proof.Machine

/-! PROOFS. The branches and the jumps (45_control_flow.md R309 to R329). -/

namespace Sys2Proof.Machine

/-! What a branch tests. -/

theorem Regs.taken_eq (r : Regs) (op : BranchOp) :
    r.taken op = (r.p.getLsbD (branchTest op).1.bit == (branchTest op).2) := by
  rw [Regs.taken, getFlag_eq]

/-- The opcode of a branch (30_encoding.md R99). -/
def BranchOp.opcode : BranchOp → Byte
  | .bpl => 0x10#8
  | .bmi => 0x30#8
  | .bvc => 0x50#8
  | .bvs => 0x70#8
  | .bcc => 0x90#8
  | .bcs => 0xB0#8
  | .bne => 0xD0#8
  | .beq => 0xF0#8

/-- Only the branches dispatch to `Branch` (40_sequencer.md R136). -/
theorem encodeOpcode_of_branch {i : Instr} {ir : Byte} {b : BranchOp} (h : firstMicroOp i ir = .branch b) :
    encodeOpcode i = some b.opcode := by
  have hm : ∀ o m, firstMem o m ≠ .branch b := by
    intro o m
    cases m <;> nofun
  have hr : ∀ o m, firstRead o m ≠ .branch b := by
    rintro o (_ | m)
    · nofun
    · exact hm _ m
  have hs : ∀ a o m, firstShift a o m ≠ .branch b := by
    rintro a o (_ | m)
    · nofun
    · exact hm _ m
  cases i
  case bpl | bmi | bvc | bvs | bcc | bcs | bne | beq => cases h; rfl
  all_goals simp [firstMicroOp, hm, hr, hs] at h

theorem eq_opcode_of_branch {op : Byte} {b : BranchOp} (h : firstMicroOp (decodeOpcode op) op = .branch b) :
    op = b.opcode :=
  Option.some.inj ((encodeOpcode_decodeOpcode op).symm.trans (encodeOpcode_of_branch h))

/-- The flag tested is read off `group_a`: its upper two bits name the flag, its lowest bit the value (R310). -/
theorem taken_of_groupA (r : Regs) (b : BranchOp) :
    r.taken b = (r.p.getLsbD ([7, 6, 0, 1].getD (groupA b.opcode / 2) 0) == (groupA b.opcode % 2 == 1)) := by
  rw [Regs.taken_eq]
  cases b <;> rfl

/-! What a branch and a jump perform. -/

section

variable {s : State} {i : Instr}

/-- An instruction whose end state differs in `pc` and `sp` alone. -/
theorem performs_transfer {pc : Addr} {sp : Byte} {length cycles : Nat} (h : s.atBoundary = true)
    (hx : s.executes i = true)
    (hafter : s.after i = ⟨{ s.cpu.regs with pc := pc, sp := sp }, s.mem, s.cpu.jsrLo, cycles⟩) :
    Performs s i { s.noEffect length cycles with pc := pc, sp := sp } (s.shown i) := by
  refine performs_of_ends h hx fun t hends => ?_
  rw [hafter] at hends
  exact hends.reaches rfl rfl rfl rfl rfl (setsFlags_nil _) (fun _ => rfl) rfl rfl

/-- The trace of a branch by its three outcomes: not taken, taken within the page, taken into another one. -/
theorem branchTrace_cases (op : BranchOp) :
    s.branchTrace op =
      if s.cpu.regs.taken op then
        if hiByte s.target = hiByte (s.cpu.regs.pc + 2#16) then s.shortTrace ++ [s.reads (s.cpu.regs.pc + 2#16)]
        else
          s.shortTrace ++
            [s.reads (s.cpu.regs.pc + 2#16), s.reads (cat (hiByte (s.cpu.regs.pc + 2#16)) (loByte s.target))]
      else s.shortTrace := by
  unfold State.branchTrace
  split
  · split <;> rfl
  · exact List.append_nil _

/-- A branch moves `pc` and nothing else (R309, R311 to R313). -/
theorem performs_branch {op : BranchOp} {taken : Bool} (h : s.atBoundary = true) (ht : s.cpu.regs.taken op = taken)
    (hx : s.executes i = true) (hafter : s.after i = s.afterBranch op) (hshown : s.shown i = s.branchTrace op) :
    Performs s i
      { s.noEffect 2 (if taken then if hiByte s.target = hiByte (s.cpu.regs.pc + 2#16) then 3 else 4 else 2) with
        pc := if taken then s.target else s.cpu.regs.pc + 2#16 }
      (if taken then
        if hiByte s.target = hiByte (s.cpu.regs.pc + 2#16) then s.shortTrace ++ [s.reads (s.cpu.regs.pc + 2#16)]
        else
          s.shortTrace ++
            [s.reads (s.cpu.regs.pc + 2#16), s.reads (cat (hiByte (s.cpu.regs.pc + 2#16)) (loByte s.target))]
      else s.shortTrace) := by
  subst ht
  rw [← branchTrace_cases, ← hshown]
  exact performs_transfer h hx hafter

end

/-- Settles O36: each branch is a row of `afterBranch`, and its opcode gives the row's flag and value. -/
theorem branchesTestOneFlag : Obligations.BranchesTestOneFlag := by
  refine ⟨by unfold Encodes; decide, fun s h => ?_⟩
  have htaken := s.cpu.regs.taken_eq
  refine ⟨?_, ?_, ?_, ?_, ?_, ?_, ?_, ?_, fun op b hb => ?_⟩
  · exact performs_branch h (htaken .bpl) rfl rfl rfl
  · exact performs_branch h (htaken .bmi) rfl rfl rfl
  · exact performs_branch h (htaken .bvc) rfl rfl rfl
  · exact performs_branch h (htaken .bvs) rfl rfl rfl
  · exact performs_branch h (htaken .bcc) rfl rfl rfl
  · exact performs_branch h (htaken .bcs) rfl rfl rfl
  · exact performs_branch h (htaken .bne) rfl rfl rfl
  · exact performs_branch h (htaken .beq) rfl rfl rfl
  · rw [eq_opcode_of_branch hb]
    exact taken_of_groupA s.cpu.regs b

/-- Settles O37: the rows of the tables of end states and traces; `pointerNext` keeps the pointer's page. -/
theorem jumpsLoadThePc : Obligations.JumpsLoadThePc := by
  refine ⟨by unfold Encodes; decide, fun s h => ⟨?_, ?_⟩⟩
  · exact performs_transfer h rfl rfl
  · have hnext : pointerNext (cat s.operand2 s.operand1) = cat s.operand2 (s.operand1 + 1#8) := by
      rw [pointerNext, hiByte_cat, loByte_cat]
    rw [← hnext]
    exact performs_transfer h rfl rfl

end Sys2Proof.Machine

/-! PROOFS. The subroutine call, the trap, and their returns (45_control_flow.md R330 to R354). -/

namespace Sys2Proof.Machine

/-! Memory after the pushes. -/

/-- One more store, in front of those before it. -/
theorem Memory.read_write_afterStores {m : Memory} {before : Addr → Byte} {l : List (Addr × Byte)} (hw : m.wf = true)
    (h : ∀ ad, Memory.read m ad = afterStores before l ad) {k : Addr} {v : Byte} :
    ∀ ad, Memory.read (Memory.write m k v) ad = afterStores before ((k, v) :: l) ad := by
  intro ad
  rw [Memory.read_write m k ad v hw, afterStores, h]

theorem stackAddr_ne {sp sp' : Byte} (h : sp ≠ sp') : stackAddr sp ≠ stackAddr sp' := fun e => h (stackAddr_inj _ _ e)

section

variable (s : State) (hw : Memory.wf s.mem = true)

/-- The stores with which JSR and BRK push `P + 2`, the last one first (R331, R332, R342, R343). -/
def State.returnAddressStores : List (Addr × Byte) :=
  [(stackAddr (s.cpu.regs.sp - 1#8), loByte (s.cpu.regs.pc + 2#16)),
    (stackAddr s.cpu.regs.sp, hiByte (s.cpu.regs.pc + 2#16))]

include hw

theorem jsrMemory_wf : Memory.wf (jsrMemory s) = true := Memory.write_wf _ _ _ (Memory.write_wf _ _ _ hw)

theorem jsrMemory_read (ad : Addr) :
    Memory.read (jsrMemory s) ad = afterStores (Memory.read s.mem) s.returnAddressStores ad :=
  Memory.read_write_afterStores (Memory.write_wf _ _ _ hw) (Memory.read_write_afterStores (l := []) hw fun _ => rfl) ad

theorem brkMemory_read (ad : Addr) :
    Memory.read (brkMemory s) ad = afterStores (Memory.read s.mem)
      ((stackAddr (s.cpu.regs.sp - 2#8), s.cpu.regs.pushedP) :: s.returnAddressStores) ad :=
  Memory.read_write_afterStores (jsrMemory_wf s hw) (jsrMemory_read s hw) ad

theorem jsrMemory_read_lo :
    Memory.read (jsrMemory s) (stackAddr (s.cpu.regs.sp - 1#8)) = loByte (s.cpu.regs.pc + 2#16) :=
  Memory.read_write_same _ _ _ (Memory.write_wf _ _ _ hw)

theorem jsrMemory_read_hi : Memory.read (jsrMemory s) (stackAddr s.cpu.regs.sp) = hiByte (s.cpu.regs.pc + 2#16) := by
  have hne : s.cpu.regs.sp ≠ s.cpu.regs.sp - 1#8 := by bv_omega
  exact (Memory.read_write_other _ _ _ _ (stackAddr_ne hne)).trans (Memory.read_write_same _ _ _ hw)

theorem brkMemory_read_status :
    Memory.read (brkMemory s) (stackAddr (s.cpu.regs.sp - 2#8)) = s.cpu.regs.pushedP :=
  Memory.read_write_same _ _ _ (jsrMemory_wf s hw)

theorem brkMemory_read_lo :
    Memory.read (brkMemory s) (stackAddr (s.cpu.regs.sp - 1#8)) = loByte (s.cpu.regs.pc + 2#16) := by
  have hne : s.cpu.regs.sp - 1#8 ≠ s.cpu.regs.sp - 2#8 := by bv_omega
  exact (Memory.read_write_other _ _ _ _ (stackAddr_ne hne)).trans (jsrMemory_read_lo s hw)

theorem brkMemory_read_hi : Memory.read (brkMemory s) (stackAddr s.cpu.regs.sp) = hiByte (s.cpu.regs.pc + 2#16) := by
  have hne : s.cpu.regs.sp ≠ s.cpu.regs.sp - 2#8 := by bv_omega
  exact (Memory.read_write_other _ _ _ _ (stackAddr_ne hne)).trans (jsrMemory_read_hi s hw)

end

/-- The trap vector (R345) lies outside the stack's page, so the pushes leave it. -/
theorem brkMemory_read_vector (s : State) {ad : Addr} (h : hiByte ad ≠ 0x01#8) :
    Memory.read (brkMemory s) ad = Memory.read s.mem ad := by
  have hne (sp : Byte) : ad ≠ stackAddr sp := fun e => h (by rw [e, stackAddr_eq_cat, hiByte_cat])
  exact brkMemory_read_other s (hne _) (hne _) (hne _)

/-! The call and its return. -/

/-- Settles O38: `b2` is read from the memory after the two pushes. -/
theorem jsrPushesTheReturnAddress : Obligations.JsrPushesTheReturnAddress := by
  refine ⟨by unfold Encodes; decide, fun s h hw => ?_⟩
  intro P sp pushes b2
  have hb2 : b2 = Memory.read (jsrMemory s) (P + 2#16) := (jsrMemory_read s hw _).symm
  rw [hb2]
  exact performs_of_ends h rfl fun t hends =>
    hends.reaches rfl rfl rfl rfl rfl (setsFlags_nil _) (jsrMemory_read s hw) rfl rfl

/-- A step at a boundary ends as the table says for the instruction decoded. -/
theorem ends_of_step_next {s t : State} {i : Instr} (h : s.atBoundary = true) (hd : decodeOpcode s.fetchByte = i)
    (e : step s = .next t) : Ends s t (s.after i).regs (s.after i).mem (s.after i).jsrLo (s.after i).cycles := by
  rw [step_at_boundary h, hd] at e
  exact (ends_of_exec_next h e).2

/-- After a JSR, RTS pulls `P + 2`. -/
theorem pulledPc_after_jsr {s t : State} (hw : Memory.wf s.mem = true) (hsp : t.cpu.regs.sp = s.cpu.regs.sp - 2#8)
    (hmem : t.mem = jsrMemory s) : t.pulledPc 1#8 = s.cpu.regs.pc + 2#16 := by
  have hhi : t.cpu.regs.sp + (1#8 + 1#8) = s.cpu.regs.sp := by rw [hsp]; bv_omega
  have hlo : t.cpu.regs.sp + 1#8 = s.cpu.regs.sp - 1#8 := by rw [hsp]; bv_omega
  rw [State.pulledPc, hhi, hlo, hmem, jsrMemory_read_hi s hw, jsrMemory_read_lo s hw, cat_hiByte_loByte]

/-- Settles O39: the row of the table, and what RTS pulls after a JSR. -/
theorem rtsPullsTheReturnAddress : Obligations.RtsPullsTheReturnAddress := by
  refine ⟨by unfold Encodes; decide, fun s h => ?_, fun s t u h hw hd e hd' e' => ?_⟩
  · exact performs_transfer h rfl rfl
  · have ht := ends_of_step_next h hd e
    have hu := ends_of_step_next ht.boundary hd' e'
    have hpulled := pulledPc_after_jsr hw (congrArg Regs.sp ht.regs) ht.mem
    calc u.cpu.regs.pc = t.pulledPc 1#8 + 1#16 := congrArg Regs.pc hu.regs
      _ = s.cpu.regs.pc + 3#16 := by rw [hpulled, Addr.add_two_one]

/-! The trap and its return. -/

/-- Settles O40: the vector is read from the memory after the pushes, which leave it. -/
theorem brkEntersTheTrap : Obligations.BrkEntersTheTrap := by
  refine ⟨by unfold Encodes; decide, fun s h hw => ?_⟩
  have hlo : Memory.read (brkMemory s) 0xFFFE#16 = Memory.read s.mem 0xFFFE#16 := brkMemory_read_vector s (by decide)
  have hhi : Memory.read (brkMemory s) 0xFFFF#16 = Memory.read s.mem 0xFFFF#16 := brkMemory_read_vector s (by decide)
  simp only [State.reads, ← hlo, ← hhi]
  exact performs_of_ends h rfl fun t hends =>
    hends.reaches rfl rfl rfl rfl rfl (setFlag_setsFlags _ .i true) (brkMemory_read s hw) rfl rfl

/-- Settles O41: the row of the table, with the flags of a pull. -/
theorem rtiReturnsFromTheTrap : Obligations.RtiReturnsFromTheTrap := by
  refine ⟨by unfold Encodes; decide, fun s h => ?_⟩
  exact performs_of_ends h rfl fun t hends =>
    hends.reaches rfl rfl rfl rfl rfl (Regs.pullP_sets _ _) (fun _ => rfl) rfl rfl

/-- BRK leaves bits 4 and 5 as they were, and the pull restores the others, I among them (10_state.md R28). -/
theorem Regs.pullP_pushedP (r : Regs) : ((r.setFlag .i true).pullP r.pushedP).p = r.p := by
  have h : ∀ p : Byte, (p ||| 0x30#8) &&& 0xCF#8 ||| (p ||| 0x04#8) &&& 0x30#8 = p := by decide
  exact h r.p

/-- RTI at a state that a BRK left puts every register back, and `pc` at `P + 2`. -/
theorem rti_after_brk {s t : State} (hw : Memory.wf s.mem = true) (hregs : t.cpu.regs = (s.after .brk).regs)
    (hmem : t.mem = brkMemory s) : (t.after .rti).regs = { s.cpu.regs with pc := s.cpu.regs.pc + 2#16 } := by
  have hsp : t.cpu.regs.sp = s.cpu.regs.sp - 3#8 := congrArg Regs.sp hregs
  have hback : t.cpu.regs.sp + 3#8 = s.cpu.regs.sp := by rw [hsp]; bv_omega
  have hlo : t.cpu.regs.sp + 2#8 = s.cpu.regs.sp - 1#8 := by rw [hsp]; bv_omega
  have hstatus : t.cpu.regs.sp + 1#8 = s.cpu.regs.sp - 2#8 := by rw [hsp]; bv_omega
  have hpc : t.pulledPc 2#8 = s.cpu.regs.pc + 2#16 := by
    rw [State.pulledPc, show (2#8 + 1#8 : Byte) = 3#8 from rfl, hback, hlo, hmem, brkMemory_read_hi s hw,
      brkMemory_read_lo s hw, cat_hiByte_loByte]
  calc (t.after .rti).regs
      _ = { t.cpu.regs.pullP s.cpu.regs.pushedP with pc := s.cpu.regs.pc + 2#16, sp := s.cpu.regs.sp } := by
        simp only [State.after, hpc, hback, hstatus, hmem, brkMemory_read_status s hw]
      _ = { s.cpu.regs with pc := s.cpu.regs.pc + 2#16 } := by
        rw [hregs]
        exact congrArg (fun p => { s.cpu.regs with pc := s.cpu.regs.pc + 2#16, p := p }) s.cpu.regs.pullP_pushedP

/-- Settles O42: the registers by `rti_after_brk`; RTI stores nothing, and BRK nothing but its three bytes. -/
theorem trapRoundTripRestores : Obligations.TrapRoundTripRestores := by
  intro s t u h hw hd e hd' e'
  have ht := ends_of_step_next h hd e
  have hu := ends_of_step_next ht.boundary hd' e'
  refine ⟨hu.regs.trans (rti_after_brk hw ht.regs ht.mem), fun ad had => ?_⟩
  simp only [List.mem_cons, List.not_mem_nil, or_false, not_or] at had
  obtain ⟨h0, h1, h2⟩ := had
  have hmem : u.mem = brkMemory s := hu.mem.trans ht.mem
  rw [hmem]
  exact brkMemory_read_other s h0 h1 h2

end Sys2Proof.Machine

/-! PROOFS. The stack, flag and no-operation instructions (46_stack_flag_nop.md R365 to R376) and the undocumented NOPs
(47_undocumented.md R389): beside `performs_implied` and `performs_read`, a push and the pull after it. -/

namespace Sys2Proof.Machine

/-! Push and pull. -/

/-- A push stores its byte at `stack(sp)`, leaves `sp` one lower, and changes nothing else (46_stack_flag_nop.md R360,
R361). -/
theorem performs_push {s : State} {i : Instr} {op : PushOp} (h : s.atBoundary = true) (hw : Memory.wf s.mem = true)
    (hx : s.executes i = true) (hafter : s.after i = s.afterPush op) :
    Performs s i
      { s.noEffect 1 3 with
        sp := s.cpu.regs.sp - 1#8, stores := [(stackAddr s.cpu.regs.sp, pushValue op s.cpu.regs)] } (s.shown i) := by
  refine performs_of_ends h hx fun t hends => ?_
  rw [hafter] at hends
  exact hends.reaches rfl rfl rfl rfl rfl (setsFlags_nil _) (read_after_store s hw _ _) rfl rfl

/-- Settles O43: the two rows of pushes, with the byte that each pushes. -/
theorem pushesWriteTheStack : Obligations.PushesWriteTheStack := by
  refine ⟨by unfold Encodes; decide, fun s h hw => ⟨?_, ?_⟩, stackAddr_toNat⟩
  · exact performs_push (op := .pha) h hw rfl rfl
  · exact performs_push (op := .php) h hw rfl rfl

/-- A pull at a state that a push left works on the pushed byte, with `sp` where it was before the push. -/
theorem afterPull_of_afterPush {s t : State} {push : PushOp} {pull : PullOp} (hw : Memory.wf s.mem = true)
    (hregs : t.cpu.regs = (s.afterPush push).regs) (hmem : t.mem = (s.afterPush push).mem) :
    (t.afterPull pull).regs = pullExec pull (pushValue push s.cpu.regs) ((s.cpu.regs.advance 1).advance 1) := by
  have hsp : t.cpu.regs.sp + 1#8 = s.cpu.regs.sp := by
    rw [hregs]
    exact BitVec.sub_add_cancel _ _
  have hbyte : Memory.read t.mem (stackAddr s.cpu.regs.sp) = pushValue push s.cpu.regs := by
    rw [hmem]
    exact Memory.read_write_same _ _ _ hw
  rw [State.afterPull, hsp, hbyte, hregs]
  rfl

/-- The registers after a push and then a pull. -/
theorem regs_of_push_pull {s t u : State} {i j : Instr} {push : PushOp} {pull : PullOp} (h : s.atBoundary = true)
    (hw : Memory.wf s.mem = true) (hi : s.after i = s.afterPush push) (hj : t.after j = t.afterPull pull)
    (e : exec i s = .next t) (e' : exec j t = .next u) :
    u.cpu.regs = pullExec pull (pushValue push s.cpu.regs) ((s.cpu.regs.advance 1).advance 1) := by
  obtain ⟨-, ht⟩ := ends_of_exec_next h e
  obtain ⟨-, hu⟩ := ends_of_exec_next ht.boundary e'
  rw [hi] at ht
  rw [hj] at hu
  exact hu.regs.trans (afterPull_of_afterPush hw ht.regs ht.mem)

/-- Pulling its own pushed status byte leaves `p` as it was (10_state.md R28). -/
theorem Regs.pullP_own_pushedP (r : Regs) : (r.pullP r.pushedP).p = r.p := by
  have h : ∀ p : Byte, (p ||| 0x30#8) &&& 0xCF#8 ||| p &&& 0x30#8 = p := by decide
  exact h r.p

/-- Settles O44: the two rows of pulls with the flags that each writes, and what a pull restores after its push. -/
theorem pullsReadTheStack : Obligations.PullsReadTheStack := by
  refine ⟨by unfold Encodes; decide, fun s h => ⟨?_, ?_⟩, fun s t u h hw e e' => ?_, fun s t u h hw e e' => ?_⟩
  · exact performs_of_ends h rfl fun t hends =>
      hends.reaches rfl rfl rfl rfl rfl (Regs.updateNz_sets _ _) (fun _ => rfl) rfl rfl
  · exact performs_of_ends h rfl fun t hends =>
      hends.reaches rfl rfl rfl rfl rfl (Regs.pullP_sets _ _) (fun _ => rfl) rfl rfl
  · rw [regs_of_push_pull (push := .pha) (pull := .pla) h hw rfl rfl e e']
    exact ⟨rfl, rfl⟩
  · rw [regs_of_push_pull (push := .php) (pull := .plp) h hw rfl rfl e e']
    exact ⟨s.cpu.regs.pullP_own_pushedP, rfl⟩

/-! Flags. -/

/-- An instruction after which V is 1 where it was 0 is a writer of V (10_state.md R26), and not CLV. -/
theorem writesV_of_sets_v {s : State} {i : Instr} (h0 : s.cpu.regs.p.getLsbD 6 = false)
    (h1 : (s.after i).regs.p.getLsbD 6 = true) : i.writesV = true ∧ i ≠ .clv := by
  refine ⟨(Bool.eq_false_or_eq_true _).resolve_right fun hv => ?_, ?_⟩
  · have hkeeps : (s.after i).regs.p.getLsbD 6 = s.cpu.regs.p.getLsbD 6 :=
      (after_keeps s i).getLsbD .v (v_not_mem_flagsWritten hv)
    rw [hkeeps, h0] at h1
    cases h1
  · rintro rfl
    have hclear : (s.after .clv).regs.p.getLsbD 6 = false :=
      setFlag_getLsbD (s.cpu.regs.advance 1) .v false 6 (by decide)
    rw [hclear] at h1
    cases h1

/-- Settles O45: each is a row of `implied_exec` that sets one flag; the writers of V but CLV are the seven listed. -/
theorem flagInstructionsWriteOneFlag : Obligations.FlagInstructionsWriteOneFlag := by
  refine ⟨by unfold Encodes; decide, fun s h => ⟨?_, ?_, ?_, ?_, ?_, ?_, ?_⟩, fun i s t h e h0 h1 => ?_⟩
  · exact performs_implied (op := .clc) h rfl rfl rfl (setFlag_setsFlags _ .c false)
  · exact performs_implied (op := .sec) h rfl rfl rfl (setFlag_setsFlags _ .c true)
  · exact performs_implied (op := .cli) h rfl rfl rfl (setFlag_setsFlags _ .i false)
  · exact performs_implied (op := .sei) h rfl rfl rfl (setFlag_setsFlags _ .i true)
  · exact performs_implied (op := .clv) h rfl rfl rfl (setFlag_setsFlags _ .v false)
  · exact performs_implied (op := .cld) h rfl rfl rfl (setFlag_setsFlags _ .d false)
  · exact performs_implied (op := .sed) h rfl rfl rfl (setFlag_setsFlags _ .d true)
  · obtain ⟨-, hends⟩ := ends_of_exec_next h e
    rw [hends.regs] at h1
    obtain ⟨hv, hclv⟩ := writesV_of_sets_v h0 h1
    cases i
    case sbcDup | plp | rti => exact .inl (by decide)
    case adc m | sbc m => exact .inr (.inl ⟨m, by simp⟩)
    case bit m | rra m | isb m => exact .inr (.inr ⟨m, by simp⟩)
    case clv => exact absurd rfl hclv
    all_goals cases hv

/-! No operation. -/

/-- Absolute,X takes one cycle more where the index crosses a page (41_addressing.md R183). -/
theorem State.readCycles_absX (s : State) : s.readCycles (.mem .absX) = if s.crosses .absX then 5 else 4 := by
  rw [State.readCycles, State.crossPenalty]
  split <;> rfl

/-- Settles O46: NOP and its implied duplicates are the empty row of `implied_exec`, the others that of `read_exec`. -/
theorem nopsChangeNothing : Obligations.NopsChangeNothing := by
  refine ⟨by unfold Encodes; decide, fun s h => ?_, fun s h hu =>
    ⟨fun k => ?_, fun k => ?_, fun k => ?_, fun k => ?_, ?_, fun k => ?_⟩⟩
  · exact performs_implied (op := .nop) h rfl rfl rfl (setsFlags_nil _)
  · exact performs_implied (op := .nop) h hu rfl rfl (setsFlags_nil _)
  · exact performs_read (op := .nop) (m := .imm) h hu rfl rfl (setsFlags_nil _)
  · exact performs_read (op := .nop) (m := .mem .zp) h hu rfl rfl (setsFlags_nil _)
  · exact performs_read (op := .nop) (m := .mem .zpX) h hu rfl rfl (setsFlags_nil _)
  · exact performs_read (op := .nop) (m := .mem .abs) h hu rfl rfl (setsFlags_nil _)
  · rw [← s.readCycles_absX]
    exact performs_read (op := .nop) (m := .mem .absX) h hu rfl rfl (setsFlags_nil _)

end Sys2Proof.Machine

/-! PROOFS. The undocumented opcodes (47_undocumented.md): UNDOC_SUPPORT as a parameter that only the opcode fetch reads
(R380, R392), the combined loads and stores (R381, R382), and the combined read-modify-writes (R383 to R388). -/

namespace Sys2Proof.Machine

/-! UNDOC_SUPPORT. -/

/-- The opcode fetch is the one micro-op that reads the parameters (40_sequencer.md R135). -/
theorem runMicroOp_params (params q : Params) (m : MicroOp) (c : Cpu) (hf : m ≠ .fetchOpcode) :
    runMicroOp params m c = runMicroOp q m c := by
  cases m
  case fetchOpcode => exact absurd rfl hf
  all_goals rfl

theorem pulseOn_params {σ : Type} (M : MemAgent σ) (params q : Params) {c : Cpu} (m : σ)
    (hf : c.nextMicroOp ≠ .fetchOpcode) : pulseOn M params (c, m) = pulseOn M q (c, m) := by
  simp only [pulseOn, busCycle]
  split
  case h_1 => rfl
  case h_2 => rw [runMicroOp_params params q _ _ hf]

/-- A run of pulses ends before it would fetch an opcode. -/
theorem runOn_params {σ : Type} (M : MemAgent σ) (params q : Params) (n : Nat) (r : Cpu × σ) :
    runOn M params n r = runOn M q n r := by
  induction n generalizing r with
  | zero => rfl
  | succ n ih =>
    by_cases hf : r.1.nextMicroOp = .fetchOpcode
    · rw [runOn_stop M params (n + 1) r.1 r.2 hf, runOn_stop M q (n + 1) r.1 r.2 hf]
    · simp only [runOn, pulseOn_params M params q r.2 hf, ih]

theorem State.runDocumented_params {s t : State} {m : MicroOp} (e : s.runDocumented m = .next t) (q : Params) :
    State.runDocumented { s with params := q } m = .next { t with params := q } := by
  rw [State.runDocumented_eq] at e
  rw [State.runDocumented_eq, runOn_params ramAgent _ s.params, State.lift_next e]
  rfl

theorem State.executes_of_documented (s : State) {i : Instr} (h : i.opClass = .documented) : s.executes i = true := by
  simp only [State.executes, h]

/-- Settles O21: an opcode that does not execute faults in its second pulse; a chain does not read the parameters. -/
theorem undocSupportGatesTheUndocumented : Obligations.UndocSupportGatesTheUndocumented := by
  refine ⟨fun i s hc hu => ?_, fun i s hb hc hu => ?_, fun i s q hb hc => ?_⟩
  · have hx : s.executes i = false := (s.executes_eq_false_iff i).mpr (.inr ⟨hc, hu⟩)
    refine ⟨exec_of_not_executes i s hx, fun hb hd => ?_⟩
    have hp := pulse_at_boundary hb
    rw [hd, dispatchTo_of_not_executes hx] at hp
    exact ⟨_, hp, rfl, rfl, rfl, pulse_of_unimplemented rfl⟩
  · obtain ⟨t, e, hends⟩ := exec_ends i s hb (State.executes_of_supported hc hu)
    exact ⟨t, e, hends.params⟩
  · obtain ⟨t, e, -⟩ := exec_ends i s hb (s.executes_of_documented hc)
    refine ⟨t, e, ?_⟩
    rw [exec_of_executes i s (s.executes_of_documented hc)] at e
    rw [exec_of_executes i _ (State.executes_of_documented _ hc)]
    exact State.runDocumented_params e q

/-! The combined load and store. -/

/-- Settles O47: a row of `read_exec` that loads both registers. -/
theorem laxLoadsBothRegisters : Obligations.LaxLoadsBothRegisters := by
  refine ⟨by unfold Encodes; decide, fun s m h hu => ?_⟩
  exact performs_read (op := .lax) (m := .mem m) h hu rfl rfl (Regs.updateNz_sets _ _)

/-- Settles O48: a row of `store_value`. -/
theorem saxStoresTheConjunction : Obligations.SaxStoresTheConjunction := by
  refine ⟨by unfold Encodes; decide, fun s m h hu hw => ?_⟩
  exact performs_write (op := .sax) h hw hu rfl rfl

/-! The combined read-modify-writes: the flags of the shift, and over them those of the logic or the sum. -/

/-- Of a second update that writes every flag in `l` again, `l` is not seen. -/
theorem SetsFlags.over {r r' r'' : Regs} {l l' rest : List (Nat × Bool)} (h : SetsFlags r r' (l ++ rest))
    (h' : SetsFlags r' r'' l') (hl : l.map Prod.fst ⊆ l'.map Prod.fst) : SetsFlags r r'' (l' ++ rest) := by
  refine (h.trans h').perm fun k _ => ?_
  rw [List.lookup_append, List.lookup_append, List.lookup_append]
  cases hk : l'.lookup k
  case some b => rfl
  case none =>
    have hnone : l.lookup k = none := by
      rw [List.lookup_eq_none_iff] at hk ⊢
      intro p hp
      obtain ⟨p', hp', hfst⟩ := List.mem_map.mp (hl (List.mem_map_of_mem hp))
      exact hfst ▸ hk p' hp'
    rw [hnone]
    rfl

/-- N and Z of `w`, written over by those of `v`. -/
theorem SetsFlags.updateNz {r r' : Regs} {w : Byte} {rest : List (Nat × Bool)} (h : SetsFlags r r' (nzFlags w ++ rest))
    (v : Byte) : SetsFlags r (r'.updateNz v) (nzFlags v ++ rest) :=
  h.over (r'.updateNz_sets v) (List.Subset.refl [7, 1])

theorem State.rla_a (s : State) (v : Byte) :
    (rmwExec .rla v s.cpu.regs).2.a = s.cpu.regs.a &&& s.modified v .rla :=
  congrArg (s.cpu.regs.a &&& ·) (s.rol_modified v)

theorem State.rla_sets (s : State) (v : Byte) :
    SetsFlags s.cpu.regs (rmwExec .rla v s.cpu.regs).2
      (nzFlags (s.cpu.regs.a &&& s.modified v .rla) ++ [(0, v.getLsbD 7)]) :=
  s.rla_a v ▸ (s.rol_sets v).updateNz _

/-- Settles O49: each is a row of `rmw_exec`, where `update_nz` of the new `a` writes over that of the shift. -/
theorem shiftAndLogicCombine : Obligations.ShiftAndLogicCombine := by
  refine ⟨by unfold Encodes; decide, fun s m h hu hw => ?_⟩
  intro a v e outcome rotated
  refine ⟨?_, ?_, ?_⟩
  · exact performs_rmw (op := .slo) h hw hu rfl rfl ((s.cpu.regs.asl_sets v).updateNz _)
  · have hperforms := performs_rmw (i := .rla m) (op := .rla) h hw hu rfl rfl (s.rla_sets v)
    rwa [s.rla_a v] at hperforms
  · exact performs_rmw (op := .sre) h hw hu rfl rfl ((s.cpu.regs.lsr_sets v).updateNz _)

theorem Regs.ror_p_getLsbD_zero (r : Regs) (v : Byte) : (r.ror v).2.p.getLsbD 0 = v.getLsbD 0 :=
  r.ror_sets v 0 (by decide)

/-- The sum of RRA writes over every flag of the rotate, whose carry-out enters it (R386). -/
theorem State.rra_sets (s : State) (v : Byte) :
    SetsFlags s.cpu.regs (rmwExec .rra v s.cpu.regs).2
      (adcFlags s.cpu.regs.a (s.modified v .rra) (v.getLsbD 0).toNat) := by
  have hadc : SetsFlags (s.cpu.regs.ror v).2 (rmwExec .rra v s.cpu.regs).2 _ := Regs.adc_setsFlags _ _
  rw [Regs.ror_p_getLsbD_zero, s.ror_modified] at hadc
  exact SetsFlags.over (l := nzFlags (s.modified v .ror) ++ [(0, v.getLsbD 0)]) (rest := []) (s.ror_sets v) hadc
    (by simp [adcFlags, nzFlags])

theorem State.rra_a (s : State) (v : Byte) :
    (rmwExec .rra v s.cpu.regs).2.a =
      BitVec.ofNat 8 (s.cpu.regs.a.toNat + (s.modified v .rra).toNat + (v.getLsbD 0).toNat) := by
  have hadc : (rmwExec .rra v s.cpu.regs).2.a = _ := Regs.adc_a _ _
  rwa [Regs.ror_p_getLsbD_zero, s.ror_modified] at hadc

/-- Settles O50: each is a row of `rmw_exec`; RRA adds with the carry of its rotate, ISB subtracts with the old one. -/
theorem modifyAndArithmeticCombine : Obligations.ModifyAndArithmeticCombine := by
  refine ⟨by unfold Encodes; decide, fun s m h hu hw => ?_⟩
  intro a v e rotated out
  refine ⟨?_, ?_, ?_⟩
  · have hperforms := performs_rmw (i := .rra m) (op := .rra) h hw hu rfl rfl (s.rra_sets v)
    rwa [s.rra_a v] at hperforms
  · exact performs_rmw (op := .dcp) h hw hu rfl rfl (Regs.compare_sets _ _ _)
  · have ha : (rmwExec .isb v s.cpu.regs).2.a = _ := s.cpu.regs.sbc_a _
    have hperforms := performs_rmw (i := .isb m) (op := .isb) h hw hu rfl rfl (s.cpu.regs.sbc_setsFlags _)
    rwa [ha] at hperforms

end Sys2Proof.Machine

/-! PROOFS. One step against the host's loop of pulses (60_exceptions.md R424, 40_sequencer.md R130, R134). -/

namespace Sys2Proof.Machine

/-- Pulses beyond those a chain needs change nothing: the run has stopped at the boundary. -/
theorem runOn_succ {σ : Type} (M : MemAgent σ) (params : Params) (n : Nat) (c : Cpu) (m : σ)
    (hu : ∀ op, c.nextMicroOp ≠ .unimplemented op) (hle : c.nextMicroOp.pulsesLeft ≤ n) :
    runOn M params (n + 1) (c, m) = runOn M params n (c, m) := by
  induction n generalizing c m with
  | zero => exact absurd (MicroOp.pulsesLeft_pos hu) (Nat.not_lt.mpr hle)
  | succ n ih =>
    by_cases hf : c.nextMicroOp = .fetchOpcode
    · rw [runOn_stop M params _ c m hf, runOn_stop M params _ c m hf]
    · rw [runOn_step M params _ c m hf hu, runOn_step M params _ c m hf hu]
      obtain ⟨hstop, -⟩ | ⟨-, hu1, -, hleft⟩ := runMicroOp_advances params _ (transact M c.tick m).1 hf hu
      · exact (runOn_stop M params _ _ _ hstop).trans (runOn_stop M params _ _ _ hstop).symm
      · exact ih _ _ hu1 (by omega)

/-- The pulse at an opcode fetch begins a chain that 7 more pulses end, by a boundary or by the fault (R131). -/
theorem runOn_after_fetch {σ : Type} (M : MemAgent σ) (params : Params) (c : Cpu) (m : σ) :
    runOn M params 8 (busCycle M (runMicroOp params .fetchOpcode) c m) =
      runOn M params 7 (busCycle M (runMicroOp params .fetchOpcode) c m) := by
  by_cases hu : ∃ op, (busCycle M (runMicroOp params .fetchOpcode) c m).1.nextMicroOp = .unimplemented op
  · obtain ⟨op, hop⟩ := hu
    simp only [runOn, Cpu.atFetch, hop, pulseOn_of_unimplemented M params _ hop]
  · exact runOn_succ M params 7 _ _ (fun op e => hu ⟨op, e⟩) (dispatchTo_pulsesLeft _ _ _)

/-- An outcome overwrites the core and the memory that a state holds. -/
theorem State.lift_overwrites (s : State) (c : Cpu) (mem : Memory) (o : Host.Outcome (Cpu × Memory) Fault Refusal) :
    State.lift { s with cpu := c, mem := mem } o = s.lift o := by
  cases o <;> rfl

/-- Settles O6: the step is the fetch pulse and at most 7 more, and an eighth would change nothing. -/
theorem stepIsPulses : Obligations.StepIsPulses := by
  intro s hf
  rw [step_of_fetch s hf, State.pulse, pulseOn_of_fetch _ _ _ _ hf, hf]
  exact (congrArg s.lift (runOn_after_fetch ramAgent s.params s.cpu s.mem)).symm.trans (s.lift_overwrites _ _ _).symm

end Sys2Proof.Machine

/-! PROOFS. Reset (70_reset_and_hazards.md R440 to R444). -/

namespace Sys2Proof.Machine

/-- Reset writes three flags (R440, R443). -/
theorem Regs.resetP_sets (r : Regs) : SetsFlags r r.resetP [(3, false), (5, true), (2, true)] :=
  ((setFlag_setsFlags r .i true).trans (setFlag_setsFlags _ .u true)).trans (setFlag_setsFlags _ .d false)

/-- Settles O11: the three flags of reset; the rest are the fields that it names. -/
theorem resetSetsUpTheFetch : Obligations.ResetSetsUpTheFetch := by
  intro σ M c m
  have hp := c.regs.resetP_sets
  exact ⟨hp 2 (by decide), hp 5 (by decide), hp 3 (by decide), rfl, rfl, rfl, rfl, rfl, rfl⟩

/-- Settles O12: the other five flags stand in no entry of that list, and reading the plain RAM does not change it. -/
theorem resetKeepsTheRest : Obligations.ResetKeepsTheRest := by
  intro s
  refine ⟨rfl, rfl, rfl, rfl, fun k hk => ?_, rfl, rfl, rfl, rfl, rfl, rfl, rfl⟩
  have hother : k < 8 ∧ [(3, false), (5, true), (2, true)].lookup k = none := by
    revert k
    decide
  exact (s.cpu.regs.resetP_sets k hother.1).trans (by rw [hother.2]; rfl)

end Sys2Proof.Machine

/-! PROOFS. Bits 2 to 5 of `p` steer nothing (10_state.md R29, R30, 60_exceptions.md R414): two cores that differ in those
bits alone stay so over every micro-op but the two that push `p`. -/

namespace Sys2Proof.Machine

/-- Two status bytes with the same N, V, Z and C, whose masks make up `$C3` (R26). -/
def SameNvzc (p q : Byte) : Prop := q &&& 0xC3#8 = p &&& 0xC3#8

/-- The register file with another `p`. -/
def Regs.withP (r : Regs) (q : Byte) : Regs := { r with p := q }

/-- The core with another `p`. -/
def Cpu.withP (c : Cpu) (q : Byte) : Cpu := { c with regs := c.regs.withP q }

/-- Two register files that differ in bits 2 to 5 of `p` alone. -/
def Regs.Alike (r r' : Regs) : Prop := ∃ q, r' = r.withP q ∧ SameNvzc r.p q

/-- Two cores that differ in bits 2 to 5 of `p` alone. -/
def Cpu.Alike (c c' : Cpu) : Prop := ∃ q, c' = c.withP q ∧ SameNvzc c.regs.p q

/-- Two results, a byte and a register file each: the bytes are equal, the register files alike. -/
def ResultsAlike (u u' : Byte × Regs) : Prop := u'.1 = u.1 ∧ u.2.Alike u'.2

/-! Status bytes. -/

section

variable {p q : Byte}

theorem SameNvzc.or (h : SameNvzc p q) (v : Byte) : SameNvzc (p ||| v) (q ||| v) := by
  rw [SameNvzc, BitVec.and_or_distrib_right, h, ← BitVec.and_or_distrib_right]

theorem SameNvzc.and (h : SameNvzc p q) (v : Byte) : SameNvzc (v &&& p) (v &&& q) := by
  rw [SameNvzc, BitVec.and_assoc, h, ← BitVec.and_assoc]

theorem sameNvzc_xor (p : Byte) {k : Byte} (hk : k &&& 0xC3#8 = 0#8) : SameNvzc p (p ^^^ k) := by
  have hdistrib : (p ^^^ k) &&& 0xC3#8 = (p &&& 0xC3#8) ^^^ (k &&& 0xC3#8) := by
    ext i
    simp [Bool.and_xor_distrib_right]
  rw [SameNvzc, hdistrib, hk, BitVec.xor_zero]

/-- A mask inside N, V, Z and C does not tell the two bytes apart. -/
theorem SameNvzc.and_eq (h : SameNvzc p q) {v : Byte} (hv : 0xC3#8 &&& v = v) : q &&& v = p &&& v := by
  rw [← hv, ← BitVec.and_assoc, ← BitVec.and_assoc, h]

end

/-! Register files: what is read of `p`, and the helpers of 42_alu_flags.md. -/

section

variable {r r' : Regs} {u u' : Byte × Regs}

theorem Regs.Alike.getFlag (h : r.Alike r') {f : Flag} (hf : f ∈ [.n, .v, .z, .c]) : r'.getFlag f = r.getFlag f := by
  obtain ⟨q, rfl, hq⟩ := h
  have hmask : 0xC3#8 &&& f.mask = f.mask := by
    revert f
    decide
  exact congrArg (· != 0#8) (hq.and_eq hmask)

theorem Regs.Alike.setFlag (h : r.Alike r') (f : Flag) (b : Bool) : (r.setFlag f b).Alike (r'.setFlag f b) := by
  obtain ⟨q, rfl, hq⟩ := h
  cases b
  · refine ⟨_, rfl, ?_⟩
    simp only [Regs.setFlag, Regs.withP, Bool.false_eq_true, if_false, BitVec.and_comm _ (~~~f.mask)]
    exact hq.and _
  · exact ⟨_, rfl, hq.or _⟩

/-- What does not look at `p` keeps two register files alike. -/
theorem Regs.Alike.map (h : r.Alike r') {g : Regs → Regs} (hg : ∀ q, g (r.withP q) = (g r).withP q) :
    (g r).Alike (g r') := by
  obtain ⟨q, rfl, hq⟩ := h
  have hp : (g r).p = r.p := (congrArg Regs.p (hg r.p) :)
  exact ⟨q, hg q, by rwa [hp]⟩

theorem Regs.Alike.withA (h : r.Alike r') (v : Byte) : Regs.Alike { r with a := v } { r' with a := v } :=
  h.map (g := fun r => { r with a := v }) fun _ => rfl

theorem Regs.Alike.updateNz (h : r.Alike r') (v : Byte) : (r.updateNz v).Alike (r'.updateNz v) :=
  (h.setFlag .n _).setFlag .z _

theorem Regs.Alike.loadA (h : r.Alike r') (v : Byte) : (r.loadA v).Alike (r'.loadA v) := (h.withA v).updateNz v

theorem Regs.Alike.loadX (h : r.Alike r') (v : Byte) : (r.loadX v).Alike (r'.loadX v) :=
  (h.map (g := fun r => { r with x := v }) fun _ => rfl).updateNz v

theorem Regs.Alike.loadY (h : r.Alike r') (v : Byte) : (r.loadY v).Alike (r'.loadY v) :=
  (h.map (g := fun r => { r with y := v }) fun _ => rfl).updateNz v

theorem Regs.Alike.ora (h : r.Alike r') (m : Byte) : (r.ora m).Alike (r'.ora m) := by
  have ⟨q, e, _⟩ := h
  subst e
  exact h.loadA (r.a ||| m)

theorem Regs.Alike.and (h : r.Alike r') (m : Byte) : (r.and m).Alike (r'.and m) := by
  have ⟨q, e, _⟩ := h
  subst e
  exact h.loadA (r.a &&& m)

theorem Regs.Alike.eor (h : r.Alike r') (m : Byte) : (r.eor m).Alike (r'.eor m) := by
  have ⟨q, e, _⟩ := h
  subst e
  exact h.loadA (r.a ^^^ m)

/-- The carry is the one flag that the sum reads (R210, R213). -/
theorem Regs.Alike.adc (h : r.Alike r') (m : Byte) : (r.adc m).Alike (r'.adc m) := by
  have hc : r'.getFlag .c = r.getFlag .c := h.getFlag (by decide)
  have ⟨q, e, _⟩ := h
  subst e
  simp only [Regs.adc, hc]
  exact (((h.setFlag .c _).setFlag .v _).withA _).updateNz _

theorem Regs.Alike.compare (h : r.Alike r') (reg m : Byte) : (r.compare reg m).Alike (r'.compare reg m) :=
  (h.setFlag .c _).updateNz _

theorem Regs.Alike.bitTest (h : r.Alike r') (m : Byte) : (r.bitTest m).Alike (r'.bitTest m) := by
  have ⟨q, e, _⟩ := h
  subst e
  exact ((h.setFlag .z _).setFlag .n _).setFlag .v _

/-- Of its own `p` a pull keeps two bits that steer nothing (R28). -/
theorem Regs.Alike.pullP (h : r.Alike r') (m : Byte) : (r.pullP m).Alike (r'.pullP m) := by
  obtain ⟨q, rfl, hq⟩ := h
  refine ⟨_, rfl, ?_⟩
  simp only [Regs.pullP, Regs.withP, BitVec.or_comm (m &&& _), BitVec.and_comm _ 0x30#8]
  exact (hq.and _).or _

/-! Shifts and the combined operations: a result and a register file. -/

theorem Regs.Alike.asl (h : r.Alike r') (v : Byte) : ResultsAlike (r.asl v) (r'.asl v) :=
  ⟨rfl, (h.setFlag .c _).updateNz _⟩

theorem Regs.Alike.lsr (h : r.Alike r') (v : Byte) : ResultsAlike (r.lsr v) (r'.lsr v) :=
  ⟨rfl, (h.setFlag .c _).updateNz _⟩

theorem Regs.Alike.carryByte (h : r.Alike r') : r'.carryByte = r.carryByte := by
  rw [Regs.carryByte, h.getFlag (by decide), Regs.carryByte]

theorem Regs.Alike.rol (h : r.Alike r') (v : Byte) : ResultsAlike (r.rol v) (r'.rol v) := by
  simp only [Regs.rol, h.carryByte]
  exact ⟨rfl, (h.setFlag .c _).updateNz _⟩

theorem Regs.Alike.ror (h : r.Alike r') (v : Byte) : ResultsAlike (r.ror v) (r'.ror v) := by
  simp only [Regs.ror, h.carryByte]
  exact ⟨rfl, (h.setFlag .c _).updateNz _⟩

/-- A combined operation goes on with the result (R223). -/
theorem ResultsAlike.combine (h : ResultsAlike u u') {f : Regs → Byte → Regs}
    (hf : ∀ {r r' : Regs}, r.Alike r' → ∀ v, (f r v).Alike (f r' v)) :
    ResultsAlike (u.1, f u.2 u.1) (u'.1, f u'.2 u'.1) :=
  ⟨h.1, h.1 ▸ hf h.2 u.1⟩

/-- The accumulator form writes the result to `a` (R225). -/
theorem ResultsAlike.toA (h : ResultsAlike u u') : Regs.Alike { u.2 with a := u.1 } { u'.2 with a := u'.1 } :=
  h.1 ▸ h.2.withA u.1

/-! The execution tables. -/

theorem readExec_alike (h : r.Alike r') (op : ReadOp) (v : Byte) : (readExec op v r).Alike (readExec op v r') := by
  have ⟨q, e, _⟩ := h
  subst e
  cases op
  case lda => exact h.loadA v
  case ldx => exact h.loadX v
  case ldy => exact h.loadY v
  case lax => exact (h.withA v).loadX v
  case ora => exact h.ora v
  case and => exact h.and v
  case eor => exact h.eor v
  case adc => exact h.adc v
  case sbc => exact h.adc (~~~v)
  case cmp => exact h.compare r.a v
  case cpx => exact h.compare r.x v
  case cpy => exact h.compare r.y v
  case bit => exact h.bitTest v
  case nop => exact h

theorem rmwExec_alike (h : r.Alike r') (op : RmwOp) (v : Byte) : ResultsAlike (rmwExec op v r) (rmwExec op v r') := by
  have ⟨q, e, _⟩ := h
  subst e
  cases op
  case asl => exact h.asl v
  case lsr => exact h.lsr v
  case rol => exact h.rol v
  case ror => exact h.ror v
  case inc | dec => exact ⟨rfl, h.updateNz _⟩
  case slo => exact (h.asl v).combine Regs.Alike.ora
  case rla => exact (h.rol v).combine Regs.Alike.and
  case sre => exact (h.lsr v).combine Regs.Alike.eor
  case rra => exact (h.ror v).combine Regs.Alike.adc
  case dcp => exact ⟨rfl, h.compare r.a _⟩
  case isb => exact ⟨rfl, h.adc _⟩

theorem impliedExec_alike (h : r.Alike r') (op : ImpliedOp) : (impliedExec op r).Alike (impliedExec op r') := by
  have ⟨q, e, _⟩ := h
  subst e
  cases op
  case asl => exact (h.asl r.a).toA
  case lsr => exact (h.lsr r.a).toA
  case rol => exact (h.rol r.a).toA
  case ror => exact (h.ror r.a).toA
  case txa | tya => exact h.loadA _
  case tax | tsx | inx | dex => exact h.loadX _
  case tay | iny | dey => exact h.loadY _
  case clc | sec | cli | sei | clv | cld | sed => exact h.setFlag _ _
  case txs => exact h.map (g := fun r => { r with sp := r.x }) fun _ => rfl
  case nop => exact h

theorem pullExec_alike (h : r.Alike r') (op : PullOp) (v : Byte) : (pullExec op v r).Alike (pullExec op v r') := by
  cases op
  case pla => exact h.loadA v
  case plp => exact h.pullP v

theorem taken_alike (h : r.Alike r') (op : BranchOp) : r'.taken op = r.taken op := by
  have hf : (branchTest op).1 ∈ [Flag.n, .v, .z, .c] := by cases op <;> decide
  rw [Regs.taken, h.getFlag hf, Regs.taken]

end

/-! The core and its micro-ops. -/

section

variable {c c' : Cpu}

theorem Cpu.Alike.regs (h : c.Alike c') : c.regs.Alike c'.regs := by
  obtain ⟨q, rfl, hq⟩ := h
  exact ⟨q, rfl, hq⟩

/-- What does not look at `p` keeps two cores alike. -/
theorem Cpu.Alike.map (h : c.Alike c') {g : Cpu → Cpu} (hg : ∀ q, g (c.withP q) = (g c).withP q) :
    (g c).Alike (g c') := by
  obtain ⟨q, rfl, hq⟩ := h
  have hp : (g c).regs.p = c.regs.p := (congrArg (fun c : Cpu => c.regs.p) (hg c.regs.p) :)
  exact ⟨q, hg q, by rwa [hp]⟩

theorem Cpu.Alike.onRegs (h : c.Alike c') {f : Regs → Regs} (hf : (f c.regs).Alike (f c'.regs)) :
    (c.onRegs f).Alike (c'.onRegs f) := by
  obtain ⟨q, rfl, -⟩ := h
  obtain ⟨q, hregs, hq⟩ := hf
  exact ⟨q, congrArg (fun r => { c with regs := r }) hregs, hq⟩

theorem Cpu.Alike.incPc (h : c.Alike c') : c.incPc.Alike c'.incPc := h.map fun _ => rfl

theorem Cpu.Alike.finish (h : c.Alike c') : c.finish.Alike c'.finish := h.map fun _ => rfl

theorem eaReady_withP (op : MemOp) (ea : Addr) (c : Cpu) (q : Byte) :
    eaReady op ea (c.withP q) = (eaReady op ea c).withP q := by
  cases op
  case read | rmw => rfl
  case write w => cases w <;> rfl

theorem indexHi_withP (op : MemOp) (i lo hi : Byte) (c : Cpu) (q : Byte) :
    indexHi op i lo hi (c.withP q) = (indexHi op i lo hi c).withP q := by
  unfold indexHi
  split <;> rfl

theorem branchTaken_withP (c : Cpu) (q : Byte) : branchTaken (c.withP q) = (branchTaken c).withP q := by
  have hpc : (c.withP q).regs.pc = c.regs.pc := rfl
  have hpd : (c.withP q).pd = c.pd := rfl
  simp only [branchTaken, hpc, hpd]
  split <;> rfl

theorem rmwModify_alike (h : c.Alike c') (op : RmwOp) : (rmwModify op c).Alike (rmwModify op c') := by
  have ⟨q, e, _⟩ := h
  subst e
  obtain ⟨hv, q', hregs, hq'⟩ := rmwExec_alike h.regs op c.dataBus
  exact ⟨q', congrArg₂ (fun v r => { c with dataBus := v, regs := r, readIntent := false, nextMicroOp := .storeDone })
    hv hregs, hq'⟩

theorem branch_alike (h : c.Alike c') (op : BranchOp) : (branch op c).Alike (branch op c') := by
  unfold branch
  rw [taken_alike h.regs]
  split
  · exact h.incPc.map (g := fun c => c.rdPc.goto .branchTaken) fun _ => rfl
  · exact h.incPc.finish

/-- Of all micro-ops BrkPushLo and the push of PHP alone let bits 2 to 5 of `p` reach anything but `p`. -/
theorem runMicroOp_alike (params : Params) {m : MicroOp} (hphp : m ≠ .pushDummy .php) (hbrk : m ≠ .brkPushLo)
    (h : c.Alike c') : (runMicroOp params m c).Alike (runMicroOp params m c') := by
  have ⟨q, e, _⟩ := h
  subst e
  cases m
  case brkPushLo => exact absurd rfl hbrk
  case pushDummy op =>
    cases op
    case pha => exact h.map (g := pushDummy .pha) fun _ => rfl
    case php => exact absurd rfl hphp
  case implied op => exact (h.onRegs (impliedExec_alike h.regs op)).finish
  case imm op => exact (h.incPc.onRegs (readExec_alike h.incPc.regs op c.dataBus)).finish
  case execRead op => exact (h.onRegs (readExec_alike h.regs op c.dataBus)).finish
  case pullDone op => exact (h.onRegs (pullExec_alike h.regs op c.dataBus)).finish
  case rmwModify op => exact rmwModify_alike h op
  case branch op => exact branch_alike h op
  case branchTaken => exact h.map (branchTaken_withP c)
  case rtiPullP =>
    exact (h.onRegs (h.regs.pullP c.dataBus)).map (g := fun c => c.incSp.rdStack.goto .rtiPullLo) fun _ => rfl
  case brkPushP =>
    have hdec : c.decSp.Alike (c.withP q).decSp := h.map (g := Cpu.decSp) fun _ => rfl
    exact (hdec.onRegs (hdec.regs.setFlag .i true)).map (g := fun c => (c.rd _).goto .brkVecLo) fun _ => rfl
  case zpAddr op => exact h.incPc.map (eaReady_withP op _ c.incPc)
  case zpIdxAdd op idx => exact h.map fun q => eaReady_withP op _ c q
  case idxFix op crossed => exact h.map fun q => eaReady_withP op _ c q
  case izxHi op => exact h.map fun q => eaReady_withP op _ c q
  case izyHi op => exact h.map (indexHi_withP op _ _ _ c)
  case absHi op idx =>
    cases idx
    · exact h.incPc.map (eaReady_withP op _ c.incPc)
    · exact h.incPc.map (indexHi_withP op _ _ _ c.incPc)
  all_goals exact h.map (g := runMicroOp params _) fun _ => rfl

end

/-! The pulse. -/

theorem transact_withP {σ : Type} (M : MemAgent σ) (c : Cpu) (m : σ) (q : Byte) :
    transact M (c.withP q) m = ((transact M c m).1.withP q, (transact M c m).2) := by
  obtain ⟨regs, ir, pd, ab, db, ri, tcu, cyc, nx, jl⟩ := c
  cases ri <;> rfl

/-- Settles O17: the transaction does not look at `p`, and the micro-op keeps the cores alike. -/
theorem decimalAndInterruptFlagsSteerNothing : Obligations.DecimalAndInterruptFlagsSteerNothing := by
  intro σ M params c c1 m m1 k hk hphp hbrk h
  obtain ⟨hu, hc1, hm1⟩ := pulseOn_next h
  have hbus := transact_withP M c.tick m (c.regs.p ^^^ k)
  have halike : Cpu.Alike (transact M c.tick m).1 ((transact M c.tick m).1.withP (c.regs.p ^^^ k)) :=
    ⟨_, rfl, by rw [transact_core]; exact sameNvzc_xor _ hk⟩
  obtain ⟨q, hc2, hq⟩ := runMicroOp_alike params hphp hbrk halike
  rw [← hc1] at hc2 hq
  refine ⟨c1.withP q, ?_, rfl, hq⟩
  have hruns : (c.withP (c.regs.p ^^^ k)).runs = true := Cpu.runs_of_ne_unimplemented hu
  calc pulseOn M params (c.withP (c.regs.p ^^^ k), m)
    _ = .next (runMicroOp params c.nextMicroOp (transact M (c.tick.withP (c.regs.p ^^^ k)) m).1,
          (transact M (c.tick.withP (c.regs.p ^^^ k)) m).2) := pulseOn_of_runs M params _ m hruns
    _ = .next (c1.withP q, m1) := by rw [hbus, hc2, hm1]

end Sys2Proof.Machine
